-- ==== Sys2Proof/Word.lean ====
section
/-! DEFINITION. The machine's word types (00_scope.md R10: every number of the block is unsigned, bit 0 is the least
significant bit). -/

namespace Sys2Proof

/-- A command word (30_encoding.md R74). -/
abbrev Word := BitVec 16

/-- An 8-bit value: REG_WIDTH and COUNTER_WIDTH of 00_scope.md R8. -/
abbrev Byte := BitVec 8

end Sys2Proof
end

