-- ==== Sys2Proof/Config.lean ====
section
/-! DEFINITION. What an implementation fixes: the signals (10_state.md R20), the open parameters of 00_scope.md R9 as one
record of plain data, and the free values that stand where the spec gives none. -/

namespace Sys2Proof

/-- The twelve outputs of 10_state.md R20, in id order 0 to 11. -/
inductive Out
  | serB | clkB | clrB | oeB | serS | clkS | clrS | oeS | anOnes | anTens | h1 | h2
  deriving DecidableEq, Repr

/-- The thirteen signals of 10_state.md R20: twelve outputs and the button input (id 12). -/
inductive Signal
  | out (o : Out)
  | btn
  deriving DecidableEq, Repr

/-- BTN_EDGE (60_exceptions.md R161, 92_eei_decisions.md D16). -/
inductive Edge
  | rising | falling | both
  deriving DecidableEq, Repr, Inhabited

/-- LATCH_MODE of the external register reference model (60_exceptions.md R173). -/
inductive LatchMode
  | lagged | direct
  deriving DecidableEq, Repr, Inhabited

/-- DWELL_WIDTH, 8 or 16 bits (10_state.md R31). -/
inductive DwellWidth
  | w8 | w16
  deriving DecidableEq, Repr

/-- PIN_MAP: the platform pin of each of the 13 signals (20_memory.md R58). -/
structure PinMap where
  serB : Nat
  clkB : Nat
  clrB : Nat
  oeB : Nat
  serS : Nat
  clkS : Nat
  clrS : Nat
  oeS : Nat
  anOnes : Nat
  anTens : Nat
  h1 : Nat
  h2 : Nat
  btn : Nat
  deriving DecidableEq, Repr

/-- The seven open entries of SEG_TABLE (30_encoding.md R67); entries 0, 3 and 7 are not open. -/
structure SegOpen where
  d1 : Byte
  d2 : Byte
  d4 : Byte
  d5 : Byte
  d6 : Byte
  d8 : Byte
  d9 : Byte
  deriving DecidableEq, Repr

/-- BIN_WIRING or SEG_WIRING: entry k is the number of the LED or segment that register output k drives
(60_exceptions.md R174). -/
abbrev Wiring := Vector Nat 8

/-- The open parameters of 00_scope.md R9. They are the block's configuration, fixed for a run (10_state.md R39). -/
structure Params where
  pinMap : PinMap
  anodeOn : Bool
  dwellWidth : DwellWidth
  btnEdge : Edge
  seg : SegOpen
  latchMode : LatchMode
  binWiring : Wiring
  segWiring : Wiring
  binOeRelease : Bool
  /-- DELAY_UNIT in microseconds; no rule depends on it (60_exceptions.md R172). -/
  delayUnitUs : Nat
  deriving DecidableEq, Repr

namespace Config

/-- FREE VALUE: SEG_TABLE[d] for the open d (30_encoding.md R67). Nothing constrains it. -/
opaque segEntry : Nat → Byte

/-- FREE VALUE: BTN_EDGE (60_exceptions.md R161). -/
opaque btnEdge : Edge

/-- FREE VALUE: LATCH_MODE (60_exceptions.md R173). -/
opaque latchMode : LatchMode

/-- FREE VALUE: BIN_WIRING (60_exceptions.md R174). -/
opaque binWiring : Wiring

/-- FREE VALUE: SEG_WIRING (60_exceptions.md R174). -/
opaque segWiring : Wiring

/-- FREE VALUE: the level of BTN at power-on, the environment's choice (10_state.md R40). -/
opaque btnAtPowerOn : Bool

/-- FREE VALUE: the contents of the external registers at power-on (10_state.md R40): 0 and 1 are the stages and the
storage of BIN, 2 and 3 those of SEG. -/
opaque extAtPowerOn : Nat → Byte

/-- FREE VALUE: the bit an external register shifts in while its serial data line is not driven; the argument is the
number of events before the edge. -/
opaque undrivenBit : Nat → Bool

end Config

end Sys2Proof
end

