-- ==== Sys2Proof/Syntax.lean ====
section
/-! DEFINITION. The nine commands of spec/opcode_table.json (30_encoding.md R80), with the operands their formats give
(R75 to R79). -/

namespace Sys2Proof

/-- The two external shift registers (30_encoding.md R75: selector 0 is BIN, 1 is SEG). -/
inductive Reg
  | bin | seg
  deriving DecidableEq, Repr

/-- A digit place (30_encoding.md R71: 0 is ones, 1 is tens). -/
inductive Place
  | ones | tens
  deriving DecidableEq, Repr

/-- One command. The `sig` operand is the raw 4-bit field: which of its values are legal is `Instr.WellFormed`. -/
inductive Instr
  /-- 45_primitives.md R140 to R145 -/
  | init
  /-- 41_shift_register_driver.md R90, R91 -/
  | shiftout (reg : Reg) (value : Byte)
  /-- 42_segment_encoder.md R100, R105 -/
  | dispint (number : Byte) (place : Place)
  /-- 43_display_multiplexer.md R115, R120 -/
  | muxpass (number : Byte)
  /-- 43_display_multiplexer.md R124 -/
  | dwell (number : Byte)
  /-- 44_coordinator.md R130, R131 -/
  | cycle
  /-- 45_primitives.md R146 -/
  | pinset (sig : BitVec 4)
  /-- 45_primitives.md R147 -/
  | pinclr (sig : BitVec 4)
  /-- 45_primitives.md R148 -/
  | delay (n : BitVec 12)
  deriving DecidableEq, Repr

end Sys2Proof
end

