-- ==== Sys2Proof/WellFormed.lean ====
section
/-! DEFINITION. Which commands are legal. Every operand but `sig` is legal at every value of its field; `sig` names one of
the twelve outputs (30_encoding.md R81). -/

namespace Sys2Proof

/-- The `sig` field names an output: ids 0 to 11 (30_encoding.md R81). -/
def sigLegal (sig : BitVec 4) : Bool := decide (sig.toNat ≤ 11)

/-- Legality of a command's operands (30_encoding.md R81, R83). -/
def Instr.wellFormed : Instr → Bool
  | .init => true
  | .shiftout _ _ => true
  | .dispint _ _ => true
  | .muxpass _ => true
  | .dwell _ => true
  | .cycle => true
  | .pinset sig => sigLegal sig
  | .pinclr sig => sigLegal sig
  | .delay _ => true

/-- `wellFormed` as a proposition. -/
abbrev Instr.WellFormed (i : Instr) : Prop := i.wellFormed = true

end Sys2Proof
end

