-- ==== Sys2Proof/Decode.lean ====
section
/-! DEFINITION. The command word: decoding (30_encoding.md R84), total on every 16-bit word, and the encoder written from
the formats of R74 to R79. A word reaches the block whole (20_memory.md R53), so there are no bytes to order. -/

namespace Sys2Proof

/-- Why a word is illegal: the three cases of 30_encoding.md R83, in its order. -/
inductive Illegal
  /-- op is 0x0 or 0xA to 0xF -/
  | reservedOp
  /-- a reserved bit of the word's format is 1 -/
  | reservedBit
  /-- PINSET or PINCLR with sig 12 to 15 -/
  | notAnOutput
  deriving DecidableEq, Repr

/-- Selector bit to register: 0 is BIN, 1 is SEG (30_encoding.md R75). -/
def regOfBit (b : Bool) : Reg := if b then .seg else .bin

/-- Register to selector bit (30_encoding.md R75). -/
def bitOfReg : Reg → BitVec 1
  | .bin => 0#1
  | .seg => 1#1

/-- Selector bit to place: 0 is ones, 1 is tens (30_encoding.md R75). -/
def placeOfBit (b : Bool) : Place := if b then .tens else .ones

/-- Place to selector bit (30_encoding.md R75). -/
def bitOfPlace : Place → BitVec 1
  | .ones => 0#1
  | .tens => 1#1

/-- `i` if the reserved bits `r` of its format are all 0 (30_encoding.md R74). -/
def ifReservedZero {n : Nat} (r : BitVec n) (i : Instr) : Except Illegal Instr :=
  if r = 0#n then .ok i else .error .reservedBit

/-- A SIG format command, whose `sig` field must name an output (30_encoding.md R77, R81). -/
def decodeSig (w : Word) (f : BitVec 4 → Instr) : Except Illegal Instr :=
  if w.extractLsb' 4 8 = 0#8 then
    if sigLegal (w.extractLsb' 0 4) then .ok (f (w.extractLsb' 0 4)) else .error .notAnOutput
  else .error .reservedBit

/-- 30_encoding.md R84: decode any 16-bit word, or name why it is illegal. -/
def decode (w : Word) : Except Illegal Instr :=
  match (w.extractLsb' 12 4).toNat with
  | 1 => ifReservedZero (w.extractLsb' 0 12) .init
  | 2 => ifReservedZero (w.extractLsb' 9 3) (.shiftout (regOfBit (w.getLsbD 8)) (w.extractLsb' 0 8))
  | 3 => ifReservedZero (w.extractLsb' 9 3) (.dispint (w.extractLsb' 0 8) (placeOfBit (w.getLsbD 8)))
  | 4 => ifReservedZero (w.extractLsb' 8 4) (.muxpass (w.extractLsb' 0 8))
  | 5 => ifReservedZero (w.extractLsb' 8 4) (.dwell (w.extractLsb' 0 8))
  | 6 => ifReservedZero (w.extractLsb' 0 12) .cycle
  | 7 => decodeSig w .pinset
  | 8 => decodeSig w .pinclr
  | 9 => .ok (.delay (w.extractLsb' 0 12))
  | _ => .error .reservedOp

/-- The word of a command, from the encodings of 30_encoding.md R74 to R80. -/
def encode : Instr → Word
  | .init => 0x1#4 ++ 0#12
  | .shiftout reg value => 0x2#4 ++ 0#3 ++ bitOfReg reg ++ value
  | .dispint number place => 0x3#4 ++ 0#3 ++ bitOfPlace place ++ number
  | .muxpass number => 0x4#4 ++ 0#4 ++ number
  | .dwell number => 0x5#4 ++ 0#4 ++ number
  | .cycle => 0x6#4 ++ 0#12
  | .pinset sig => 0x7#4 ++ 0#8 ++ sig
  | .pinclr sig => 0x8#4 ++ 0#8 ++ sig
  | .delay n => 0x9#4 ++ n

/-- The command the decoder reads from a word given as a number of `nbits` bits, bit 0 the word's least significant bit.
Every row of the opcode table is one 16-bit word (30_encoding.md R85); bits above `nbits` are 0. -/
def decodeTableWord (nbits w : Nat) : Option Instr :=
  if nbits ≤ 16 ∧ w < 2 ^ nbits then (decode (BitVec.ofNat 16 w)).toOption else none

end Sys2Proof
end

