-- ==== Sys2Proof/Machine/Constants.lean ====
section
/-! DEFINITION. The fixed parameters of 00_scope.md R8, the three segment entries the document gives, and the values of
the configuration and of the undefined contents at power-on. -/

namespace Sys2Proof.Machine

/-- SHIFT_CLOCKS: slots, and clock pulses, of one frame (00_scope.md R8, R19). -/
def shiftClocks : Nat := 9

/-- DWELL_INIT (00_scope.md R8). -/
def dwellInit : Nat := 100

/-- DWELL_INC (00_scope.md R8). -/
def dwellInc : Nat := 100

/-- FLASH_UNITS (00_scope.md R8). -/
def flashUnits : Nat := 1

/-- The bits of DWELL_WIDTH (10_state.md R31). -/
def dwellBits : DwellWidth → Nat
  | .w8 => 8
  | .w16 => 16

/-- SEG_TABLE (30_encoding.md R66, R67): entries 0, 3 and 7 are the document's, the other seven the parameter; no entry
beyond 9. -/
def segTable (open_ : SegOpen) : Nat → Option Byte
  | 0 => some 0x77#8
  | 1 => some open_.d1
  | 2 => some open_.d2
  | 3 => some 0x3B#8
  | 4 => some open_.d4
  | 5 => some open_.d5
  | 6 => some open_.d6
  | 7 => some 0x13#8
  | 8 => some open_.d8
  | 9 => some open_.d9
  | _ => none

/-- The number of a signal's row in 10_state.md R20, as a pin: the identity map.
DESIGN CHOICE (log 6), unsafe: the spec gives PIN_MAP no default, and asks only that it be injective (R188). -/
def pinMapAtPowerOn : PinMap :=
  { serB := 0, clkB := 1, clrB := 2, oeB := 3, serS := 4, clkS := 5, clrS := 6, oeS := 7,
    anOnes := 8, anTens := 9, h1 := 10, h2 := 11, btn := 12 }

/-- The open segment entries at power-on: free values (log 7, DESIGN CHOICE of form, safe). -/
def segOpenAtPowerOn : SegOpen :=
  { d1 := Config.segEntry 1, d2 := Config.segEntry 2, d4 := Config.segEntry 4, d5 := Config.segEntry 5,
    d6 := Config.segEntry 6, d8 := Config.segEntry 8, d9 := Config.segEntry 9 }

/-- The configuration of the machine after reset: the defaults of 00_scope.md R9 where it gives one, a free value where
it gives none (log 7), the identity pin map (log 6). -/
def paramsAtPowerOn : Params :=
  { pinMap := pinMapAtPowerOn
    anodeOn := true
    dwellWidth := .w16
    btnEdge := Config.btnEdge
    seg := segOpenAtPowerOn
    latchMode := Config.latchMode
    binWiring := Config.binWiring
    segWiring := Config.segWiring
    binOeRelease := true
    delayUnitUs := 1000 }

end Sys2Proof.Machine
end

