-- ==== Sys2Proof/Machine/State.lean ====
section
/-! DEFINITION. The machine's state as plain data: the record of 10_state.md R29, the configuration (R39), the inputs
(command stream, button, interleaving), and the reference model's external registers (60_exceptions.md R173). -/

namespace Sys2Proof.Machine

open Sys2Proof

/-- The levels of the twelve outputs; `none` is an output the block does not drive yet (10_state.md R29, R41). -/
structure Levels where
  serB : Option Bool
  clkB : Option Bool
  clrB : Option Bool
  oeB : Option Bool
  serS : Option Bool
  clkS : Option Bool
  clrS : Option Bool
  oeS : Option Bool
  anOnes : Option Bool
  anTens : Option Bool
  h1 : Option Bool
  h2 : Option Bool
  deriving DecidableEq, Repr

/-- The multiplexer's phase (10_state.md R32). -/
inductive Phase
  | idle | onesActive | tensActive
  deriving DecidableEq, Repr

/-- Direction of a configured pin (00_scope.md R12). -/
inductive Dir
  | out | inp
  deriving DecidableEq, Repr

/-- One entry of the trace (00_scope.md R12). -/
inductive Event
  /-- `W(s, v)`: an output driven to a level -/
  | w (o : Out) (v : Bool)
  /-- `D(n)`: a busy wait of n delay units -/
  | d (n : Nat)
  /-- `E(text)`: the text as character codes -/
  | e (text : List Byte)
  /-- `CFG(s, dir)` -/
  | cfg (s : Signal) (dir : Dir)
  /-- `IEN(edge)` -/
  | ien (edge : Edge)
  /-- `A`: the interrupt agent's acknowledge -/
  | a
  deriving DecidableEq, Repr

/-- The fault kinds of 60_exceptions.md R155 with the information each records. -/
inductive FaultKind
  | illegalCommand (w : Word)
  | notInitialised (w : Word)
  | reInit
  | configError (s1 s2 : Signal)
  | digitRange (d : Nat)
  deriving DecidableEq, Repr

/-- The fault record of 60_exceptions.md R156: the kind with its information, and the index of the command that raised it. -/
structure FaultRecord where
  kind : FaultKind
  pc : Nat
  deriving DecidableEq, Repr

/-- One action of the environment at an interleaving point (log 3): an interrupt-agent step (60_exceptions.md R163), or a
level driven on BTN (10_state.md R28). -/
inductive EnvAct
  | irq
  | btn (level : Bool)
  deriving DecidableEq, Repr

/-- An external shift register of the reference model (60_exceptions.md R173): its eight stages, and the storage bits
that are its outputs under LATCH_MODE = LAGGED. -/
structure ExtReg where
  sr : Byte
  latch : Byte
  deriving DecidableEq, Repr

/-- The machine's state. -/
structure State where
  /-- levels of the outputs (R29) -/
  sig : Levels
  /-- the document's Counter (R30) -/
  counter : Byte
  /-- DwellDuration (R31); a number below 2^DWELL_WIDTH in every run (`DwellInRange` in Safety) -/
  dwell : Nat
  /-- R32 -/
  phase : Phase
  /-- R33 -/
  initialised : Bool
  /-- R34 -/
  irqEnabled : Bool
  /-- R35 -/
  fault : Option FaultRecord
  /-- index of the next command (R36) -/
  pc : Nat
  /-- the trace (R12, R29), NEWEST EVENT FIRST; `State.trace` is the spec's order -/
  log : List Event
  /-- the configuration (R39); no command writes it -/
  cfg : Params
  /-- the host's command stream (R36) -/
  stream : List Word
  /-- what the environment does at each coming interleaving point (60_exceptions.md R164, R165), next point first -/
  env : List (List EnvAct)
  /-- level of the BTN input (R28) -/
  btn : Bool
  /-- the external BIN register (60_exceptions.md R173) -/
  extB : ExtReg
  /-- the external SEG register (60_exceptions.md R173) -/
  extS : ExtReg
  deriving DecidableEq, Repr

/-- The trace in the order of 00_scope.md R12: oldest event first. -/
def State.trace (s : State) : List Event := s.log.reverse

/-- Why the machine takes no step. -/
inductive Fault
  /-- Raised by `step` alone, when `fault` already holds a record: the main agent takes no further step and the run is
  over (60_exceptions.md R157). Safe: the spec says the same. -/
  | halted (record : FaultRecord)
  deriving DecidableEq, Repr

/-- Why the machine has nothing to do. -/
inductive Refusal
  /-- Answered by exec's arm for an instruction that has no meaning yet. Safe. No arm does. -/
  | notModelled (mnemonic : String)
  /-- Answered by `step` alone, when the stream holds no command at `pc`: the run has ended (70_reset_and_hazards.md
  R189), and whether the host would issue more commands the spec does not say. Safe. -/
  | endOfStream
  deriving DecidableEq, Repr

/-- Every output undriven (10_state.md R40). -/
def Levels.undriven : Levels :=
  { serB := none, clkB := none, clrB := none, oeB := none, serS := none, clkS := none, clrS := none, oeS := none,
    anOnes := none, anTens := none, h1 := none, h2 := none }

/-- The state at power-on, the only reset (10_state.md R40, 70_reset_and_hazards.md R185). `cfg` holds the parameters
(log 5, 6, 7); `stream` and `env` are inputs and start empty (log 2, 3); `btn` and the external registers are free
values (log 8, 9). -/
def State.reset : State :=
  { sig := Levels.undriven
    counter := 0#8
    dwell := dwellInit
    phase := .idle
    initialised := false
    irqEnabled := false
    fault := none
    pc := 0
    log := []
    cfg := paramsAtPowerOn
    stream := []
    env := []
    btn := Config.btnAtPowerOn
    extB := { sr := Config.extAtPowerOn 0, latch := Config.extAtPowerOn 1 }
    extS := { sr := Config.extAtPowerOn 2, latch := Config.extAtPowerOn 3 } }

end Sys2Proof.Machine
end

