-- ==== Sys2Proof/Machine/Operands.lean ====
section
/-! DEFINITION. What operands select: the lines of a register, the output a `sig` field names, the bits of a frame's
slots, the digit of a place; and the tables of signals in id order. -/

namespace Sys2Proof.Machine

open Sys2Proof

/-- `SER_r` (10_state.md R20). -/
def serOf : Reg → Out
  | .bin => .serB
  | .seg => .serS

/-- `CLK_r` (10_state.md R20). -/
def clkOf : Reg → Out
  | .bin => .clkB
  | .seg => .clkS

/-- `CLR_r` (10_state.md R20). -/
def clrOf : Reg → Out
  | .bin => .clrB
  | .seg => .clrS

/-- `OE_r` (10_state.md R20). -/
def oeOf : Reg → Out
  | .bin => .oeB
  | .seg => .oeS

/-- The anode of a digit position (10_state.md R20). -/
def anodeOf : Place → Out
  | .ones => .anOnes
  | .tens => .anTens

/-- The outputs in id order 0 to 11 (10_state.md R20). -/
def allOutputs : List Out :=
  [.serB, .clkB, .clrB, .oeB, .serS, .clkS, .clrS, .oeS, .anOnes, .anTens, .h1, .h2]

/-- The signals in id order 0 to 12 (10_state.md R20). -/
def allSignals : List Signal := allOutputs.map .out ++ [.btn]

/-- The output a `sig` field names: ids 0 to 11 (30_encoding.md R81); 12 to 15 name none. -/
def outOfField (sig : BitVec 4) : Option Out := allOutputs[sig.toNat]?

/-- A signal's platform pin (20_memory.md R58). -/
def pinOf (m : PinMap) : Signal → Nat
  | .out .serB => m.serB
  | .out .clkB => m.clkB
  | .out .clrB => m.clrB
  | .out .oeB => m.oeB
  | .out .serS => m.serS
  | .out .clkS => m.clkS
  | .out .clrS => m.clrS
  | .out .oeS => m.oeS
  | .out .anOnes => m.anOnes
  | .out .anTens => m.anTens
  | .out .h1 => m.h1
  | .out .h2 => m.h2
  | .btn => m.btn

/-- The pairs (x, y) of a list with x before y, in lexicographic order of position. -/
def orderedPairs : List Signal → List (Signal × Signal)
  | [] => []
  | x :: rest => rest.map (fun y => (x, y)) ++ orderedPairs rest

/-- The least pair of different signals on one pin, if there is one (45_primitives.md R141). -/
def firstClash (m : PinMap) : Option (Signal × Signal) :=
  (orderedPairs allSignals).find? fun p => pinOf m p.1 == pinOf m p.2

/-- Bit i of a frame's value: slots 0 to 7 carry the value's bits, slot 8 carries `value[8]`, which is 0
(30_encoding.md R73, 00_scope.md R10). -/
def slotBit (value : Byte) (i : Nat) : Bool := value.getLsbD i

/-- The digit a place selects from a remainder (30_encoding.md R72). -/
def digitOf : Place → Nat → Nat
  | .ones, r => r % 10
  | .tens, r => r / 10

/-- `reverse8` of 00_scope.md R11: bit k of the result is bit 7 - k of v. -/
def reverse8 (v : Byte) : Byte := v.reverse

/-- The cause code of a fault kind (60_exceptions.md R155). -/
def faultCode : FaultKind → Nat
  | .illegalCommand _ => 1
  | .notInitialised _ => 2
  | .reInit => 3
  | .configError _ _ => 4
  | .digitRange _ => 5

end Sys2Proof.Machine
end

