-- ==== Sys2Proof/Machine/External.lean ====
section
/-! DEFINITION. The levels of the outputs, and the spec's reference model of what stands outside the block: the shift
registers (60_exceptions.md R173), their outputs (R174) and the display (R176). It reads the block's writes; nothing in
the block reads it (10_state.md R42). -/

namespace Sys2Proof.Machine

open Sys2Proof

/-- The level of an output (10_state.md R29). -/
def Levels.get (l : Levels) : Out → Option Bool
  | .serB => l.serB
  | .clkB => l.clkB
  | .clrB => l.clrB
  | .oeB => l.oeB
  | .serS => l.serS
  | .clkS => l.clkS
  | .clrS => l.clrS
  | .oeS => l.oeS
  | .anOnes => l.anOnes
  | .anTens => l.anTens
  | .h1 => l.h1
  | .h2 => l.h2

/-- `sig[o] <- v` (00_scope.md R12). -/
def Levels.set (l : Levels) (o : Out) (v : Bool) : Levels :=
  match o with
  | .serB => { l with serB := some v }
  | .clkB => { l with clkB := some v }
  | .clrB => { l with clrB := some v }
  | .oeB => { l with oeB := some v }
  | .serS => { l with serS := some v }
  | .clkS => { l with clkS := some v }
  | .clrS => { l with clrS := some v }
  | .oeS => { l with oeS := some v }
  | .anOnes => { l with anOnes := some v }
  | .anTens => { l with anTens := some v }
  | .h1 => { l with h1 := some v }
  | .h2 => { l with h2 := some v }

/-- The stages after a shift edge: every bit one place up, the new bit at stage 0 (60_exceptions.md R173). -/
def shiftIn (sr : Byte) (bit : Bool) : Byte := sr.extractLsb' 0 7 ++ BitVec.ofBool bit

/-- The bit a shift edge takes in: the level of the register's data line; a free value while that line is not driven
(log 9), told apart by the events before the edge. -/
def serialBit (before : Levels) (seen : List Event) (r : Reg) : Bool :=
  match before.get (serOf r) with
  | some bit => bit
  | none => Config.undrivenBit seen.length

/-- What one write of an output does to the external register `r` (60_exceptions.md R173). `before` are the levels and
`seen` the events before the write. A clear line at 0 empties the stages; a clock line driven from 0 to 1 with the clear
line at 1 shifts; nothing else has an effect. -/
def extWrite (mode : LatchMode) (before : Levels) (seen : List Event) (r : Reg) (o : Out) (v : Bool) (x : ExtReg) :
    ExtReg :=
  if o = clrOf r ∧ v = false then { x with sr := 0#8 }
  else if o = clkOf r ∧ v = true ∧ before.get (clkOf r) = some false ∧ before.get (clrOf r) = some true then
    { sr := shiftIn x.sr (serialBit before seen r)
      latch := match mode with
        | .lagged => x.sr
        | .direct => x.latch }
  else x

/-- `out_r` of 60_exceptions.md R173: the storage under LAGGED, the stages themselves under DIRECT. -/
def extOut (mode : LatchMode) (x : ExtReg) : Byte :=
  match mode with
  | .lagged => x.latch
  | .direct => x.sr

/-- The external register of a state. -/
def State.ext (s : State) : Reg → ExtReg
  | .bin => s.extB
  | .seg => s.extS

/-- The register's eight outputs as the LEDs see them: `none` while its output-enable is 1 or undriven
(60_exceptions.md R174). -/
def shownOutputs (s : State) (r : Reg) : Option Byte :=
  if s.sig.get (oeOf r) = some false then some (extOut s.cfg.latchMode (s.ext r)) else none

/-- The output indexes that a wiring connects to an LED or segment (60_exceptions.md R174): none, one or several, since
the spec does not make a wiring injective. -/
def wiredTo (wiring : Wiring) (target : Nat) : List Nat :=
  (List.range 8).filter fun k => wiring[k]? == some target

/-- A binary LED is lit: OE_B is 0 and its BIN output is 1 (60_exceptions.md R176).
DESIGN CHOICE (log 21), unsafe: R176 speaks of one output for an LED; with several wired to it, any one at 1 lights it, with
none it is never lit. -/
def binaryLit (s : State) (led : Nat) : Bool :=
  match shownOutputs s .bin with
  | some out => (wiredTo s.cfg.binWiring led).any fun k => out.getLsbD k
  | none => false

/-- An anode is asserted: its line is at ANODE_ON (10_state.md R26). -/
def anodeAsserted (p : Params) (l : Levels) (x : Place) : Bool := l.get (anodeOf x) == some p.anodeOn

/-- A segment of a digit position is lit: OE_S is 0, the position's anode is asserted, and the SEG output wired to the
segment is 0 (60_exceptions.md R176).
DESIGN CHOICE (log 21), unsafe: R176 speaks of one output for a segment; with several wired to it, any one at 0 lights it,
with none it is never lit. -/
def segmentLit (s : State) (x : Place) (segment : Nat) : Bool :=
  match shownOutputs s .seg with
  | some out =>
    anodeAsserted s.cfg s.sig x && (wiredTo s.cfg.segWiring segment).any fun k => !out.getLsbD k
  | none => false

/-- A hundreds indicator follows its line, with no output-enable (60_exceptions.md R176).
DESIGN CHOICE (log 22), unsafe: the spec leaves to wiring it does not give whether level 1 lights an indicator (10_state.md
R27, 91_not_in_source.md N6); here it is on at level 1, and off at level 0 and while the line is not driven. -/
def indicatorOn (s : State) (o : Out) : Bool := s.sig.get o == some true

end Sys2Proof.Machine
end

