-- ==== Sys2Proof/Machine/Flags.lean ====
section
/-! DEFINITION. The block has no condition flags (10_state.md R38). Its only single-bit status is the pair of hundreds
indicators, computed here with the remainder they leave (30_encoding.md R69). -/

namespace Sys2Proof.Machine

open Sys2Proof

/-- The hundreds code of a number and what is left of it (30_encoding.md R69). -/
structure Hundreds where
  h1 : Bool
  h2 : Bool
  rest : Nat
  deriving DecidableEq, Repr

/-- `decompose` of 30_encoding.md R69: at most two guarded subtractions of 100. -/
def decompose (number : Byte) : Hundreds :=
  let n := number.toNat
  let h1 := decide (200 ≤ n)
  let r := if h1 then n - 100 else n
  let h2 := decide (100 ≤ r)
  { h1 := h1, h2 := h2, rest := if h2 then r - 100 else r }

/-- k of 42_segment_encoder.md R106: how many indicators the number sets. -/
def hundredsCount (number : Byte) : Nat :=
  (decompose number).h1.toNat + (decompose number).h2.toNat

end Sys2Proof.Machine
end

