-- ==== Sys2Proof/Machine/Ops.lean ====
section
/-! DEFINITION. The named operations every command is made of: the primitives of 00_scope.md R12, the interrupt agent's
step (60_exceptions.md R163) and where it falls (R165), raising a fault (R156, R157), and running a command's event
list (10_state.md R36). -/

namespace Sys2Proof.Machine

open Sys2Proof

/-- `Drive(o, v)` of 00_scope.md R12: the level, the event, and what the external registers make of the write. -/
def drive (o : Out) (v : Bool) (s : State) : State :=
  { s with
    sig := s.sig.set o v
    extB := extWrite s.cfg.latchMode s.sig s.log .bin o v s.extB
    extS := extWrite s.cfg.latchMode s.sig s.log .seg o v s.extS
    log := .w o v :: s.log }

/-- Append an event to the trace with its effect: a `W` event drives its output, no other event has one. -/
def recordEvent (e : Event) (s : State) : State :=
  match e with
  | .w o v => drive o v s
  | .d _ | .e _ | .cfg _ _ | .ien _ | .a => { s with log := e :: s.log }

/-- `(dwell + DWELL_INC) mod 2^DWELL_WIDTH` (60_exceptions.md R163). -/
def bumpDwell (w : DwellWidth) (d : Nat) : Nat := (d + dwellInc) % 2 ^ dwellBits w

/-- The interrupt agent's step (60_exceptions.md R163): acknowledge, then add to `dwell`. While the interrupt is not
enabled the agent takes no step (R161). Entry saves nothing and return restores nothing (R167, R168). -/
def irqStep (s : State) : State :=
  if s.irqEnabled then { s with dwell := bumpDwell s.cfg.dwellWidth s.dwell, log := .a :: s.log } else s

/-- One action of the environment. -/
def envAct (a : EnvAct) (s : State) : State :=
  match a with
  | .irq => irqStep s
  | .btn level => { s with btn := level }

/-- Environment actions in order. -/
def envActs : List EnvAct → State → State
  | [], s => s
  | a :: rest, s => envActs rest (envAct a s)

/-- One of the points of 60_exceptions.md R165 at which interrupt steps may fall: what `env` holds for this point
happens, any number of steps (R164); an exhausted `env` means that nothing more happens. -/
def envPoint (s : State) : State :=
  match s.env with
  | [] => s
  | acts :: rest => envActs acts { s with env := rest }

/-- TAKING A FAULT, the one shared operation (60_exceptions.md R156, R157): the record holds the kind and the index of
the command; `pc` and everything else stay. There is no return from it (R157: no handler, no recovery). -/
def raiseFault (k : FaultKind) (s : State) : State := { s with fault := some { kind := k, pc := s.pc } }

/-- A command completes: a last interleaving point after its last event (60_exceptions.md R165), then `pc <- pc + 1`
(10_state.md R36). -/
def complete (s : State) : State :=
  let t := envPoint s
  { t with pc := t.pc + 1 }

/-- One entry of a command's fixed list (10_state.md R36): an event, a write of internal state, or a fault. -/
inductive Micro
  | ev (e : Event)
  /-- `phase <- p`, not an event (43_display_multiplexer.md R119) -/
  | phase (p : Phase)
  /-- `irq_enabled <- true` (45_primitives.md R144) -/
  | irqOn
  /-- `initialised <- true` (45_primitives.md R144) -/
  | initDone
  /-- `counter <- (counter + 1) mod 256` (44_coordinator.md R132) -/
  | countUp
  /-- `raise Fault(k)` -/
  | raise (k : FaultKind)
  deriving DecidableEq, Repr

/-- Where a command stands after part of its list: going on, or stopped by a fault it raised. -/
inductive Progress
  | ok (s : State)
  | raised (s : State)
  deriving DecidableEq, Repr

/-- Play a command's list. Every event has an interleaving point right before it (60_exceptions.md R165); a fault ends
the list. -/
def play : List Micro → State → Progress
  | [], s => .ok s
  | .ev e :: rest, s => play rest (recordEvent e (envPoint s))
  | .phase p :: rest, s => play rest { s with phase := p }
  | .irqOn :: rest, s => play rest { s with irqEnabled := true }
  | .initDone :: rest, s => play rest { s with initialised := true }
  | .countUp :: rest, s => play rest { s with counter := s.counter + 1#8 }
  | .raise k :: _, s => .raised (raiseFault k s)

/-- Go on from where a command stands, unless it has raised a fault. -/
def Progress.andThen : Progress → (State → Progress) → Progress
  | .ok s, f => f s
  | .raised s, _ => .raised s

/-- The end of a command: it completes, or, its fault recorded, `pc` stays. -/
def Progress.finish : Progress → Host.Outcome State Fault Refusal
  | .ok s => .next (complete s)
  | .raised s => .next s

/-- `require initialised` of every command but INIT: else NotInitialised with the command's word, before any event
(60_exceptions.md R155, R158). -/
def requireInit (i : Instr) (f : State → Progress) (s : State) : Host.Outcome State Fault Refusal :=
  if s.initialised then (f s).finish else .next (raiseFault (.notInitialised (encode i)) s)

end Sys2Proof.Machine
end

