-- ==== Sys2Proof/Machine/ShiftRegister.lean ====
section
/-! DEFINITION. The shift-register protocol driver: `shift_frame` and SHIFTOUT (41_shift_register_driver.md R91). -/

namespace Sys2Proof.Machine

open Sys2Proof

/-- One slot of a frame: the data bit, then the clock pulse high and low (30_encoding.md R73). -/
def slotMicros (r : Reg) (value : Byte) (i : Nat) : List Micro :=
  [.ev (.w (serOf r) (slotBit value i)), .ev (.w (clkOf r) true), .ev (.w (clkOf r) false)]

/-- `shift_frame(r, value)` of 41_shift_register_driver.md R91: the clear pulse, then nine slots, least significant bit
first. -/
def frameMicros (r : Reg) (value : Byte) : List Micro :=
  [.ev (.w (clrOf r) false), .ev (.w (clrOf r) true)] ++ (List.range shiftClocks).flatMap (slotMicros r value)

/-- SHIFTOUT (41_shift_register_driver.md R91). -/
def execShiftout (r : Reg) (value : Byte) (s : State) : Host.Outcome State Fault Refusal :=
  requireInit (.shiftout r value) (play (frameMicros r value)) s

end Sys2Proof.Machine
end

