-- ==== Sys2Proof/Machine/SegmentEncoder.lean ====
section
/-! DEFINITION. The segment encoder: the table lookup, `display_int` and DISPINT (42_segment_encoder.md R105). -/

namespace Sys2Proof.Machine

open Sys2Proof

/-- The segment half of `display_int`: the frame of the complemented entry, or DigitRange for a digit the table does not
hold (30_encoding.md R66, R68). -/
def patternMicros (p : Params) (digit : Nat) : List Micro :=
  match segTable p.seg digit with
  | some entry => frameMicros .seg (~~~entry)
  | none => [.raise (.digitRange digit)]

/-- The indicator half of `display_int`: both cleared, then each set right after its test succeeds
(42_segment_encoder.md R101, R102). -/
def indicatorMicros (number : Byte) : List Micro :=
  [.ev (.w .h1 false), .ev (.w .h2 false)]
    ++ (if (decompose number).h1 then [.ev (.w .h1 true)] else [])
    ++ (if (decompose number).h2 then [.ev (.w .h2 true)] else [])

/-- The digit DISPINT shows (42_segment_encoder.md R103). -/
def digitFor (number : Byte) (place : Place) : Nat := digitOf place (decompose number).rest

/-- `display_int(number, place)` of 42_segment_encoder.md R105. -/
def displayMicros (p : Params) (number : Byte) (place : Place) : List Micro :=
  indicatorMicros number ++ patternMicros p (digitFor number place)

/-- DISPINT (42_segment_encoder.md R105). -/
def execDispint (number : Byte) (place : Place) (s : State) : Host.Outcome State Fault Refusal :=
  requireInit (.dispint number place) (play (displayMicros s.cfg number place)) s

end Sys2Proof.Machine
end

