-- ==== Sys2Proof/Machine/Multiplexer.lean ====
section
/-! DEFINITION. The display multiplexer: one pass and MUXPASS (43_display_multiplexer.md R120), the dwell cycle and DWELL
(R124). -/

namespace Sys2Proof.Machine

open Sys2Proof

/-- The output-enable pulse that shows a digit (43_display_multiplexer.md R118). -/
def flashMicros : List Micro := [.ev (.w .oeS false), .ev (.d flashUnits), .ev (.w .oeS true)]

/-- One half of a pass: break-before-make of the anodes, the phase, the digit, the flash (43_display_multiplexer.md R116
to R120). -/
def halfPassMicros (p : Params) (number : Byte) (break_ make : Out) (ph : Phase) (place : Place) : List Micro :=
  [.ev (.w break_ (!p.anodeOn)), .ev (.w make p.anodeOn), .phase ph] ++ displayMicros p number place ++ flashMicros

/-- `mux_pass(number)` of 43_display_multiplexer.md R120: the ones half, then the tens half. -/
def passMicros (p : Params) (number : Byte) : List Micro :=
  halfPassMicros p number .anTens .anOnes .onesActive .ones
    ++ halfPassMicros p number .anOnes .anTens .tensActive .tens

/-- MUXPASS (43_display_multiplexer.md R120). -/
def execMuxpass (number : Byte) (s : State) : Host.Outcome State Fault Refusal :=
  requireInit (.muxpass number) (play (passMicros s.cfg number)) s

/-- n passes. -/
def passesMicros (p : Params) (number : Byte) : Nat → List Micro
  | 0 => []
  | n + 1 => passMicros p number ++ passesMicros p number n

/-- The start of a dwell cycle: the binary register is loaded, then shown (43_display_multiplexer.md R124). -/
def binShowMicros (number : Byte) : List Micro := frameMicros .bin number ++ [.ev (.w .oeB false)]

/-- The end of a dwell cycle: OE_B released if BIN_OE_RELEASE (43_display_multiplexer.md R124). -/
def releaseMicros (p : Params) : List Micro := if p.binOeRelease then [.ev (.w .oeB true)] else []

/-- The rest of a dwell cycle, from its sample point on: `dwell` is read once, with an interleaving point of its own
right before the read (43_display_multiplexer.md R125, 60_exceptions.md R165); that many passes; the release. -/
def dwellTail (number : Byte) (s : State) : Progress :=
  let t := envPoint s
  play (passesMicros t.cfg number t.dwell ++ releaseMicros t.cfg) t

/-- `dwell_cycle(number)` of 43_display_multiplexer.md R124. -/
def dwellCycle (number : Byte) (s : State) : Progress :=
  (play (binShowMicros number) s).andThen (dwellTail number)

/-- DWELL (43_display_multiplexer.md R124). -/
def execDwell (number : Byte) (s : State) : Host.Outcome State Fault Refusal :=
  requireInit (.dwell number) (dwellCycle number) s

end Sys2Proof.Machine
end

