-- ==== Sys2Proof/Machine/Coordinator.lean ====
section
/-! DEFINITION. The main loop's body: CYCLE (44_coordinator.md R131) and its text (R133). -/

namespace Sys2Proof.Machine

open Sys2Proof

/-- The character code of a decimal digit. -/
def digitChar (d : Nat) : Byte := BitVec.ofNat 8 (0x30 + d)

/-- `fmt3(v)` of 44_coordinator.md R133: three places right-aligned with leading spaces, a space, a carriage return. -/
def fmt3 (v : Byte) : List Byte :=
  let n := v.toNat
  [ if n < 100 then 0x20#8 else digitChar (n / 100),
    if n < 10 then 0x20#8 else digitChar (n / 10 % 10),
    digitChar (n % 10),
    0x20#8,
    0x0D#8 ]

/-- CYCLE's body (44_coordinator.md R131): emit the counter, show it for a dwell cycle, count up. -/
def cycleBody (s : State) : Progress :=
  ((play [.ev (.e (fmt3 s.counter))] s).andThen (dwellCycle s.counter)).andThen (play [.countUp])

/-- CYCLE (44_coordinator.md R131). -/
def execCycle (s : State) : Host.Outcome State Fault Refusal :=
  requireInit .cycle cycleBody s

end Sys2Proof.Machine
end

