-- ==== Sys2Proof/Machine/Primitives.lean ====
section
/-! DEFINITION. INIT, PINSET, PINCLR and DELAY (45_primitives.md R140 to R148). -/

namespace Sys2Proof.Machine

open Sys2Proof

/-- The level INIT gives an output (45_primitives.md R143). -/
def initLevel (p : Params) : Out → Bool
  | .serB => false
  | .clkB => false
  | .clrB => true
  | .oeB => true
  | .serS => false
  | .clkS => false
  | .clrS => true
  | .oeS => true
  | .anOnes => !p.anodeOn
  | .anTens => !p.anodeOn
  | .h1 => false
  | .h2 => false

/-- INIT's list (45_primitives.md R142 to R144): configure the signals, drive the levels, enable the interrupt. -/
def initMicros (p : Params) : List Micro :=
  allOutputs.map (fun o => .ev (.cfg (.out o) .out)) ++ [.ev (.cfg .btn .inp)]
    ++ allOutputs.map (fun o => .ev (.w o (initLevel p o)))
    ++ [.ev (.ien p.btnEdge), .irqOn, .initDone]

/-- INIT (45_primitives.md R144): ReInit, then ConfigError with the least clashing pair, each before any event; else its
list. -/
def execInit (s : State) : Host.Outcome State Fault Refusal :=
  if s.initialised then .next (raiseFault .reInit s)
  else
    match firstClash s.cfg.pinMap with
    | some (s1, s2) => .next (raiseFault (.configError s1 s2) s)
    | none => (play (initMicros s.cfg) s).finish

/-- PINSET and PINCLR: one Drive of the named output (45_primitives.md R146, R147). A `sig` field of 12 to 15 makes the
word illegal, which comes before NotInitialised (60_exceptions.md R159). -/
def pinWrite (i : Instr) (sig : BitVec 4) (v : Bool) (s : State) : Host.Outcome State Fault Refusal :=
  match outOfField sig with
  | some o => requireInit i (play [.ev (.w o v)]) s
  | none => .next (raiseFault (.illegalCommand (encode i)) s)

/-- PINSET (45_primitives.md R146). -/
def execPinset (sig : BitVec 4) (s : State) : Host.Outcome State Fault Refusal :=
  pinWrite (.pinset sig) sig true s

/-- PINCLR (45_primitives.md R147). -/
def execPinclr (sig : BitVec 4) (s : State) : Host.Outcome State Fault Refusal :=
  pinWrite (.pinclr sig) sig false s

/-- DELAY (45_primitives.md R148): one `D(n)`, n = 0 included. -/
def execDelay (n : BitVec 12) (s : State) : Host.Outcome State Fault Refusal :=
  requireInit (.delay n) (play [.ev (.d n.toNat)]) s

end Sys2Proof.Machine
end

