-- ==== Sys2Proof/Machine/Dispatch.lean ====
section
/-! DEFINITION. One arm per command of the opcode table (30_encoding.md R80). -/

namespace Sys2Proof.Machine

open Sys2Proof

def exec (i : Instr) (s : State) : Host.Outcome State Fault Refusal :=
  match i with
  | .init => Sys2Proof.Machine.execInit s
  | .shiftout reg value => Sys2Proof.Machine.execShiftout reg value s
  | .dispint number place => Sys2Proof.Machine.execDispint number place s
  | .muxpass number => Sys2Proof.Machine.execMuxpass number s
  | .dwell number => Sys2Proof.Machine.execDwell number s
  | .cycle => Sys2Proof.Machine.execCycle s
  | .pinset sig => Sys2Proof.Machine.execPinset sig s
  | .pinclr sig => Sys2Proof.Machine.execPinclr sig s
  | .delay n => Sys2Proof.Machine.execDelay n s

end Sys2Proof.Machine
end

