-- ==== Sys2Proof/Machine/Fetch.lean ====
section
/-! DEFINITION. Fetching a command: the stream's word at `pc` (10_state.md R36), and what an illegal word does
(30_encoding.md R83). -/

namespace Sys2Proof.Machine

open Sys2Proof

/-- The word the main agent reads next, if the stream holds one (10_state.md R36). -/
def fetch (s : State) : Option Word := s.stream[s.pc]?

/-- An illegal word raises IllegalCommand(w) before any event (30_encoding.md R83, 60_exceptions.md R158). -/
def illegalWord (w : Word) (s : State) : State := raiseFault (.illegalCommand w) s

/-- The stream with a word at index `at`: what stands before and after it is kept, and a shorter stream is filled up with
words 0x0000, which are illegal commands. -/
def placeWord (stream : List Word) (at_ : Nat) (w : Word) : List Word :=
  stream.take at_ ++ List.replicate (at_ - stream.length) 0#16 ++ w :: stream.drop (at_ + 1)

end Sys2Proof.Machine
end

