-- ==== Sys2Proof/Machine/Step.lean ====
section
/-! DEFINITION. One step of the machine: one command of the main agent, with the interrupt steps that fall inside it. -/

namespace Sys2Proof.Machine

open Sys2Proof

/-- A recorded fault ends the run (60_exceptions.md R157), and so does the end of the stream (70_reset_and_hazards.md
R189). Else the word at `pc` is decoded first (60_exceptions.md R159): illegal, it raises IllegalCommand; legal, it is
executed. -/
def step (s : State) : Host.Outcome State Fault Refusal :=
  match s.fault with
  | some r => .fault (.halted r)
  | none =>
    match fetch s with
    | none => .refused .endOfStream
    | some w =>
      match decode w with
      | .error _ => .next (illegalWord w s)
      | .ok i => exec i s

/-- `s` with a command placed where `step` fetches next (log 2). A recorded fault would keep `step` from fetching at
all, so none is left. -/
def State.withFetchWord (s : State) (_nbits w : Nat) : State :=
  { s with stream := placeWord s.stream s.pc (BitVec.ofNat 16 w), fault := none }

end Sys2Proof.Machine
end

