-- ==== Sys2Proof/Machine/Assembler.lean ====
section
/-! DEFINITION. The assembler's text (30_encoding.md R86, R88), the pseudo-instructions (R87), and running a list of
commands, which the text's meaning is stated by. Nothing of the machine depends on this file. -/

namespace Sys2Proof.Machine

open Sys2Proof

/-- The pseudo-instructions of 30_encoding.md R87. -/
inductive Pseudo
  | selOnes | selTens | flash | binOn | binOff
  deriving DecidableEq, Repr

/-- The `sig` field of an output: its id (10_state.md R20). -/
def fieldOf (o : Out) : BitVec 4 := BitVec.ofNat 4 (allOutputs.idxOf o)

/-- Drive an output to a level by PINSET or PINCLR. -/
def pinTo (o : Out) (v : Bool) : Instr := if v then .pinset (fieldOf o) else .pinclr (fieldOf o)

/-- The commands a pseudo-instruction stands for; with ANODE_ON = 0, PINSET and PINCLR swap in SELONES and SELTENS
(30_encoding.md R87). -/
def expand (anodeOn : Bool) : Pseudo → List Instr
  | .selOnes => [pinTo .anTens (!anodeOn), pinTo .anOnes anodeOn]
  | .selTens => [pinTo .anOnes (!anodeOn), pinTo .anTens anodeOn]
  | .flash => [pinTo .oeS false, .delay 1#12, pinTo .oeS true]
  | .binOn => [pinTo .oeB false]
  | .binOff => [pinTo .oeB true]

/-- Commands run one after another, to the first that does not complete with a next state or that records a fault. -/
def execAll : List Instr → State → Host.Outcome State Fault Refusal
  | [], s => .next s
  | i :: rest, s =>
    match exec i s with
    | .next t => if t.fault = none then execAll rest t else .next t
    | .fault r => .fault r
    | .refused r => .refused r

/-- A line without its comment: `;;` to the end of the line (30_encoding.md R88). -/
def stripComment : List Char → List Char
  | [] => []
  | c :: rest => if c = ';' ∧ rest.head? = some ';' then [] else c :: stripComment rest

/-- A list cut at every separator. -/
def cutAt (sep : Char) : List Char → List (List Char)
  | [] => [[]]
  | c :: rest =>
    if c = sep then [] :: cutAt sep rest
    else
      match cutAt sep rest with
      | [] => [[c]]
      | f :: fs => (c :: f) :: fs

/-- Spaces and tabs. -/
def isBlank (c : Char) : Bool := c == ' ' || c == '\t'

/-- A list without the blanks at its two ends. -/
def trimBlanks (cs : List Char) : List Char := ((cs.dropWhile isBlank).reverse.dropWhile isBlank).reverse

/-- The value of a decimal or hex digit. -/
def digitValue (base : Nat) (c : Char) : Option Nat :=
  let n := c.toNat
  let d := if 48 ≤ n ∧ n ≤ 57 then n - 48 else if 97 ≤ n ∧ n ≤ 102 then n - 87 else if 65 ≤ n ∧ n ≤ 70 then n - 55 else base
  if d < base then some d else none

/-- The value of a run of digits, most significant first. -/
def digitsValue (base : Nat) : Nat → List Char → Option Nat
  | acc, [] => some acc
  | acc, c :: rest => (digitValue base c).bind fun d => digitsValue base (acc * base + d) rest

/-- A number in decimal or `0x` hex (30_encoding.md R86). -/
def numberValue : List Char → Option Nat
  | [] => none
  | '0' :: 'x' :: c :: rest => digitsValue 16 0 (c :: rest)
  | cs => digitsValue 10 0 cs

/-- A number that fits a field of `n` bits (30_encoding.md R86). -/
def immediate (n : Nat) (cs : List Char) : Option (BitVec n) :=
  (numberValue cs).bind fun v => if v < 2 ^ n then some (BitVec.ofNat n v) else none

/-- The names of the outputs (10_state.md R20), in id order. -/
def outputNames : List String :=
  ["SER_B", "CLK_B", "CLR_B", "OE_B", "SER_S", "CLK_S", "CLR_S", "OE_S", "AN_ONES", "AN_TENS", "H1", "H2"]

/-- A signal operand: an output's name, or its id 0 to 11 (30_encoding.md R86).
DESIGN CHOICE (log 19): R86 gives the numeral form of immediates alone; an id is read in the same forms, so in `0x` hex and
with leading zeros too. -/
def signalField (cs : List Char) : Option (BitVec 4) :=
  match outputNames.findIdx? (fun name => name.toList == cs) with
  | some k => some (BitVec.ofNat 4 k)
  | none => (immediate 4 cs).bind fun f => if sigLegal f then some f else none

/-- A register operand (30_encoding.md R86). -/
def regOperand (cs : List Char) : Option Reg :=
  if cs == "BIN".toList then some .bin else if cs == "SEG".toList then some .seg else none

/-- A place operand, 0 or 1 (30_encoding.md R86).
DESIGN CHOICE (log 19): R86 gives the numeral form of immediates alone; a place is read in the same forms, so in `0x` hex and
with leading zeros too. -/
def placeOperand (cs : List Char) : Option Place :=
  match numberValue cs with
  | some 0 => some .ones
  | some 1 => some .tens
  | _ => none

/-- A mnemonic and its operands as commands (30_encoding.md R86, R87); any other line has no meaning (R88). -/
def parseCommand (anodeOn : Bool) (mnemonic : List Char) (operands : List (List Char)) : Option (List Instr) :=
  let is (name : String) : Bool := mnemonic == name.toList
  match operands with
  | [] =>
    if is "INIT" then some [.init]
    else if is "CYCLE" then some [.cycle]
    else if is "SELONES" then some (expand anodeOn .selOnes)
    else if is "SELTENS" then some (expand anodeOn .selTens)
    else if is "FLASH" then some (expand anodeOn .flash)
    else if is "BINON" then some (expand anodeOn .binOn)
    else if is "BINOFF" then some (expand anodeOn .binOff)
    else none
  | [x] =>
    if is "MUXPASS" then (immediate 8 x).map fun v => [.muxpass v]
    else if is "DWELL" then (immediate 8 x).map fun v => [.dwell v]
    else if is "PINSET" then (signalField x).map fun f => [.pinset f]
    else if is "PINCLR" then (signalField x).map fun f => [.pinclr f]
    else if is "DELAY" then (immediate 12 x).map fun v => [.delay v]
    else none
  | [x, y] =>
    if is "SHIFTOUT" then (regOperand x).bind fun r => (immediate 8 y).map fun v => [.shiftout r v]
    else if is "DISPINT" then (immediate 8 x).bind fun v => (placeOperand y).map fun p => [.dispint v p]
    else none
  | _ => none

/-- One line of assembler text as commands (30_encoding.md R86 to R88).
DESIGN CHOICE (log 19): the spec says one command per line and nothing of a line without one; a line that is empty, or holds
blanks or a comment alone, gives no command, and the assembly goes on. -/
def assembleLine (anodeOn : Bool) (line : List Char) : Option (List Instr) :=
  let text := trimBlanks (stripComment line)
  let mnemonic := text.takeWhile fun c => !isBlank c
  let rest := trimBlanks (text.dropWhile fun c => !isBlank c)
  if text = [] then some []
  else parseCommand anodeOn mnemonic (if rest = [] then [] else (cutAt ',' rest).map trimBlanks)

/-- Lines of assembler text as a command stream's words. -/
def assemble (anodeOn : Bool) : List (List Char) → Option (List Word)
  | [] => some []
  | line :: rest =>
    (assembleLine anodeOn line).bind fun is => (assemble anodeOn rest).map fun ws => is.map encode ++ ws

end Sys2Proof.Machine
end

