-- ==== Sys2Proof/Safety.lean ====
section
/-! DEFINITION. The terms claims are stated in: what a trace says, what a run's end is, what a state must satisfy in every
run. Nothing of the machine depends on this file. -/

namespace Sys2Proof.Machine

open Sys2Proof

/-- The interrupt agent's event. -/
def Event.isAck : Event → Bool
  | .a => true
  | _ => false

/-- A text event. -/
def Event.isText : Event → Bool
  | .e _ => true
  | _ => false

/-- The event that drives an output to a level. -/
def Event.drives (o : Out) (v : Bool) (e : Event) : Bool := e == .w o v

/-- The main agent's events of a trace: all but the interrupt agent's (00_scope.md R13). -/
def mainEvents (l : List Event) : List Event := l.filter fun e => !e.isAck

/-- How many interrupt steps a trace shows (60_exceptions.md R163). -/
def ackCount (l : List Event) : Nat := l.countP Event.isAck

/-- How many texts a trace shows (44_coordinator.md R131). -/
def textCount (l : List Event) : Nat := l.countP Event.isText

/-- The delay units a trace waits (70_reset_and_hazards.md R200). -/
def delayUnits : List Event → Nat
  | [] => 0
  | .d n :: rest => n + delayUnits rest
  | _ :: rest => delayUnits rest

/-- The microseconds a trace waits, at the configuration's DELAY_UNIT; informative only (70_reset_and_hazards.md R200). -/
def waitedUs (p : Params) (l : List Event) : Nat := p.delayUnitUs * delayUnits l

/-- The events of a command's list, in order. -/
def eventsOf : List Micro → List Event
  | [] => []
  | .ev e :: rest => e :: eventsOf rest
  | .phase _ :: rest => eventsOf rest
  | .irqOn :: rest => eventsOf rest
  | .initDone :: rest => eventsOf rest
  | .countUp :: rest => eventsOf rest
  | .raise _ :: rest => eventsOf rest

/-- The levels after a trace: its `W` events folded over the levels before it (00_scope.md R13). -/
def levelsAfter : Levels → List Event → Levels
  | l, [] => l
  | l, .w o v :: rest => levelsAfter (l.set o v) rest
  | l, _ :: rest => levelsAfter l rest

/-- What stands outside the block, as the reference model of 60_exceptions.md R173 reads it from a trace: the levels on
the lines, the two registers, and the events read so far, newest first. -/
structure Outside where
  sig : Levels
  extB : ExtReg
  extS : ExtReg
  seen : List Event
  deriving DecidableEq, Repr

/-- The reference model reads one event: only a `W` event has an effect (60_exceptions.md R173). -/
def Outside.read (mode : LatchMode) (x : Outside) (e : Event) : Outside :=
  match e with
  | .w o v =>
    { sig := x.sig.set o v
      extB := extWrite mode x.sig x.seen .bin o v x.extB
      extS := extWrite mode x.sig x.seen .seg o v x.extS
      seen := e :: x.seen }
  | .d _ | .e _ | .cfg _ _ | .ien _ | .a => { x with seen := e :: x.seen }

/-- The reference model reads a trace, oldest event first. -/
def Outside.readAll (mode : LatchMode) (x : Outside) (l : List Event) : Outside := l.foldl (Outside.read mode) x

/-- What stands outside the block in a state. -/
def State.outside (s : State) : Outside := { sig := s.sig, extB := s.extB, extS := s.extS, seen := s.log }

/-- A register after a frame of v (60_exceptions.md R175): the stages hold reverse8(v) shifted up by one; under LAGGED
the storage holds reverse8(v). `old` is the storage before, which DIRECT has no use for. -/
def extAfterFrame (mode : LatchMode) (v : Byte) (old : Byte) : ExtReg :=
  { sr := reverse8 v <<< 1
    latch := match mode with
      | .lagged => reverse8 v
      | .direct => old }

/-- What a register's outputs carry after a frame of v (60_exceptions.md R175). -/
def frameOutputs (mode : LatchMode) (v : Byte) : Byte :=
  match mode with
  | .lagged => reverse8 v
  | .direct => reverse8 v <<< 1

/-- What a shift edge makes of a register (60_exceptions.md R173): every stage takes the one below it, stage 0 the level of
the data line (any bit while that line is not driven, log 9), and under LAGGED the storage takes the stages as they were. -/
def ShiftedIn (mode : LatchMode) (ser : Option Bool) (x y : ExtReg) : Prop :=
  (∀ k, k < 7 → y.sr.getLsbD (k + 1) = x.sr.getLsbD k) ∧ (∀ bit, ser = some bit → y.sr.getLsbD 0 = bit) ∧
    y.latch = match mode with
      | .lagged => x.sr
      | .direct => x.latch

/-- The text of a counter value (44_coordinator.md R133): three places of decimal digits, right-aligned, spaces before
them; a space; a carriage return. -/
def IsCounterText (v : Byte) (text : List Byte) : Prop :=
  ∃ hundreds tens ones : Byte, text = [hundreds, tens, ones, 0x20#8, 0x0D#8] ∧
    hundreds.toNat = (if 100 ≤ v.toNat then 0x30 + v.toNat / 100 else 0x20) ∧
    tens.toNat = (if 10 ≤ v.toNat then 0x30 + v.toNat / 10 % 10 else 0x20) ∧
    ones.toNat = 0x30 + v.toNat % 10

/-! The events each command shows, written from the spec's own trace rules and not from the model's lists. -/

/-- The 29 events of a frame (41_shift_register_driver.md R92): the clear pulse, then for each bit of the value, least
significant first, and for a last bit 0, the data write and the clock pulse. -/
def frameTrace (r : Reg) (v : Byte) : List Event :=
  [.w (clrOf r) false, .w (clrOf r) true]
    ++ [v.getLsbD 0, v.getLsbD 1, v.getLsbD 2, v.getLsbD 3, v.getLsbD 4, v.getLsbD 5, v.getLsbD 6, v.getLsbD 7,
        false].flatMap fun bit => [.w (serOf r) bit, .w (clkOf r) true, .w (clkOf r) false]

/-- The digit a place shows of a number (42_segment_encoder.md R109): of its last two decimal digits. -/
def digitShown (number : Byte) : Place → Nat
  | .ones => number.toNat % 10
  | .tens => number.toNat % 100 / 10

/-- The pattern sent for a digit place: the complement of the table's entry (30_encoding.md R66). -/
def sentPattern (p : Params) (number : Byte) (place : Place) : Byte :=
  ~~~((segTable p.seg (digitShown number place)).getD 0#8)

/-- The events of `display_int` (42_segment_encoder.md R106). -/
def displayTrace (p : Params) (number : Byte) (place : Place) : List Event :=
  [.w .h1 false, .w .h2 false]
    ++ (if 200 ≤ number.toNat then [.w .h1 true] else [])
    ++ (if 100 ≤ number.toNat then [.w .h2 true] else [])
    ++ frameTrace .seg (sentPattern p number place)

/-- The events of one pass (43_display_multiplexer.md R120, R121). -/
def passTrace (p : Params) (number : Byte) : List Event :=
  [.w .anTens (!p.anodeOn), .w .anOnes p.anodeOn] ++ displayTrace p number .ones
    ++ [.w .oeS false, .d 1, .w .oeS true]
    ++ [.w .anOnes (!p.anodeOn), .w .anTens p.anodeOn] ++ displayTrace p number .tens
    ++ [.w .oeS false, .d 1, .w .oeS true]

/-- The events of a dwell cycle up to its sample point (43_display_multiplexer.md R124, R125). -/
def binLoadTrace (number : Byte) : List Event := frameTrace .bin number ++ [.w .oeB false]

/-- The events of a dwell cycle after its sample point, n passes sampled (43_display_multiplexer.md R124). -/
def shownTrace (p : Params) (number : Byte) (n : Nat) : List Event :=
  (List.replicate n (passTrace p number)).flatten ++ (if p.binOeRelease then [.w .oeB true] else [])

/-- `dwell` after k interrupt steps (70_reset_and_hazards.md R196). -/
def bumps (w : DwellWidth) : Nat → Nat → Nat
  | 0, d => d
  | k + 1, d => bumps w k (bumpDwell w d)

/-- How many interrupt steps a list of interleaving points holds. -/
def irqsIn (points : List (List EnvAct)) : Nat := points.flatten.countP fun a => a == .irq

/-- BTN's level after the environment's actions. -/
def btnAfter : Bool → List EnvAct → Bool
  | b, [] => b
  | b, .irq :: rest => btnAfter b rest
  | _, .btn level :: rest => btnAfter level rest

/-- A property of the levels holds at every point of a trace that starts at levels `l` (the start included). -/
def Throughout (P : Levels → Prop) (l : Levels) (trace : List Event) : Prop :=
  ∀ before, before <+: trace → P (levelsAfter l before)

/-- At most one anode is asserted (43_display_multiplexer.md R122 (a)). -/
def AtMostOneAnode (p : Params) (l : Levels) : Prop := ¬(anodeAsserted p l .ones = true ∧ anodeAsserted p l .tens = true)

/-- While OE_S shows the segments, exactly one anode is asserted (43_display_multiplexer.md R122 (b)). -/
def OneAnodeWhenShown (p : Params) (l : Levels) : Prop :=
  l.oeS = some false → (anodeAsserted p l .ones != anodeAsserted p l .tens) = true

/-- At most one anode is asserted, and the segments are dark, OE_S at 1 or not driven (60_exceptions.md R174): so at
power-on, after INIT, and between the commands of a run that leaves the anodes and OE_S to the multiplexer. -/
def AnodesAtRest (p : Params) (l : Levels) : Prop := AtMostOneAnode p l ∧ l.oeS ≠ some false

/-- The output a command drives by PINSET or PINCLR. -/
def pinWritten (i : Instr) : Option Out :=
  match i with
  | .pinset sig => outOfField sig
  | .pinclr sig => outOfField sig
  | .init | .shiftout _ _ | .dispint _ _ | .muxpass _ | .dwell _ | .cycle | .delay _ => none

/-- The run has ended well (70_reset_and_hazards.md R189). -/
def EndedWell (s : State) : Prop := s.pc = s.stream.length ∧ s.fault = none

/-- The run has ended in a fault (70_reset_and_hazards.md R189). -/
def EndedFaulted (s : State) : Prop := s.fault ≠ none

/-- `dwell` fits its width (10_state.md R31). -/
def DwellInRange (s : State) : Prop := s.dwell < 2 ^ dwellBits s.cfg.dwellWidth

/-- `dwell` is what the interrupt steps so far make it (70_reset_and_hazards.md R196). -/
def DwellCountsAcks (s : State) : Prop :=
  s.dwell = dwellInit * (1 + ackCount s.trace) % 2 ^ dwellBits s.cfg.dwellWidth

/-- The levels are those the trace's writes give (00_scope.md R13). -/
def LevelsFollowTrace (s : State) : Prop := s.sig = levelsAfter Levels.undriven s.trace

/-- The counter is the number of texts emitted, modulo 256 (44_coordinator.md R131, R132). -/
def CounterCountsTexts (s : State) : Prop := s.counter = BitVec.ofNat 8 (textCount s.trace)

/-- The interrupt is enabled exactly when INIT has completed (45_primitives.md R144, 60_exceptions.md R161). -/
def EnabledIffReady (s : State) : Prop := s.irqEnabled = s.initialised

/-- After INIT every output is driven (45_primitives.md R143). -/
def DrivenOnceReady (s : State) : Prop := s.initialised = true → ∀ o : Out, s.sig.get o ≠ none

/-- Before INIT nothing has happened: no event, no level, `dwell`, `counter` and `phase` as at power-on
(70_reset_and_hazards.md R188, 45_primitives.md R145). -/
def SilentUntilReady (s : State) : Prop :=
  s.initialised = false →
    s.trace = [] ∧ s.sig = Levels.undriven ∧ s.dwell = dwellInit ∧ s.counter = 0#8 ∧ s.phase = .idle ∧
      s.irqEnabled = false

/-- A recorded fault is the fault of the command at `pc` (60_exceptions.md R156, R157). -/
def FaultAtPc (s : State) : Prop := ∀ r, s.fault = some r → r.pc = s.pc

/-- The command pointer is in the stream or at its end (10_state.md R36). -/
def PcInStream (s : State) : Prop := s.pc ≤ s.stream.length

/-- What no command but INIT and CYCLE writes beside `phase`: `counter`, `initialised`, `irq_enabled`; and what a command
that completes never writes: `fault`, the configuration, the stream. -/
structure KeepsControl (s t : State) : Prop where
  counter : t.counter = s.counter
  initialised : t.initialised = s.initialised
  irqEnabled : t.irqEnabled = s.irqEnabled
  fault : t.fault = s.fault
  cfg : t.cfg = s.cfg
  stream : t.stream = s.stream

/-- What passed between `s` and `t` at the next `n` interleaving points, with the interrupt enabled or not: those points
are used up, `dwell` and the trace took the interrupt steps they hold, BTN the levels (60_exceptions.md R163, R165). -/
structure EnvPassed (n : Nat) (s t : State) : Prop where
  env : t.env = s.env.drop n
  dwell : t.dwell = bumps s.cfg.dwellWidth (if s.irqEnabled then irqsIn (s.env.take n) else 0) s.dwell
  acks : ackCount t.trace = ackCount s.trace + if s.irqEnabled then irqsIn (s.env.take n) else 0
  btn : t.btn = btnAfter s.btn (s.env.take n).flatten

/-- Between `s` and `t` the trace grew, and the main agent's new events are `main`, in this order; whatever stands
between them is the interrupt agent's (41_shift_register_driver.md R92, 60_exceptions.md R165). -/
def Shows (main : List Event) (s t : State) : Prop := ∃ new, t.trace = s.trace ++ new ∧ mainEvents new = main

/-- What `dwell` is when the environment's next n interleaving points have passed: what a sample there reads
(43_display_multiplexer.md R125). -/
def dwellAt (n : Nat) (s : State) : Nat :=
  bumps s.cfg.dwellWidth (if s.irqEnabled then irqsIn (s.env.take n) else 0) s.dwell

/-- The pass count a command of the multiplexer samples: DWELL after 30 events and the sample's own point, CYCLE one event
later; no other command samples (43_display_multiplexer.md R125). -/
def passesSampled (i : Instr) (s : State) : Nat :=
  match i with
  | .dwell _ => dwellAt 31 s
  | .cycle => dwellAt 32 s
  | .init | .shiftout _ _ | .dispint _ _ | .muxpass _ | .pinset _ | .pinclr _ | .delay _ => 0

/-- The value a command of the multiplexer shows on the digits. -/
def valueShown (i : Instr) (s : State) : Option Byte :=
  match i with
  | .muxpass number => some number
  | .dwell number => some number
  | .cycle => some s.counter
  | .init | .shiftout _ _ | .dispint _ _ | .pinset _ | .pinclr _ | .delay _ => none

/-- An event that writes one of a register's serial lines (10_state.md R21). -/
def writesLines (r : Reg) (e : Event) : Prop := ∃ o v, e = .w o v ∧ (o = serOf r ∨ o = clkOf r ∨ o = clrOf r)

/-- Every output outside `written` keeps its level. -/
def KeepsOutputs (written : List Out) (s t : State) : Prop := ∀ o : Out, o ∉ written → t.sig.get o = s.sig.get o

end Sys2Proof.Machine
end

