-- ==== Sys2Proof/Certificates/Slice0/Obligations.lean ====
section
/-! DEFINITION. The statements for the provers. Each docstring names the rule of spec/ it formalises. -/

open Sys2Proof Sys2Proof.Machine

/-! ## The command word -/

/-- 30_encoding.md R84 with the formats of R74 to R79: every legal command, with every operand at every value, is what its
own word decodes to. -/
def Obligations.CommandWordsDecodeToTheirCommand : Prop :=
  ∀ i : Instr, i.WellFormed → decode (encode i) = .ok i

/-- 30_encoding.md R84, the other direction: a word that decodes is the word of the command it decodes to, and that
command is legal. So no two words mean one command. -/
def Obligations.DecodedWordIsTheCommandsOwnWord : Prop :=
  ∀ (w : Word) (i : Instr), decode w = .ok i → i.WellFormed ∧ encode i = w

/-- 30_encoding.md R83: the three kinds of illegal word, each by its name, in terms of the word's number. -/
def Obligations.IllegalWordsAreExactlyTheReservedOnes : Prop :=
  ∀ w : Word,
    let n := w.toNat
    let op := n / 4096
    (decode w = .error .reservedOp ↔ op = 0 ∨ 10 ≤ op) ∧
    (decode w = .error .reservedBit ↔
      ((op = 1 ∨ op = 6) ∧ n % 4096 ≠ 0) ∨ ((op = 2 ∨ op = 3) ∧ n / 512 % 8 ≠ 0) ∨
        ((op = 4 ∨ op = 5) ∧ n / 256 % 16 ≠ 0) ∨ ((op = 7 ∨ op = 8) ∧ n / 16 % 256 ≠ 0)) ∧
    (decode w = .error .notAnOutput ↔ (op = 7 ∨ op = 8) ∧ n / 16 % 256 = 0 ∧ 12 ≤ n % 16)

/-- 30_encoding.md R84: decoding, on every word, by its fields `op = w[15:12]`, `w[11:9]`, `w[8]` and so on written as parts
of the word's number; an illegal word is none. -/
def Obligations.DecodingReadsTheFields : Prop :=
  ∀ w : Word,
    let n := w.toNat
    (decode w).toOption =
      if n / 4096 = 1 then (if n % 4096 = 0 then some .init else none)
      else if n / 4096 = 2 then
        (if n / 512 % 8 = 0 then some (.shiftout (if n / 256 % 2 = 0 then .bin else .seg) (BitVec.ofNat 8 (n % 256)))
          else none)
      else if n / 4096 = 3 then
        (if n / 512 % 8 = 0 then some (.dispint (BitVec.ofNat 8 (n % 256)) (if n / 256 % 2 = 0 then .ones else .tens))
          else none)
      else if n / 4096 = 4 then (if n / 256 % 16 = 0 then some (.muxpass (BitVec.ofNat 8 (n % 256))) else none)
      else if n / 4096 = 5 then (if n / 256 % 16 = 0 then some (.dwell (BitVec.ofNat 8 (n % 256))) else none)
      else if n / 4096 = 6 then (if n % 4096 = 0 then some .cycle else none)
      else if n / 4096 = 7 then
        (if n / 16 % 256 = 0 ∧ n % 16 ≤ 11 then some (.pinset (BitVec.ofNat 4 (n % 16))) else none)
      else if n / 4096 = 8 then
        (if n / 16 % 256 = 0 ∧ n % 16 ≤ 11 then some (.pinclr (BitVec.ofNat 4 (n % 16))) else none)
      else if n / 4096 = 9 then some (.delay (BitVec.ofNat 12 (n % 4096)))
      else none

/-- 30_encoding.md R80: the match and mask of each row select its command, PINSET and PINCLR with a legal `sig`. -/
def Obligations.MaskAndMatchSelectTheCommand : Prop :=
  ∀ w : Word,
    (w &&& 0xFFFF#16 = 0x1000#16 ↔ decode w = .ok .init) ∧
    (w &&& 0xFE00#16 = 0x2000#16 ↔ ∃ r v, decode w = .ok (.shiftout r v)) ∧
    (w &&& 0xFE00#16 = 0x3000#16 ↔ ∃ n p, decode w = .ok (.dispint n p)) ∧
    (w &&& 0xFF00#16 = 0x4000#16 ↔ ∃ n, decode w = .ok (.muxpass n)) ∧
    (w &&& 0xFF00#16 = 0x5000#16 ↔ ∃ n, decode w = .ok (.dwell n)) ∧
    (w &&& 0xFFFF#16 = 0x6000#16 ↔ decode w = .ok .cycle) ∧
    (w &&& 0xFFF0#16 = 0x7000#16 ∧ w.toNat % 16 ≤ 11 ↔ ∃ f, decode w = .ok (.pinset f)) ∧
    (w &&& 0xFFF0#16 = 0x8000#16 ∧ w.toNat % 16 ≤ 11 ↔ ∃ f, decode w = .ok (.pinclr f)) ∧
    (w &&& 0xF000#16 = 0x9000#16 ↔ ∃ n, decode w = .ok (.delay n))

/-- A sanity statement: words the spec writes out (30_encoding.md R86, R87; 95_test_vectors.md V2, V22, V48). -/
def Obligations.WordsOfTheSpecDecode : Prop :=
  decode 0x1000#16 = .ok .init ∧
  decode 0x2188#16 = .ok (.shiftout .seg 0x88#8) ∧
  decode 0x31ED#16 = .ok (.dispint 237#8 .tens) ∧
  decode 0x40ED#16 = .ok (.muxpass 237#8) ∧
  decode 0x5000#16 = .ok (.dwell 0#8) ∧
  decode 0x6000#16 = .ok .cycle ∧
  decode 0x700A#16 = .ok (.pinset 10#4) ∧
  decode 0x8007#16 = .ok (.pinclr 7#4) ∧
  decode 0x9FFF#16 = .ok (.delay 4095#12) ∧
  decode 0x0000#16 = .error .reservedOp ∧
  decode 0x2288#16 = .error .reservedBit ∧
  decode 0x700C#16 = .error .notAnOutput

/-! ## The step -/

/-- 10_state.md R36: with no fault recorded, a step runs the command the word at `pc` decodes to. The model's step adds
nothing around it. -/
def Obligations.StepExecutesTheFetchedCommand : Prop :=
  ∀ (s : State) (w : Word) (i : Instr),
    s.fault = none → s.stream[s.pc]? = some w → decode w = .ok i → step s = exec i s

/-- 30_encoding.md R83, 60_exceptions.md R159: an illegal word at `pc` raises IllegalCommand with the word, INIT run or
not, and changes nothing else; `pc` stays at the command. -/
def Obligations.StepOnAnIllegalWordRecordsTheFault : Prop :=
  ∀ (s : State) (w : Word) (e : Illegal),
    s.fault = none → s.stream[s.pc]? = some w → decode w = .error e →
      step s = .next { s with fault := some { kind := .illegalCommand w, pc := s.pc } }

/-- 60_exceptions.md R157, 70_reset_and_hazards.md R189: a recorded fault stops the machine for good; without one, it
stops where the stream holds no further command, and nowhere else. The names of the two stops are the model's (log 2, 4). -/
def Obligations.StepStopsOnlyAtAFaultOrTheEnd : Prop :=
  (∀ (s : State) (r : FaultRecord), s.fault = some r → step s = .fault (.halted r)) ∧
  (∀ s : State, s.fault = none → s.stream.length ≤ s.pc → step s = .refused .endOfStream) ∧
  (∀ s : State, s.fault = none → s.pc < s.stream.length → ∃ t, step s = .next t)

/-- 10_state.md R36: a step moves `pc` by exactly 1 and records no fault, or it records a fault of the command at `pc`
and, beside the record, leaves the state as it was (60_exceptions.md R158). -/
def Obligations.StepAdvancesByOneOrRecordsAFault : Prop :=
  ∀ s t : State, step s = .next t →
    (t.fault = none ∧ t.pc = s.pc + 1) ∨
    (∃ k : FaultKind, t = { s with fault := some { kind := k, pc := s.pc } })

/-- The host's way to place a command (log 2): the very next step runs it. -/
def Obligations.PlacedWordRunsNext : Prop :=
  ∀ (s : State) (w : Nat) (i : Instr), decodeTableWord 16 w = some i →
    step (s.withFetchWord 16 w) = exec i (s.withFetchWord 16 w)

/-! ## Faults -/

/-- 60_exceptions.md R155: every legal command but INIT, before INIT, raises NotInitialised with its own word and changes
nothing else (R158). -/
def Obligations.CommandBeforeInitIsNotInitialised : Prop :=
  ∀ (i : Instr) (s : State), i.WellFormed → i ≠ .init → s.initialised = false →
    exec i s = .next { s with fault := some { kind := .notInitialised (encode i), pc := s.pc } }

/-- 30_encoding.md R81, 60_exceptions.md R159: PINSET or PINCLR of id 12 to 15 is illegal, INIT run or not. -/
def Obligations.PinCommandOfNoOutputIsIllegal : Prop :=
  ∀ (sig : BitVec 4) (s : State), 12 ≤ sig.toNat →
    exec (.pinset sig) s =
      .next { s with fault := some { kind := .illegalCommand (0x7000#16 + sig.setWidth 16), pc := s.pc } } ∧
    exec (.pinclr sig) s =
      .next { s with fault := some { kind := .illegalCommand (0x8000#16 + sig.setWidth 16), pc := s.pc } }

/-- 45_primitives.md R145: a second INIT raises ReInit, whatever the pin map (60_exceptions.md R159). -/
def Obligations.SecondInitIsReInit : Prop :=
  ∀ s : State, s.initialised = true → exec .init s = .next { s with fault := some { kind := .reInit, pc := s.pc } }

/-- 45_primitives.md R141: INIT with two signals on one pin raises ConfigError with the lexicographically least such pair,
by the ids of 10_state.md R20, before any event. That all 13 signals are checked is the spec's decision D9, as R141 says. -/
def Obligations.InitReportsTheLeastPinClash : Prop :=
  ∀ (s : State) (i j : Nat) (x y : Signal), s.initialised = false →
    i < j → allSignals[i]? = some x → allSignals[j]? = some y → pinOf s.cfg.pinMap x = pinOf s.cfg.pinMap y →
    (∀ (i' j' : Nat) (x' y' : Signal), i' < j' → allSignals[i']? = some x' → allSignals[j']? = some y' →
      pinOf s.cfg.pinMap x' = pinOf s.cfg.pinMap y' → i < i' ∨ (i = i' ∧ j ≤ j')) →
    exec .init s = .next { s with fault := some { kind := .configError x y, pc := s.pc } }

/-- 60_exceptions.md R158 and R155: a command that records a fault does so before any event and any other write; the fault
is the one its condition names, and DigitRange is never among them (42_segment_encoder.md R108). -/
def Obligations.FaultsArePreciseAndNamed : Prop :=
  ∀ (i : Instr) (s t : State), s.fault = none → exec i s = .next t → t.fault ≠ none →
    ∃ k : FaultKind, t = { s with fault := some { kind := k, pc := s.pc } } ∧
      ((k = .illegalCommand (encode i) ∧ ¬i.WellFormed) ∨
        (k = .notInitialised (encode i) ∧ i ≠ .init ∧ i.WellFormed ∧ s.initialised = false) ∨
        (k = .reInit ∧ i = .init ∧ s.initialised = true) ∨
        (∃ x y : Signal, k = .configError x y ∧ i = .init ∧ s.initialised = false ∧ x ≠ y ∧
          pinOf s.cfg.pinMap x = pinOf s.cfg.pinMap y))

/-! ## Reset -/

/-- 10_state.md R40, 70_reset_and_hazards.md R186: the machine at power-on, as far as the spec gives it. -/
def Obligations.PowerOnState : Prop :=
  (∀ o : Out, State.reset.sig.get o = none) ∧ State.reset.counter = 0#8 ∧ State.reset.dwell = 100 ∧
  State.reset.phase = .idle ∧ State.reset.initialised = false ∧ State.reset.irqEnabled = false ∧
  State.reset.fault = none ∧ State.reset.pc = 0 ∧ State.reset.trace = []

/-- The invariants below hold at power-on, and the anodes are at rest. -/
def Obligations.PowerOnMeetsTheInvariants : Prop :=
  DwellInRange State.reset ∧ DwellCountsAcks State.reset ∧ LevelsFollowTrace State.reset ∧
  CounterCountsTexts State.reset ∧ EnabledIffReady State.reset ∧ DrivenOnceReady State.reset ∧
  SilentUntilReady State.reset ∧ FaultAtPc State.reset ∧ PcInStream State.reset ∧
  AnodesAtRest State.reset.cfg State.reset.sig

/-! ## INIT -/

/-- 45_primitives.md R142 to R144: INIT, not run before, on an injective pin map, configures the signals in id order,
drives the levels of R143 in id order, enables the interrupt, and completes; `counter` and `phase` keep their values
(D30). Its 26 events and its end are 27 interleaving points (the count is the model's form, log 16); interrupt steps can
fall at the last alone (R145). -/
def Obligations.InitConfiguresDrivesAndEnables : Prop :=
  ∀ s : State, s.initialised = false → s.irqEnabled = false →
    (∀ x y : Signal, pinOf s.cfg.pinMap x = pinOf s.cfg.pinMap y → x = y) →
    ∃ (t : State) (acks : List Event),
      exec .init s = .next t ∧
      t.trace = s.trace
        ++ [.cfg (.out .serB) .out, .cfg (.out .clkB) .out, .cfg (.out .clrB) .out, .cfg (.out .oeB) .out,
            .cfg (.out .serS) .out, .cfg (.out .clkS) .out, .cfg (.out .clrS) .out, .cfg (.out .oeS) .out,
            .cfg (.out .anOnes) .out, .cfg (.out .anTens) .out, .cfg (.out .h1) .out, .cfg (.out .h2) .out,
            .cfg .btn .inp,
            .w .serB false, .w .clkB false, .w .clrB true, .w .oeB true,
            .w .serS false, .w .clkS false, .w .clrS true, .w .oeS true,
            .w .anOnes (!s.cfg.anodeOn), .w .anTens (!s.cfg.anodeOn), .w .h1 false, .w .h2 false,
            .ien s.cfg.btnEdge]
        ++ acks ∧
      mainEvents acks = [] ∧ ackCount acks = irqsIn ((s.env.drop 26).take 1) ∧
      t.dwell = bumps s.cfg.dwellWidth (irqsIn ((s.env.drop 26).take 1)) s.dwell ∧
      t.sig =
        { serB := some false, clkB := some false, clrB := some true, oeB := some true,
          serS := some false, clkS := some false, clrS := some true, oeS := some true,
          anOnes := some (!s.cfg.anodeOn), anTens := some (!s.cfg.anodeOn), h1 := some false, h2 := some false } ∧
      t.initialised = true ∧ t.irqEnabled = true ∧ t.pc = s.pc + 1 ∧ t.fault = s.fault ∧
      t.counter = s.counter ∧ t.phase = s.phase ∧ t.cfg = s.cfg ∧ t.stream = s.stream ∧
      t.env = s.env.drop 27 ∧ t.btn = btnAfter s.btn (s.env.take 27).flatten ∧
      t.extB = s.extB ∧ t.extS = s.extS

/-! ## SHIFTOUT -/

/-- 41_shift_register_driver.md R92: SHIFTOUT shows the 29 events of its frame, in order, interrupt steps between them at
most, and completes. -/
def Obligations.ShiftoutShowsItsFrame : Prop :=
  ∀ (r : Reg) (value : Byte) (s : State), s.initialised = true →
    ∃ t, exec (.shiftout r value) s = .next t ∧
      Shows ([.w (clrOf r) false, .w (clrOf r) true]
        ++ [value.getLsbD 0, value.getLsbD 1, value.getLsbD 2, value.getLsbD 3, value.getLsbD 4, value.getLsbD 5,
            value.getLsbD 6, value.getLsbD 7, false].flatMap
              fun bit => [.w (serOf r) bit, .w (clkOf r) true, .w (clkOf r) false]) s t ∧
      t.pc = s.pc + 1

/-- 41_shift_register_driver.md R93, R94: the lines SHIFTOUT leaves, and its frame: no other signal, nothing of the other
external register, no other state but what the interrupt agent writes at its 30 interleaving points (log 16). -/
def Obligations.ShiftoutFrame : Prop :=
  ∀ (r : Reg) (value : Byte) (s : State), s.initialised = true →
    ∃ t, exec (.shiftout r value) s = .next t ∧
      t.sig.get (clrOf r) = some true ∧ t.sig.get (clkOf r) = some false ∧ t.sig.get (serOf r) = some false ∧
      KeepsOutputs [clrOf r, clkOf r, serOf r] s t ∧ KeepsControl s t ∧ t.phase = s.phase ∧ EnvPassed 30 s t ∧
      (∀ q : Reg, q ≠ r → t.ext q = s.ext q)

/-- 41_shift_register_driver.md R94: SHIFTOUT to one register writes that register's serial data, clock and clear lines and
nothing else: no event of it writes a line of the other register, whose lines and contents stay. -/
def Obligations.ShiftoutWritesItsOwnLinesAlone : Prop :=
  ∀ (r : Reg) (value : Byte) (s t : State) (new : List Event),
    exec (.shiftout r value) s = .next t → t.trace = s.trace ++ new →
      (∀ e ∈ mainEvents new, writesLines r e) ∧
      (∀ q : Reg, q ≠ r →
        (∀ e ∈ new, ¬writesLines q e) ∧ t.sig.get (serOf q) = s.sig.get (serOf q) ∧
        t.sig.get (clkOf q) = s.sig.get (clkOf q) ∧ t.sig.get (clrOf q) = s.sig.get (clrOf q) ∧ t.ext q = s.ext q)

/-- 41_shift_register_driver.md R92, R97 of the pulse count (R197): exactly nine rising writes of the clock line, one
clear, in 29 events. -/
def Obligations.ShiftoutPulsesTheClockNineTimes : Prop :=
  ∀ (r : Reg) (value : Byte) (s t : State) (new : List Event), s.initialised = true →
    exec (.shiftout r value) s = .next t → t.trace = s.trace ++ new →
      (mainEvents new).length = 29 ∧
      new.countP (Event.drives (clkOf r) true) = 9 ∧ new.countP (Event.drives (clrOf r) false) = 1

/-- 60_exceptions.md R175, 41_shift_register_driver.md R97: whatever the addressed register held, a frame leaves contents
that depend on the value alone. The clock line must stand at its idle level 0 before the frame (log 11), or the first
pulse has no rising edge. -/
def Obligations.ShiftoutOverwritesTheRegister : Prop :=
  ∀ (r : Reg) (value : Byte) (s : State), s.initialised = true → s.sig.get (clkOf r) = some false →
    ∃ t, exec (.shiftout r value) s = .next t ∧
      t.ext r = extAfterFrame s.cfg.latchMode value (s.ext r).latch ∧
      extOut t.cfg.latchMode (t.ext r) = frameOutputs s.cfg.latchMode value

/-! ## DISPINT -/

/-- 30_encoding.md R67, R68, R70, R72: the remainder is the number modulo 100, the code is the thermometer of the thresholds,
and the table holds the digit of either place: the document's three entries, the parameter's seven, and none above 9. -/
def Obligations.EncoderDigitIsInTheTable : Prop :=
  ∀ (number : Byte) (place : Place) (table : SegOpen),
    (decompose number).rest = number.toNat % 100 ∧
    ((decompose number).h1 = true ↔ 200 ≤ number.toNat) ∧ ((decompose number).h2 = true ↔ 100 ≤ number.toNat) ∧
    digitFor number place = digitShown number place ∧ digitShown number place ≤ 9 ∧
    (∃ entry, segTable table (digitFor number place) = some entry) ∧
    segTable table 0 = some 0x77#8 ∧ segTable table 3 = some 0x3B#8 ∧ segTable table 7 = some 0x13#8 ∧
    segTable table 1 = some table.d1 ∧ segTable table 2 = some table.d2 ∧ segTable table 4 = some table.d4 ∧
    segTable table 5 = some table.d5 ∧ segTable table 6 = some table.d6 ∧ segTable table 8 = some table.d8 ∧
    segTable table 9 = some table.d9 ∧ (∀ d, 9 < d → segTable table d = none)

/-- 42_segment_encoder.md R101 to R106: DISPINT shows the clearing of both indicators, their setting by the thresholds, and
the frame of the complemented table entry to SEG, and completes. -/
def Obligations.DispintShowsIndicatorsThenPattern : Prop :=
  ∀ (number : Byte) (place : Place) (s : State), s.initialised = true →
    ∃ (t : State) (entry : Byte), exec (.dispint number place) s = .next t ∧
      segTable s.cfg.seg (digitShown number place) = some entry ∧
      Shows ([.w .h1 false, .w .h2 false]
        ++ (if 200 ≤ number.toNat then [.w .h1 true] else [])
        ++ (if 100 ≤ number.toNat then [.w .h2 true] else [])
        ++ frameTrace .seg (~~~entry)) s t ∧
      t.pc = s.pc + 1

/-- 42_segment_encoder.md R107: the levels DISPINT leaves, and its frame: OE_S, the anodes, every BIN line and all other
state as before. With the SEG clock line at its idle level before (log 11), the SEG register then holds the frame of the
pattern (60_exceptions.md R175). Its 31 + k events and its end are 32 + k interleaving points (log 16). -/
def Obligations.DispintFrame : Prop :=
  ∀ (number : Byte) (place : Place) (s : State), s.initialised = true →
    ∃ t, exec (.dispint number place) s = .next t ∧
      t.sig.h1 = some (decide (200 ≤ number.toNat)) ∧ t.sig.h2 = some (decide (100 ≤ number.toNat)) ∧
      t.sig.serS = some false ∧ t.sig.clkS = some false ∧ t.sig.clrS = some true ∧
      KeepsOutputs [.h1, .h2, .serS, .clkS, .clrS] s t ∧ KeepsControl s t ∧ t.phase = s.phase ∧ t.extB = s.extB ∧
      (s.sig.clkS = some false →
        t.extS = extAfterFrame s.cfg.latchMode (sentPattern s.cfg number place) s.extS.latch) ∧
      EnvPassed (32 + hundredsCount number) s t

/-! ## MUXPASS -/

/-- 43_display_multiplexer.md R120: MUXPASS shows the ones half and then the tens half, each with the anodes switched
break-before-make, the digit loaded, and one output-enable pulse around one delay unit; and completes. -/
def Obligations.MuxpassShowsBothDigits : Prop :=
  ∀ (number : Byte) (s : State), s.initialised = true →
    ∃ t, exec (.muxpass number) s = .next t ∧
      Shows ([.w .anTens (!s.cfg.anodeOn), .w .anOnes s.cfg.anodeOn] ++ displayTrace s.cfg number .ones
        ++ [.w .oeS false, .d 1, .w .oeS true]
        ++ [.w .anOnes (!s.cfg.anodeOn), .w .anTens s.cfg.anodeOn] ++ displayTrace s.cfg number .tens
        ++ [.w .oeS false, .d 1, .w .oeS true]) s t ∧
      t.pc = s.pc + 1

/-- 43_display_multiplexer.md R123: the state a pass leaves, and its frame: OE_B and the BIN lines, the BIN register and
all other state as before. With the SEG clock line at its idle level before (log 11), the SEG register then holds the frame
of the tens digit's pattern (60_exceptions.md R175). Its 72 + 2k events (R121) and its end are 73 + 2k interleaving points
(log 16). -/
def Obligations.MuxpassFrame : Prop :=
  ∀ (number : Byte) (s : State), s.initialised = true →
    ∃ t, exec (.muxpass number) s = .next t ∧
      t.sig.anOnes = some (!s.cfg.anodeOn) ∧ t.sig.anTens = some s.cfg.anodeOn ∧ t.sig.oeS = some true ∧
      t.sig.h1 = some (decide (200 ≤ number.toNat)) ∧ t.sig.h2 = some (decide (100 ≤ number.toNat)) ∧
      t.sig.serS = some false ∧ t.sig.clkS = some false ∧ t.sig.clrS = some true ∧ t.phase = .tensActive ∧
      KeepsOutputs [.anOnes, .anTens, .oeS, .h1, .h2, .serS, .clkS, .clrS] s t ∧ KeepsControl s t ∧
      t.extB = s.extB ∧
      (s.sig.clkS = some false →
        t.extS = extAfterFrame s.cfg.latchMode (sentPattern s.cfg number .tens) s.extS.latch) ∧
      EnvPassed (73 + 2 * hundredsCount number) s t

/-- 30_encoding.md R87: with nothing to come from the environment, the hand-built pass of pseudo-instructions gives the
trace, the levels and the registers of MUXPASS; it does not write `phase`, and is eleven commands longer. -/
def Obligations.HandBuiltPassEqualsMuxpass : Prop :=
  ∀ (number : Byte) (s : State), s.initialised = true → s.fault = none → s.env = [] →
    ∃ t u : State,
      execAll (expand s.cfg.anodeOn .selOnes ++ [.dispint number .ones] ++ expand s.cfg.anodeOn .flash
        ++ expand s.cfg.anodeOn .selTens ++ [.dispint number .tens] ++ expand s.cfg.anodeOn .flash) s = .next t ∧
      exec (.muxpass number) s = .next u ∧
      t.phase = s.phase ∧ t = { u with phase := s.phase, pc := u.pc + 11 }

/-! ## DWELL -/

/-- 43_display_multiplexer.md R124, R125: DWELL shows the frame of the number to BIN and OE_B low, then samples `dwell`
once, then shows that many passes and, with BIN_OE_RELEASE, OE_B high; and completes. The interrupt steps before the
sample are seen by it, those after are not, and stay in `dwell` for the next. The sample comes after 31 interleaving points,
its own the last (log 16). -/
def Obligations.DwellShowsTheSampledPasses : Prop :=
  ∀ (number : Byte) (s : State), s.initialised = true →
    ∃ (t : State) (early late : List Event), exec (.dwell number) s = .next t ∧
      t.trace = s.trace ++ early ++ late ∧
      mainEvents early = frameTrace .bin number ++ [.w .oeB false] ∧
      ackCount early = (if s.irqEnabled then irqsIn (s.env.take 31) else 0) ∧
      mainEvents late =
        (List.replicate (bumps s.cfg.dwellWidth (ackCount early) s.dwell) (passTrace s.cfg number)).flatten
          ++ (if s.cfg.binOeRelease then [.w .oeB true] else []) ∧
      t.dwell = bumps s.cfg.dwellWidth (ackCount early + ackCount late) s.dwell ∧
      t.pc = s.pc + 1

/-- 43_display_multiplexer.md R128, R127: the state DWELL leaves after at least one pass and after none, and its frame; with
the BIN clock line at its idle level before, the BIN register carries the number, and with the SEG clock line so and at
least one pass, the SEG register holds the tens digit's pattern (60_exceptions.md R175, log 11). The interleaving points
are counted as log 16 says. -/
def Obligations.DwellFrame : Prop :=
  ∀ (number : Byte) (s : State), s.initialised = true →
    ∃ t, exec (.dwell number) s = .next t ∧
      t.sig.serB = some false ∧ t.sig.clkB = some false ∧ t.sig.clrB = some true ∧
      t.sig.oeB = some s.cfg.binOeRelease ∧ KeepsControl s t ∧
      (s.sig.clkB = some false → extOut s.cfg.latchMode t.extB = frameOutputs s.cfg.latchMode number) ∧
      (1 ≤ dwellAt 31 s →
        t.sig.anOnes = some (!s.cfg.anodeOn) ∧ t.sig.anTens = some s.cfg.anodeOn ∧ t.sig.oeS = some true ∧
        t.sig.h1 = some (decide (200 ≤ number.toNat)) ∧ t.sig.h2 = some (decide (100 ≤ number.toNat)) ∧
        t.sig.serS = some false ∧ t.sig.clkS = some false ∧ t.sig.clrS = some true ∧ t.phase = .tensActive ∧
        (s.sig.clkS = some false →
          t.extS = extAfterFrame s.cfg.latchMode (sentPattern s.cfg number .tens) s.extS.latch)) ∧
      (dwellAt 31 s = 0 →
        KeepsOutputs [.serB, .clkB, .clrB, .oeB] s t ∧ t.phase = s.phase ∧ t.extS = s.extS) ∧
      EnvPassed (32 + dwellAt 31 s * (72 + 2 * hundredsCount number) + s.cfg.binOeRelease.toNat) s t

/-! ## CYCLE -/

/-- 44_coordinator.md R131, R133: CYCLE shows the text of the counter, then the dwell cycle of the counter; and completes,
the counter one up modulo 256. The sample comes after 32 interleaving points, its own the last (log 16). -/
def Obligations.CycleShowsTheCounterAndCountsUp : Prop :=
  ∀ s : State, s.initialised = true →
    ∃ (t : State) (early late : List Event) (text : List Byte), exec .cycle s = .next t ∧
      IsCounterText s.counter text ∧
      t.trace = s.trace ++ early ++ late ∧
      mainEvents early = [.e text] ++ frameTrace .bin s.counter ++ [.w .oeB false] ∧
      ackCount early = (if s.irqEnabled then irqsIn (s.env.take 32) else 0) ∧
      mainEvents late =
        (List.replicate (bumps s.cfg.dwellWidth (ackCount early) s.dwell) (passTrace s.cfg s.counter)).flatten
          ++ (if s.cfg.binOeRelease then [.w .oeB true] else []) ∧
      t.dwell = bumps s.cfg.dwellWidth (ackCount early + ackCount late) s.dwell ∧
      t.counter.toNat = (s.counter.toNat + 1) % 256 ∧ t.pc = s.pc + 1

/-- 44_coordinator.md R135: CYCLE's frame: beside the counter, what DWELL writes; with the BIN clock line at its idle level
before, the BIN register carries the counter, and with the SEG clock line so and at least one pass, the SEG register holds
the tens digit's pattern (log 11). The interleaving points are counted as log 16 says. -/
def Obligations.CycleFrame : Prop :=
  ∀ s : State, s.initialised = true →
    ∃ t, exec .cycle s = .next t ∧
      t.sig.serB = some false ∧ t.sig.clkB = some false ∧ t.sig.clrB = some true ∧
      t.sig.oeB = some s.cfg.binOeRelease ∧
      t.initialised = true ∧ t.irqEnabled = s.irqEnabled ∧ t.fault = s.fault ∧ t.cfg = s.cfg ∧
      t.stream = s.stream ∧
      (s.sig.clkB = some false → extOut s.cfg.latchMode t.extB = frameOutputs s.cfg.latchMode s.counter) ∧
      (1 ≤ dwellAt 32 s →
        t.sig.anOnes = some (!s.cfg.anodeOn) ∧ t.sig.anTens = some s.cfg.anodeOn ∧ t.sig.oeS = some true ∧
        t.sig.h1 = some (decide (200 ≤ s.counter.toNat)) ∧ t.sig.h2 = some (decide (100 ≤ s.counter.toNat)) ∧
        t.sig.serS = some false ∧ t.sig.clkS = some false ∧ t.sig.clrS = some true ∧ t.phase = .tensActive ∧
        (s.sig.clkS = some false →
          t.extS = extAfterFrame s.cfg.latchMode (sentPattern s.cfg s.counter .tens) s.extS.latch)) ∧
      (dwellAt 32 s = 0 →
        KeepsOutputs [.serB, .clkB, .clrB, .oeB] s t ∧ t.phase = s.phase ∧ t.extS = s.extS) ∧
      EnvPassed (33 + dwellAt 32 s * (72 + 2 * hundredsCount s.counter) + s.cfg.binOeRelease.toNat) s t

/-- 44_coordinator.md R132: k CYCLEs count k up, so 256 of them bring the counter back. -/
def Obligations.CyclesCountModulo256 : Prop :=
  ∀ (k : Nat) (s : State), s.initialised = true → s.fault = none →
    ∃ t, execAll (List.replicate k .cycle) s = .next t ∧ t.counter.toNat = (s.counter.toNat + k) % 256 ∧
      t.pc = s.pc + k

/-! ## PINSET, PINCLR, DELAY -/

/-- 45_primitives.md R146, R147: PINSET and PINCLR of a legal id drive that output, with one event, and complete; no other
signal and no other state is written, `phase` included. The registers change only as 60_exceptions.md R173 has the one write
change them: a clock line set from 0 with the clear line at 1 is a shift edge, a clock line set from 1 or from not driven,
or with the clear line not at 1, is none, and a clear line cleared empties the stages. Each command passes 2 interleaving
points (log 16). -/
def Obligations.PinCommandsDriveOneOutput : Prop :=
  ∀ (sig : BitVec 4) (s : State), sig.toNat ≤ 11 → s.initialised = true →
    ∃ o : Out, allOutputs[sig.toNat]? = some o ∧
      (∃ t, exec (.pinset sig) s = .next t ∧ Shows [.w o true] s t ∧ t.sig.get o = some true ∧
        KeepsOutputs [o] s t ∧ KeepsControl s t ∧ t.phase = s.phase ∧ EnvPassed 2 s t ∧ t.pc = s.pc + 1 ∧
        (∀ r : Reg, o = clkOf r → s.sig.get o = some false → s.sig.get (clrOf r) = some true →
          ShiftedIn s.cfg.latchMode (s.sig.get (serOf r)) (s.ext r) (t.ext r)) ∧
        (∀ r : Reg, o ≠ clkOf r ∨ s.sig.get o ≠ some false ∨ s.sig.get (clrOf r) ≠ some true →
          t.ext r = s.ext r)) ∧
      (∃ t, exec (.pinclr sig) s = .next t ∧ Shows [.w o false] s t ∧ t.sig.get o = some false ∧
        KeepsOutputs [o] s t ∧ KeepsControl s t ∧ t.phase = s.phase ∧ EnvPassed 2 s t ∧ t.pc = s.pc + 1 ∧
        (∀ r : Reg, t.ext r = if o = clrOf r then { s.ext r with sr := 0#8 } else s.ext r))

/-- 45_primitives.md R148: DELAY n shows one event D(n), n = 0 included, and completes; no signal and no other state is
written. It passes 2 interleaving points (log 16). -/
def Obligations.DelayShowsOneWait : Prop :=
  ∀ (n : BitVec 12) (s : State), s.initialised = true →
    ∃ t, exec (.delay n) s = .next t ∧ Shows [.d n.toNat] s t ∧ t.sig = s.sig ∧ KeepsControl s t ∧
      t.phase = s.phase ∧ t.extB = s.extB ∧ t.extS = s.extS ∧ EnvPassed 2 s t ∧ t.pc = s.pc + 1

/-! ## The interrupt agent -/

/-- 60_exceptions.md R163, R164: k interrupt steps at one point append k acknowledges and add 100 to `dwell` k times modulo
its width (the modulo is the spec's reading, D15); no signal and no other state is written. The point is the next entry of
`env`, the model's form (log 3). While the interrupt is not enabled none is taken (R161), and what `env` holds for the point
is dropped, the model's choice (log 16). -/
def Obligations.InterruptStepsAddToDwellAlone : Prop :=
  ∀ (k : Nat) (s : State) (rest : List (List EnvAct)), s.env = List.replicate k .irq :: rest →
    (s.irqEnabled = true →
      envPoint s =
        { s with
          env := rest
          dwell := if k = 0 then s.dwell else (s.dwell + 100 * k) % 2 ^ dwellBits s.cfg.dwellWidth
          log := List.replicate k .a ++ s.log }) ∧
    (s.irqEnabled = false → envPoint s = { s with env := rest })

/-- 70_reset_and_hazards.md R196: `dwell` after m interrupt steps from power-on, and when it is first 0. -/
def Obligations.DwellGrowsByHundredsAndWraps : Prop :=
  (∀ (w : DwellWidth) (m : Nat), bumps w m dwellInit = 100 * (1 + m) % 2 ^ dwellBits w) ∧
  bumps .w8 63 dwellInit = 0 ∧ (∀ m, m < 63 → bumps .w8 m dwellInit ≠ 0) ∧
  bumps .w16 16383 dwellInit = 0 ∧ (∀ m, m < 16383 → bumps .w16 m dwellInit ≠ 0)

/-- 60_exceptions.md R165: where interrupt steps fall does not matter to the main agent, except for the pass count that
DWELL and CYCLE sample. Two states that differ in the coming interrupts alone: the same signals, state and main events, and
with the data lines driven the same external registers (an edge on a line not driven takes in a free bit, log 9). Which
interrupts come before the sample is counted in points of `env`, the model's form: 31 for DWELL, 32 for CYCLE (log 3, 16). -/
def Obligations.InterruptPlaceMattersOnlyToTheSample : Prop :=
  ∀ (i : Instr) (s : State) (env : List (List EnvAct)),
    passesSampled i { s with env := env } = passesSampled i s →
    ∃ t u : State, exec i s = .next t ∧ exec i { s with env := env } = .next u ∧
      t.sig = u.sig ∧ t.counter = u.counter ∧ t.phase = u.phase ∧ t.initialised = u.initialised ∧
      t.irqEnabled = u.irqEnabled ∧ t.fault = u.fault ∧ t.pc = u.pc ∧ t.cfg = u.cfg ∧ t.stream = u.stream ∧
      mainEvents t.trace = mainEvents u.trace ∧
      ((∀ r : Reg, s.sig.get (serOf r) ≠ none) → t.extB = u.extB ∧ t.extS = u.extS)

/-- 10_state.md R30 to R34, R39, 60_exceptions.md R162, for `counter`, `dwell`, `phase`, `initialised`, `irq_enabled`, the
configuration, the stream and the trace: only CYCLE writes the counter; only the interrupt agent writes `dwell`, each time
with an acknowledge; only MUXPASS, and DWELL and CYCLE by their passes, write the phase; INIT alone initialises and enables,
and nothing undoes it; nothing writes the configuration or the stream; the trace only grows. -/
def Obligations.CounterDwellPhaseAndEnablesHaveTheirWriters : Prop :=
  ∀ (i : Instr) (s t : State), exec i s = .next t →
    (t.counter ≠ s.counter → i = .cycle) ∧
    (ackCount t.trace = ackCount s.trace → t.dwell = s.dwell) ∧
    (t.phase ≠ s.phase → (∃ n, i = .muxpass n) ∨ (∃ n, i = .dwell n) ∨ i = .cycle) ∧
    (t.initialised ≠ s.initialised → i = .init ∧ t.initialised = true) ∧
    (t.irqEnabled ≠ s.irqEnabled → i = .init ∧ t.irqEnabled = true) ∧
    t.cfg = s.cfg ∧ t.stream = s.stream ∧ s.trace <+: t.trace

/-! ## The display -/

/-- 43_display_multiplexer.md R122 (a), (b), over every command but PINSET and PINCLR of an anode: begun with at most one
anode asserted, it has at no point of its trace both asserted, and ends so. If it is no PINSET or PINCLR of OE_S either and
begins with the segments dark, then exactly one anode is asserted whenever OE_S shows the segments, and it ends with the
anodes at rest. So every run that writes the anodes and OE_S only through MUXPASS, DWELL, CYCLE and INIT keeps both. -/
def Obligations.AnodesNeverOverlap : Prop :=
  ∀ (i : Instr) (s t : State) (new : List Event),
    pinWritten i ≠ some .anOnes → pinWritten i ≠ some .anTens → AtMostOneAnode s.cfg s.sig →
    exec i s = .next t → t.trace = s.trace ++ new →
      Throughout (AtMostOneAnode s.cfg) s.sig new ∧ AtMostOneAnode t.cfg t.sig ∧
      (pinWritten i ≠ some .oeS → AnodesAtRest s.cfg s.sig →
        Throughout (OneAnodeWhenShown s.cfg) s.sig new ∧ AnodesAtRest t.cfg t.sig)

/-- 43_display_multiplexer.md R122 (c): whenever OE_S shows the segments, the SEG register's outputs carry the pattern of
the digit whose anode is asserted, under either LATCH_MODE. The clock line is at its idle level at the start (log 11). -/
def Obligations.FlashShowsTheAssertedDigit : Prop :=
  ∀ (i : Instr) (s t : State) (new before : List Event) (value : Byte) (place : Place), valueShown i s = some value →
    AnodesAtRest s.cfg s.sig → s.sig.clkS = some false → exec i s = .next t → t.trace = s.trace ++ new →
      before <+: new → (levelsAfter s.sig before).oeS = some false →
      anodeAsserted s.cfg (levelsAfter s.sig before) place = true →
      extOut s.cfg.latchMode (Outside.readAll s.cfg.latchMode s.outside before).extS =
        frameOutputs s.cfg.latchMode (sentPattern s.cfg value place)

/-- 70_reset_and_hazards.md R190, R198: the multiplexer's commands never write a serial line of SEG while OE_S shows it,
nor, with BIN_OE_RELEASE, one of BIN while OE_B shows it; with BIN_OE_RELEASE they end with OE_B as they began. -/
def Obligations.RegistersLoadInTheDark : Prop :=
  ∀ (i : Instr) (s t : State) (new : List Event), (valueShown i s).isSome →
    s.sig.oeS = some true → exec i s = .next t → t.trace = s.trace ++ new →
      (∀ (before : List Event) (e : Event), before ++ [e] <+: new → writesLines .seg e →
        (levelsAfter s.sig before).oeS = some true) ∧
      (s.cfg.binOeRelease = true → s.sig.oeB = some true →
        t.sig.oeB = some true ∧
        (∀ (before : List Event) (e : Event), before ++ [e] <+: new → writesLines .bin e →
          (levelsAfter s.sig before).oeB = some true))

/-- 60_exceptions.md R174, R176: a register's outputs are shown exactly while its output-enable is at 0, and then they are
the storage under LAGGED and the stages under DIRECT; what lights a binary LED, a segment and a hundreds indicator. That any
one of several wired outputs lights, and that level 1 turns an indicator on, are the model's choices (log 21, 22). -/
def Obligations.OutputsShownAndWhatTheyLight : Prop :=
  ∀ s : State,
    (∀ r : Reg, s.sig.get (oeOf r) = some false →
      shownOutputs s r = some (if s.cfg.latchMode = .lagged then (s.ext r).latch else (s.ext r).sr)) ∧
    (∀ r : Reg, s.sig.get (oeOf r) ≠ some false → shownOutputs s r = none) ∧
    (∀ led : Nat, binaryLit s led = true ↔
      s.sig.oeB = some false ∧
        ∃ k, k < 8 ∧ s.cfg.binWiring[k]? = some led ∧ (extOut s.cfg.latchMode s.extB).getLsbD k = true) ∧
    (∀ (x : Place) (segment : Nat), segmentLit s x segment = true ↔
      s.sig.oeS = some false ∧ s.sig.get (anodeOf x) = some s.cfg.anodeOn ∧
        ∃ k, k < 8 ∧ s.cfg.segWiring[k]? = some segment ∧ (extOut s.cfg.latchMode s.extS).getLsbD k = false) ∧
    (indicatorOn s .h1 = true ↔ s.sig.h1 = some true) ∧ (indicatorOn s .h2 = true ↔ s.sig.h2 = some true)

/-- 60_exceptions.md R174 to R176: after SHIFTOUT to BIN with OE_B at 0, an LED is lit exactly when a bit of the value
reaches it: under LAGGED output k carries bit 7 - k, under DIRECT bit 8 - k and output 0 none. The clock line is at its
idle level before (log 11); several outputs on one LED are log 21; that output 1 lights an LED is the spec's assumption
(D21). -/
def Obligations.BinaryLedsShowTheShiftedValue : Prop :=
  ∀ (value : Byte) (led : Nat) (s : State), s.initialised = true → s.sig.clkB = some false →
    ∃ t, exec (.shiftout .bin value) s = .next t ∧
      (binaryLit t led = true ↔
        s.sig.oeB = some false ∧
          ∃ k, k < 8 ∧ s.cfg.binWiring[k]? = some led ∧
            (s.cfg.latchMode = .lagged ∧ value.getLsbD (7 - k) = true ∨
              s.cfg.latchMode = .direct ∧ 1 ≤ k ∧ value.getLsbD (8 - k) = true))

/-- 60_exceptions.md R174 to R176, 30_encoding.md R66: after DISPINT with OE_S at 0, a segment of a digit position whose
anode is asserted is lit exactly when a 1 of the table's entry reaches it: under LAGGED by output k from bit 7 - k, under
DIRECT from bit 8 - k, and there output 0 always lights its segment. The clock line is at its idle level before (log 11);
several outputs on one segment are log 21. -/
def Obligations.SegmentsShowTheTableEntry : Prop :=
  ∀ (number entry : Byte) (place x : Place) (segment : Nat) (s : State),
    s.initialised = true → s.sig.clkS = some false → segTable s.cfg.seg (digitShown number place) = some entry →
    ∃ t, exec (.dispint number place) s = .next t ∧
      (segmentLit t x segment = true ↔
        s.sig.oeS = some false ∧ s.sig.get (anodeOf x) = some s.cfg.anodeOn ∧
          ∃ k, k < 8 ∧ s.cfg.segWiring[k]? = some segment ∧
            (s.cfg.latchMode = .lagged ∧ entry.getLsbD (7 - k) = true ∨
              s.cfg.latchMode = .direct ∧ (k = 0 ∨ entry.getLsbD (8 - k) = true)))

/-- 43_display_multiplexer.md R124, R129: in a DWELL or CYCLE begun with the segments dark, the binary register is shown at
every point where OE_S shows a digit. -/
def Obligations.BinaryShownWheneverADigitIs : Prop :=
  ∀ (i : Instr) (s t : State) (new before : List Event), (∃ n, i = .dwell n) ∨ i = .cycle →
    s.sig.oeS = some true → exec i s = .next t → t.trace = s.trace ++ new → before <+: new →
      (levelsAfter s.sig before).oeS = some false → (levelsAfter s.sig before).oeB = some false

/-- 43_display_multiplexer.md R124, R129: in a DWELL or CYCLE the binary register, once OE_B is written to 0, is shown at
every point until the release, not between the flashes alone; the release is the command's last event, and without
BIN_OE_RELEASE there is none. -/
def Obligations.BinaryStaysShownUntilTheRelease : Prop :=
  ∀ (i : Instr) (s t : State) (new before : List Event), (∃ n, i = .dwell n) ∨ i = .cycle →
    exec i s = .next t → t.trace = s.trace ++ new → before <+: new → .w .oeB false ∈ before →
      (.w .oeB true ∉ before → (levelsAfter s.sig before).oeB = some false) ∧
      (.w .oeB true ∈ before → s.cfg.binOeRelease = true ∧ mainEvents before = mainEvents new)

/-- 70_reset_and_hazards.md R200: the delay units the multiplexer's commands wait: 2 a pass, one pass for MUXPASS, the
sampled count for DWELL and CYCLE. The count is what `dwell` is after 31 or 32 points of `env`, the model's form (log 16). -/
def Obligations.MultiplexerWaitsTwoUnitsAPass : Prop :=
  ∀ (i : Instr) (s t : State) (new : List Event) (value : Byte), valueShown i s = some value → s.initialised = true →
    exec i s = .next t → t.trace = s.trace ++ new →
      delayUnits new = if i = .muxpass value then 2 else 2 * passesSampled i s

/-- 42_segment_encoder.md R106, 43_display_multiplexer.md R121, R126, 44_coordinator.md R134: how many events the commands
of the display append, k the indicators the value sets. The sampled n is what `dwell` is after 31 points of `env` for DWELL
and 32 for CYCLE, the model's form (log 16). -/
def Obligations.DisplayCommandsEventCounts : Prop :=
  ∀ (number : Byte) (place : Place) (s : State), s.initialised = true →
    ∃ t u v w : State, ∃ nt nu nv nw : List Event,
      (exec (.dispint number place) s = .next t ∧ t.trace = s.trace ++ nt ∧
        (mainEvents nt).length = 31 + hundredsCount number) ∧
      (exec (.muxpass number) s = .next u ∧ u.trace = s.trace ++ nu ∧
        (mainEvents nu).length = 72 + 2 * hundredsCount number) ∧
      (exec (.dwell number) s = .next v ∧ v.trace = s.trace ++ nv ∧
        (mainEvents nv).length =
          29 + 1 + dwellAt 31 s * (72 + 2 * hundredsCount number) + s.cfg.binOeRelease.toNat) ∧
      (exec .cycle s = .next w ∧ w.trace = s.trace ++ nw ∧
        (mainEvents nw).length =
          1 + 29 + 1 + dwellAt 32 s * (72 + 2 * hundredsCount s.counter) + s.cfg.binOeRelease.toNat)

/-! ## Invariants of every step -/

/-- 60_exceptions.md R173: the external registers are what the reference model reads from the trace: every step appends
events, and the levels and the registers after it are those the new events give. -/
def Obligations.OutsideFollowsTheTrace : Prop :=
  ∀ s t : State, step s = .next t →
    ∃ new, t.trace = s.trace ++ new ∧ t.outside = Outside.readAll s.cfg.latchMode s.outside new

/-- 00_scope.md R13: the levels are the fold of the trace's writes over the levels at reset. -/
def Obligations.StepKeepsLevelsFollowingTheTrace : Prop :=
  ∀ s t : State, LevelsFollowTrace s → step s = .next t → LevelsFollowTrace t

/-- 70_reset_and_hazards.md R196: `dwell` is 100 (1 + m) modulo its width, m the acknowledges in the trace. -/
def Obligations.StepKeepsDwellCountingAcknowledges : Prop :=
  ∀ s t : State, DwellCountsAcks s → step s = .next t → DwellCountsAcks t

/-- 10_state.md R31: `dwell` stays a number of its width. -/
def Obligations.StepKeepsDwellInRange : Prop :=
  ∀ s t : State, DwellInRange s → step s = .next t → DwellInRange t

/-- 44_coordinator.md R131, R132: one text for each count of the counter. -/
def Obligations.StepKeepsCounterCountingTexts : Prop :=
  ∀ s t : State, CounterCountsTexts s → step s = .next t → CounterCountsTexts t

/-- 45_primitives.md R143, R144: the interrupt is enabled exactly when INIT has completed, and from then on every output
is driven. -/
def Obligations.StepKeepsReadiness : Prop :=
  ∀ s t : State, EnabledIffReady s → DrivenOnceReady s → step s = .next t → EnabledIffReady t ∧ DrivenOnceReady t

/-- 70_reset_and_hazards.md R188, 45_primitives.md R145: until INIT completes there is no event, no level, no interrupt
step, and `dwell`, `counter` and `phase` are as at power-on. -/
def Obligations.StepKeepsSilenceUntilInit : Prop :=
  ∀ s t : State, SilentUntilReady s → step s = .next t → SilentUntilReady t

/-- 10_state.md R36, 60_exceptions.md R156, R157: `pc` stays in the stream or at its end, and a recorded fault is that of
the command at `pc`. -/
def Obligations.StepKeepsPcAndFaultRecord : Prop :=
  ∀ s t : State, PcInStream s → FaultAtPc s → step s = .next t → PcInStream t ∧ FaultAtPc t
end

