-- ==== Sys2Proof/Laws/Levels.lean ====
section
/-! SUPPORT. Reading a level after a write, and the levels after a trace. -/

namespace Sys2Proof.Machine

open Sys2Proof

@[simp] theorem Levels.get_set_same (l : Levels) (o : Out) (v : Bool) : (l.set o v).get o = some v := by
  cases o <;> rfl

@[simp] theorem Levels.get_set_other (l : Levels) {o p : Out} (v : Bool) (h : p ≠ o) :
    (l.set o v).get p = l.get p := by
  cases o <;> cases p <;> first | rfl | exact absurd rfl h

theorem Levels.get_set (l : Levels) (o p : Out) (v : Bool) :
    (l.set o v).get p = if p = o then some v else l.get p := by
  split
  · next h => subst h; simp
  · next h => simp [h]

/-- Two level records that agree at every output are equal. -/
theorem Levels.ext_get {l m : Levels} (h : ∀ o : Out, l.get o = m.get o) : l = m := by
  have h0 := h .serB; have h1 := h .clkB; have h2 := h .clrB; have h3 := h .oeB
  have h4 := h .serS; have h5 := h .clkS; have h6 := h .clrS; have h7 := h .oeS
  have h8 := h .anOnes; have h9 := h .anTens; have h10 := h .h1; have h11 := h .h2
  cases l; cases m
  simp only [Levels.get] at *
  subst h0 h1 h2 h3 h4 h5 h6 h7 h8 h9 h10 h11
  rfl

@[simp] theorem levelsAfter_nil (l : Levels) : levelsAfter l [] = l := rfl

@[simp] theorem levelsAfter_w (l : Levels) (o : Out) (v : Bool) (rest : List Event) :
    levelsAfter l (.w o v :: rest) = levelsAfter (l.set o v) rest := rfl

/-- An event that is no write leaves the levels. -/
theorem levelsAfter_cons_other (l : Levels) {e : Event} (h : ∀ o v, e ≠ .w o v) (rest : List Event) :
    levelsAfter l (e :: rest) = levelsAfter l rest := by
  cases e with
  | w o v => exact absurd rfl (h o v)
  | d | e | cfg | ien | a => rfl

theorem levelsAfter_append (l : Levels) (a b : List Event) :
    levelsAfter l (a ++ b) = levelsAfter (levelsAfter l a) b := by
  induction a generalizing l with
  | nil => rfl
  | cons e rest ih => cases e <;> simp only [List.cons_append, levelsAfter] <;> exact ih _

/-- The interrupt agent's events do not touch the levels (00_scope.md R18). -/
theorem levelsAfter_mainEvents (l : Levels) (a : List Event) : levelsAfter l (mainEvents a) = levelsAfter l a := by
  induction a generalizing l with
  | nil => rfl
  | cons e rest ih =>
    cases e <;> simp only [mainEvents, Event.isAck, List.filter, Bool.not_false, Bool.not_true, levelsAfter] at * <;>
      exact ih _

/-- An output that a trace does not write keeps its level. -/
theorem levelsAfter_get_of_not_written (l : Levels) (p : Out) (a : List Event)
    (h : ∀ o v, Event.w o v ∈ a → o ≠ p) : (levelsAfter l a).get p = l.get p := by
  induction a generalizing l with
  | nil => rfl
  | cons e rest ih =>
    have hrest : ∀ o v, Event.w o v ∈ rest → o ≠ p := fun o v hm => h o v (List.mem_cons_of_mem _ hm)
    cases e with
    | w o v =>
      have hne : p ≠ o := fun heq => h o v (List.mem_cons_self) heq.symm
      simp [ih _ hrest, hne]
    | d | e | cfg | ien | a => exact ih l hrest

@[simp] theorem mainEvents_nil : mainEvents [] = [] := rfl

theorem mainEvents_append (a b : List Event) : mainEvents (a ++ b) = mainEvents a ++ mainEvents b := by
  simp [mainEvents]

theorem eventsOf_append (a b : List Micro) : eventsOf (a ++ b) = eventsOf a ++ eventsOf b := by
  induction a with
  | nil => rfl
  | cons m rest ih => cases m <;> simp [eventsOf, ih]

@[simp] theorem eventsOf_map_ev (l : List Event) : eventsOf (l.map .ev) = l := by
  induction l with
  | nil => rfl
  | cons e rest ih => simp [eventsOf, ih]

/-- Reading a trace in two parts. -/
theorem Outside.readAll_append (mode : LatchMode) (x : Outside) (a b : List Event) :
    Outside.readAll mode x (a ++ b) = Outside.readAll mode (Outside.readAll mode x a) b := by
  simp [Outside.readAll]

end Sys2Proof.Machine
end

