-- ==== Sys2Proof/Laws/State.lean ====
section
/-! SUPPORT. What each named update of State leaves and what it writes: one lemma per field, so that no later proof
unfolds a record update. -/

namespace Sys2Proof.Machine

open Sys2Proof

/-! `drive` -/

@[simp] theorem drive_counter (o : Out) (v : Bool) (s : State) : (drive o v s).counter = s.counter := rfl
@[simp] theorem drive_dwell (o : Out) (v : Bool) (s : State) : (drive o v s).dwell = s.dwell := rfl
@[simp] theorem drive_phase (o : Out) (v : Bool) (s : State) : (drive o v s).phase = s.phase := rfl
@[simp] theorem drive_initialised (o : Out) (v : Bool) (s : State) : (drive o v s).initialised = s.initialised := rfl
@[simp] theorem drive_irqEnabled (o : Out) (v : Bool) (s : State) : (drive o v s).irqEnabled = s.irqEnabled := rfl
@[simp] theorem drive_fault (o : Out) (v : Bool) (s : State) : (drive o v s).fault = s.fault := rfl
@[simp] theorem drive_pc (o : Out) (v : Bool) (s : State) : (drive o v s).pc = s.pc := rfl
@[simp] theorem drive_cfg (o : Out) (v : Bool) (s : State) : (drive o v s).cfg = s.cfg := rfl
@[simp] theorem drive_stream (o : Out) (v : Bool) (s : State) : (drive o v s).stream = s.stream := rfl
@[simp] theorem drive_env (o : Out) (v : Bool) (s : State) : (drive o v s).env = s.env := rfl
@[simp] theorem drive_btn (o : Out) (v : Bool) (s : State) : (drive o v s).btn = s.btn := rfl
@[simp] theorem drive_sig (o : Out) (v : Bool) (s : State) : (drive o v s).sig = s.sig.set o v := rfl
@[simp] theorem drive_log (o : Out) (v : Bool) (s : State) : (drive o v s).log = .w o v :: s.log := rfl
@[simp] theorem drive_extB (o : Out) (v : Bool) (s : State) :
    (drive o v s).extB = extWrite s.cfg.latchMode s.sig s.log .bin o v s.extB := rfl
@[simp] theorem drive_extS (o : Out) (v : Bool) (s : State) :
    (drive o v s).extS = extWrite s.cfg.latchMode s.sig s.log .seg o v s.extS := rfl

/-! `recordEvent` -/

@[simp] theorem recordEvent_counter (e : Event) (s : State) : (recordEvent e s).counter = s.counter := by cases e <;> rfl
@[simp] theorem recordEvent_dwell (e : Event) (s : State) : (recordEvent e s).dwell = s.dwell := by cases e <;> rfl
@[simp] theorem recordEvent_phase (e : Event) (s : State) : (recordEvent e s).phase = s.phase := by cases e <;> rfl
@[simp] theorem recordEvent_initialised (e : Event) (s : State) : (recordEvent e s).initialised = s.initialised := by cases e <;> rfl
@[simp] theorem recordEvent_irqEnabled (e : Event) (s : State) : (recordEvent e s).irqEnabled = s.irqEnabled := by cases e <;> rfl
@[simp] theorem recordEvent_fault (e : Event) (s : State) : (recordEvent e s).fault = s.fault := by cases e <;> rfl
@[simp] theorem recordEvent_pc (e : Event) (s : State) : (recordEvent e s).pc = s.pc := by cases e <;> rfl
@[simp] theorem recordEvent_cfg (e : Event) (s : State) : (recordEvent e s).cfg = s.cfg := by cases e <;> rfl
@[simp] theorem recordEvent_stream (e : Event) (s : State) : (recordEvent e s).stream = s.stream := by cases e <;> rfl
@[simp] theorem recordEvent_env (e : Event) (s : State) : (recordEvent e s).env = s.env := by cases e <;> rfl
@[simp] theorem recordEvent_btn (e : Event) (s : State) : (recordEvent e s).btn = s.btn := by cases e <;> rfl
@[simp] theorem recordEvent_log (e : Event) (s : State) : (recordEvent e s).log = e :: s.log := by cases e <;> rfl
theorem recordEvent_w (o : Out) (v : Bool) (s : State) : recordEvent (.w o v) s = drive o v s := rfl

/-! `raiseFault` -/

@[simp] theorem raiseFault_sig (k : FaultKind) (s : State) : (raiseFault k s).sig = s.sig := rfl
@[simp] theorem raiseFault_counter (k : FaultKind) (s : State) : (raiseFault k s).counter = s.counter := rfl
@[simp] theorem raiseFault_dwell (k : FaultKind) (s : State) : (raiseFault k s).dwell = s.dwell := rfl
@[simp] theorem raiseFault_phase (k : FaultKind) (s : State) : (raiseFault k s).phase = s.phase := rfl
@[simp] theorem raiseFault_initialised (k : FaultKind) (s : State) : (raiseFault k s).initialised = s.initialised := rfl
@[simp] theorem raiseFault_irqEnabled (k : FaultKind) (s : State) : (raiseFault k s).irqEnabled = s.irqEnabled := rfl
@[simp] theorem raiseFault_pc (k : FaultKind) (s : State) : (raiseFault k s).pc = s.pc := rfl
@[simp] theorem raiseFault_log (k : FaultKind) (s : State) : (raiseFault k s).log = s.log := rfl
@[simp] theorem raiseFault_cfg (k : FaultKind) (s : State) : (raiseFault k s).cfg = s.cfg := rfl
@[simp] theorem raiseFault_stream (k : FaultKind) (s : State) : (raiseFault k s).stream = s.stream := rfl
@[simp] theorem raiseFault_env (k : FaultKind) (s : State) : (raiseFault k s).env = s.env := rfl
@[simp] theorem raiseFault_btn (k : FaultKind) (s : State) : (raiseFault k s).btn = s.btn := rfl
@[simp] theorem raiseFault_extB (k : FaultKind) (s : State) : (raiseFault k s).extB = s.extB := rfl
@[simp] theorem raiseFault_extS (k : FaultKind) (s : State) : (raiseFault k s).extS = s.extS := rfl
@[simp] theorem raiseFault_fault (k : FaultKind) (s : State) :
    (raiseFault k s).fault = some { kind := k, pc := s.pc } := rfl

/-! `irqStep` -/

@[simp] theorem irqStep_sig (s : State) : (irqStep s).sig = s.sig := by unfold irqStep; split <;> rfl
@[simp] theorem irqStep_counter (s : State) : (irqStep s).counter = s.counter := by unfold irqStep; split <;> rfl
@[simp] theorem irqStep_phase (s : State) : (irqStep s).phase = s.phase := by unfold irqStep; split <;> rfl
@[simp] theorem irqStep_initialised (s : State) : (irqStep s).initialised = s.initialised := by unfold irqStep; split <;> rfl
@[simp] theorem irqStep_irqEnabled (s : State) : (irqStep s).irqEnabled = s.irqEnabled := by unfold irqStep; split <;> rfl
@[simp] theorem irqStep_fault (s : State) : (irqStep s).fault = s.fault := by unfold irqStep; split <;> rfl
@[simp] theorem irqStep_pc (s : State) : (irqStep s).pc = s.pc := by unfold irqStep; split <;> rfl
@[simp] theorem irqStep_cfg (s : State) : (irqStep s).cfg = s.cfg := by unfold irqStep; split <;> rfl
@[simp] theorem irqStep_stream (s : State) : (irqStep s).stream = s.stream := by unfold irqStep; split <;> rfl
@[simp] theorem irqStep_env (s : State) : (irqStep s).env = s.env := by unfold irqStep; split <;> rfl
@[simp] theorem irqStep_btn (s : State) : (irqStep s).btn = s.btn := by unfold irqStep; split <;> rfl
@[simp] theorem irqStep_extB (s : State) : (irqStep s).extB = s.extB := by unfold irqStep; split <;> rfl
@[simp] theorem irqStep_extS (s : State) : (irqStep s).extS = s.extS := by unfold irqStep; split <;> rfl

/-- The interrupt agent's step while the interrupt is enabled (60_exceptions.md R163). -/
theorem irqStep_enabled {s : State} (h : s.irqEnabled = true) :
    irqStep s = { s with dwell := bumpDwell s.cfg.dwellWidth s.dwell, log := .a :: s.log } := by
  simp [irqStep, h]

/-- No step of the interrupt agent before the interrupt is enabled (60_exceptions.md R161). -/
theorem irqStep_disabled {s : State} (h : s.irqEnabled = false) : irqStep s = s := by
  simp [irqStep, h]

/-! `envAct` -/

@[simp] theorem envAct_sig (a : EnvAct) (s : State) : (envAct a s).sig = s.sig := by cases a <;> simp [envAct]
@[simp] theorem envAct_counter (a : EnvAct) (s : State) : (envAct a s).counter = s.counter := by cases a <;> simp [envAct]
@[simp] theorem envAct_phase (a : EnvAct) (s : State) : (envAct a s).phase = s.phase := by cases a <;> simp [envAct]
@[simp] theorem envAct_initialised (a : EnvAct) (s : State) : (envAct a s).initialised = s.initialised := by cases a <;> simp [envAct]
@[simp] theorem envAct_irqEnabled (a : EnvAct) (s : State) : (envAct a s).irqEnabled = s.irqEnabled := by cases a <;> simp [envAct]
@[simp] theorem envAct_fault (a : EnvAct) (s : State) : (envAct a s).fault = s.fault := by cases a <;> simp [envAct]
@[simp] theorem envAct_pc (a : EnvAct) (s : State) : (envAct a s).pc = s.pc := by cases a <;> simp [envAct]
@[simp] theorem envAct_cfg (a : EnvAct) (s : State) : (envAct a s).cfg = s.cfg := by cases a <;> simp [envAct]
@[simp] theorem envAct_stream (a : EnvAct) (s : State) : (envAct a s).stream = s.stream := by cases a <;> simp [envAct]
@[simp] theorem envAct_env (a : EnvAct) (s : State) : (envAct a s).env = s.env := by cases a <;> simp [envAct]
@[simp] theorem envAct_extB (a : EnvAct) (s : State) : (envAct a s).extB = s.extB := by cases a <;> simp [envAct]
@[simp] theorem envAct_extS (a : EnvAct) (s : State) : (envAct a s).extS = s.extS := by cases a <;> simp [envAct]

/-! `trace` -/

theorem trace_of_log {s t : State} (h : t.log = s.log) : t.trace = s.trace := by
  simp [State.trace, h]

theorem trace_of_cons {s t : State} {e : Event} (h : t.log = e :: s.log) : t.trace = s.trace ++ [e] := by
  simp [State.trace, h]

end Sys2Proof.Machine
end

