-- ==== Sys2Proof/Laws/Environment.lean ====
section
/-! SUPPORT. Everything an interleaving point can do (60_exceptions.md R163 to R168). -/

namespace Sys2Proof.Machine

open Sys2Proof

section fields
variable (acts : List EnvAct) (s : State)

@[simp] theorem envActs_sig : (envActs acts s).sig = s.sig := by
  induction acts generalizing s with
  | nil => rfl
  | cons a rest ih => simp [envActs, ih]

@[simp] theorem envActs_counter : (envActs acts s).counter = s.counter := by
  induction acts generalizing s with
  | nil => rfl
  | cons a rest ih => simp [envActs, ih]

@[simp] theorem envActs_phase : (envActs acts s).phase = s.phase := by
  induction acts generalizing s with
  | nil => rfl
  | cons a rest ih => simp [envActs, ih]

@[simp] theorem envActs_initialised : (envActs acts s).initialised = s.initialised := by
  induction acts generalizing s with
  | nil => rfl
  | cons a rest ih => simp [envActs, ih]

@[simp] theorem envActs_irqEnabled : (envActs acts s).irqEnabled = s.irqEnabled := by
  induction acts generalizing s with
  | nil => rfl
  | cons a rest ih => simp [envActs, ih]

@[simp] theorem envActs_fault : (envActs acts s).fault = s.fault := by
  induction acts generalizing s with
  | nil => rfl
  | cons a rest ih => simp [envActs, ih]

@[simp] theorem envActs_pc : (envActs acts s).pc = s.pc := by
  induction acts generalizing s with
  | nil => rfl
  | cons a rest ih => simp [envActs, ih]

@[simp] theorem envActs_cfg : (envActs acts s).cfg = s.cfg := by
  induction acts generalizing s with
  | nil => rfl
  | cons a rest ih => simp [envActs, ih]

@[simp] theorem envActs_stream : (envActs acts s).stream = s.stream := by
  induction acts generalizing s with
  | nil => rfl
  | cons a rest ih => simp [envActs, ih]

@[simp] theorem envActs_env : (envActs acts s).env = s.env := by
  induction acts generalizing s with
  | nil => rfl
  | cons a rest ih => simp [envActs, ih]

@[simp] theorem envActs_extB : (envActs acts s).extB = s.extB := by
  induction acts generalizing s with
  | nil => rfl
  | cons a rest ih => simp [envActs, ih]

@[simp] theorem envActs_extS : (envActs acts s).extS = s.extS := by
  induction acts generalizing s with
  | nil => rfl
  | cons a rest ih => simp [envActs, ih]

end fields

section point
variable (s : State)

@[simp] theorem envPoint_sig : (envPoint s).sig = s.sig := by
  unfold envPoint; split <;> simp

@[simp] theorem envPoint_counter : (envPoint s).counter = s.counter := by
  unfold envPoint; split <;> simp

@[simp] theorem envPoint_phase : (envPoint s).phase = s.phase := by
  unfold envPoint; split <;> simp

@[simp] theorem envPoint_initialised : (envPoint s).initialised = s.initialised := by
  unfold envPoint; split <;> simp

@[simp] theorem envPoint_irqEnabled : (envPoint s).irqEnabled = s.irqEnabled := by
  unfold envPoint; split <;> simp

@[simp] theorem envPoint_fault : (envPoint s).fault = s.fault := by
  unfold envPoint; split <;> simp

@[simp] theorem envPoint_pc : (envPoint s).pc = s.pc := by
  unfold envPoint; split <;> simp

@[simp] theorem envPoint_cfg : (envPoint s).cfg = s.cfg := by
  unfold envPoint; split <;> simp

@[simp] theorem envPoint_stream : (envPoint s).stream = s.stream := by
  unfold envPoint; split <;> simp

@[simp] theorem envPoint_extB : (envPoint s).extB = s.extB := by
  unfold envPoint; split <;> simp

@[simp] theorem envPoint_extS : (envPoint s).extS = s.extS := by
  unfold envPoint; split <;> simp

/-- A point uses up the head of `env`. -/
@[simp] theorem envPoint_env : (envPoint s).env = s.env.drop 1 := by
  unfold envPoint; split <;> simp_all

end point

/-- How many interrupt steps a list of actions holds. -/
theorem irqsIn_cons (acts : List EnvAct) (rest : List (List EnvAct)) :
    irqsIn (acts :: rest) = acts.countP (fun a => a == .irq) + irqsIn rest := by
  simp [irqsIn]

theorem irqsIn_append (a b : List (List EnvAct)) : irqsIn (a ++ b) = irqsIn a + irqsIn b := by
  simp [irqsIn]

theorem bumps_add (w : DwellWidth) (j k d : Nat) : bumps w (j + k) d = bumps w k (bumps w j d) := by
  induction j generalizing d with
  | zero => simp [bumps]
  | succ j ih => simp [Nat.succ_add, bumps, ih]

theorem btnAfter_append (b : Bool) (x y : List EnvAct) : btnAfter b (x ++ y) = btnAfter (btnAfter b x) y := by
  induction x generalizing b with
  | nil => rfl
  | cons a rest ih => cases a <;> simp [btnAfter, ih]

/-- Actions while the interrupt is enabled: one `A` and one addition for each interrupt step, the last BTN level. -/
theorem envActs_enabled (acts : List EnvAct) {s : State} (h : s.irqEnabled = true) :
    (envActs acts s).dwell = bumps s.cfg.dwellWidth (acts.countP fun a => a == .irq) s.dwell ∧
      (envActs acts s).log = List.replicate (acts.countP fun a => a == .irq) .a ++ s.log := by
  induction acts generalizing s with
  | nil => exact ⟨rfl, rfl⟩
  | cons a rest ih =>
    cases a with
    | irq =>
      have := ih (s := envAct .irq s) (by simp [h])
      rw [envActs, this.1, this.2]
      simp [envAct, irqStep_enabled h, bumps, List.replicate_succ']
    | btn level =>
      have := ih (s := envAct (.btn level) s) (by simp [h])
      rw [envActs, this.1, this.2]
      simp [envAct]

/-- Actions while the interrupt is not enabled leave `dwell` and the trace. -/
theorem envActs_disabled (acts : List EnvAct) {s : State} (h : s.irqEnabled = false) :
    (envActs acts s).dwell = s.dwell ∧ (envActs acts s).log = s.log := by
  induction acts generalizing s with
  | nil => exact ⟨rfl, rfl⟩
  | cons a rest ih =>
    have := ih (s := envAct a s) (by simp [h])
    cases a with
    | irq => simpa [envActs, envAct, irqStep_disabled h] using this
    | btn level => simpa [envActs, envAct] using this

theorem envActs_btn (acts : List EnvAct) (s : State) : (envActs acts s).btn = btnAfter s.btn acts := by
  induction acts generalizing s with
  | nil => rfl
  | cons a rest ih => cases a <;> simp [envActs, ih, btnAfter, envAct]

/-- How many interrupt steps the next point of a state takes. -/
def pointIrqs (s : State) : Nat := if s.irqEnabled then irqsIn (s.env.take 1) else 0

/-- The one lemma about an interleaving point: beside `env`, only `dwell`, BTN and the trace change, the trace by
acknowledges alone. -/
theorem envPoint_effect (s : State) :
    (envPoint s).dwell = bumps s.cfg.dwellWidth (pointIrqs s) s.dwell ∧
      (envPoint s).log = List.replicate (pointIrqs s) .a ++ s.log ∧
        (envPoint s).btn = btnAfter s.btn (s.env.take 1).flatten := by
  unfold envPoint pointIrqs
  split
  · next h => simp [h, irqsIn, bumps, btnAfter]
  · next acts rest h =>
    have hi : irqsIn (s.env.take 1) = acts.countP fun a => a == .irq := by simp [h, irqsIn]
    refine ⟨?_, ?_, ?_⟩
    · cases he : s.irqEnabled with
      | true => simpa [hi, he] using (envActs_enabled acts (s := { s with env := rest }) he).1
      | false => simpa [he, bumps] using (envActs_disabled acts (s := { s with env := rest }) he).1
    · cases he : s.irqEnabled with
      | true => simpa [hi, he] using (envActs_enabled acts (s := { s with env := rest }) he).2
      | false => simpa [he] using (envActs_disabled acts (s := { s with env := rest }) he).2
    · simpa [h] using envActs_btn acts { s with env := rest }

/-- With no environment action left, a point does nothing. -/
theorem envPoint_of_nil {s : State} (h : s.env = []) : envPoint s = s := by
  simp [envPoint, h]

end Sys2Proof.Machine
end

