-- ==== Sys2Proof/Laws/Play.lean ====
section
/-! SUPPORT. Playing a command's list: what any list does, and all that a list of events and phase writes does. -/

namespace Sys2Proof.Machine

open Sys2Proof

/-- The state after a list that raises nothing. -/
def after : List Micro → State → State
  | [], s => s
  | .ev e :: rest, s => after rest (recordEvent e (envPoint s))
  | .phase p :: rest, s => after rest { s with phase := p }
  | .irqOn :: rest, s => after rest { s with irqEnabled := true }
  | .initDone :: rest, s => after rest { s with initialised := true }
  | .countUp :: rest, s => after rest { s with counter := s.counter + 1#8 }
  | .raise _ :: rest, s => after rest s

/-- No entry of the list raises a fault. -/
def NoRaise (ms : List Micro) : Prop := ∀ k, Micro.raise k ∉ ms

/-- The list holds events of the main agent and phase writes alone: the lists of every command but INIT, and all of
CYCLE's but its last entry. -/
def Plain (ms : List Micro) : Prop := ∀ m ∈ ms, (∃ e : Event, m = .ev e ∧ e.isAck = false) ∨ ∃ p, m = .phase p

theorem Plain.noRaise {ms : List Micro} (h : Plain ms) : NoRaise ms := by
  intro k hk
  obtain ⟨e, he, -⟩ | ⟨p, hp⟩ := h _ hk
  · cases he
  · cases hp

theorem Plain.append {a b : List Micro} (ha : Plain a) (hb : Plain b) : Plain (a ++ b) := by
  intro m hm
  rcases List.mem_append.1 hm with h | h
  · exact ha m h
  · exact hb m h

theorem Plain.cons_iff {m : Micro} {ms : List Micro} :
    Plain (m :: ms) ↔ ((∃ e : Event, m = .ev e ∧ e.isAck = false) ∨ ∃ p, m = .phase p) ∧ Plain ms := by
  simp [Plain]

@[simp] theorem Plain.nil : Plain [] := by simp [Plain]

@[simp] theorem plain_ev_cons (e : Event) (ms : List Micro) : Plain (.ev e :: ms) ↔ e.isAck = false ∧ Plain ms := by
  simp [Plain.cons_iff]

@[simp] theorem plain_phase_cons (p : Phase) (ms : List Micro) : Plain (.phase p :: ms) ↔ Plain ms := by
  simp [Plain.cons_iff]

/-- A list that raises nothing plays to its end. -/
theorem play_noRaise {ms : List Micro} (h : NoRaise ms) (s : State) : play ms s = .ok (after ms s) := by
  induction ms generalizing s with
  | nil => rfl
  | cons m rest ih =>
    have hr : NoRaise rest := fun k hk => h k (List.mem_cons_of_mem _ hk)
    cases m with
    | raise k => exact absurd List.mem_cons_self (h k)
    | ev | phase | irqOn | initDone | countUp => exact ih hr _

theorem after_append (a b : List Micro) (s : State) : after (a ++ b) s = after b (after a s) := by
  induction a generalizing s with
  | nil => rfl
  | cons m rest ih => cases m <;> exact ih _

/-- Playing two lists one after the other. -/
theorem play_append (a b : List Micro) (s : State) : play (a ++ b) s = (play a s).andThen (play b) := by
  induction a generalizing s with
  | nil => rfl
  | cons m rest ih =>
    cases m with
    | raise k => rfl
    | ev | phase | irqOn | initDone | countUp => exact ih _

/-! What no entry of a list touches. -/

@[simp] theorem after_cfg (ms : List Micro) (s : State) : (after ms s).cfg = s.cfg := by
  induction ms generalizing s with
  | nil => rfl
  | cons m rest ih => cases m <;> simp [after, ih]

@[simp] theorem after_stream (ms : List Micro) (s : State) : (after ms s).stream = s.stream := by
  induction ms generalizing s with
  | nil => rfl
  | cons m rest ih => cases m <;> simp [after, ih]

@[simp] theorem after_fault (ms : List Micro) (s : State) : (after ms s).fault = s.fault := by
  induction ms generalizing s with
  | nil => rfl
  | cons m rest ih => cases m <;> simp [after, ih]

@[simp] theorem after_pc (ms : List Micro) (s : State) : (after ms s).pc = s.pc := by
  induction ms generalizing s with
  | nil => rfl
  | cons m rest ih => cases m <;> simp [after, ih]

/-- A list uses up one interleaving point for each of its events. -/
@[simp] theorem after_env (ms : List Micro) (s : State) : (after ms s).env = s.env.drop (eventsOf ms).length := by
  induction ms generalizing s with
  | nil => simp [after, eventsOf]
  | cons m rest ih => cases m <;> simp [after, ih, eventsOf, Nat.add_comm]

/-- The levels after a list are those its events give. -/
theorem after_sig (ms : List Micro) (s : State) : (after ms s).sig = levelsAfter s.sig (eventsOf ms) := by
  induction ms generalizing s with
  | nil => rfl
  | cons m rest ih =>
    cases m with
    | ev e => cases e <;> simp [after, ih, eventsOf, levelsAfter, recordEvent]
    | phase | irqOn | initDone | countUp | raise => simp [after, ih, eventsOf]

/-- BTN's level after a list. -/
theorem after_btn (ms : List Micro) (s : State) :
    (after ms s).btn = btnAfter s.btn (s.env.take (eventsOf ms).length).flatten := by
  induction ms generalizing s with
  | nil => simp [after, eventsOf, btnAfter]
  | cons m rest ih =>
    cases m with
    | ev e =>
      rw [after, ih]
      simp only [recordEvent_btn, recordEvent_env, (envPoint_effect s).2.2, envPoint_env, eventsOf, List.length_cons]
      rw [← btnAfter_append, ← List.flatten_append, Nat.add_comm, List.take_add]
    | phase | irqOn | initDone | countUp | raise => simp [after, ih, eventsOf]

/-- The phase a list leaves: that of its last phase write. -/
def phaseOf : List Micro → Phase → Phase
  | [], p => p
  | .phase q :: rest, _ => phaseOf rest q
  | .ev _ :: rest, p => phaseOf rest p
  | .irqOn :: rest, p => phaseOf rest p
  | .initDone :: rest, p => phaseOf rest p
  | .countUp :: rest, p => phaseOf rest p
  | .raise _ :: rest, p => phaseOf rest p

theorem after_phase (ms : List Micro) (s : State) : (after ms s).phase = phaseOf ms s.phase := by
  induction ms generalizing s with
  | nil => rfl
  | cons m rest ih => cases m <;> simp [after, ih, phaseOf]

theorem phaseOf_append (a b : List Micro) (p : Phase) : phaseOf (a ++ b) p = phaseOf b (phaseOf a p) := by
  induction a generalizing p with
  | nil => rfl
  | cons m rest ih => cases m <;> simp [phaseOf, ih]

@[simp] theorem phaseOf_map_ev (l : List Event) (p : Phase) : phaseOf (l.map .ev) p = p := by
  induction l with
  | nil => rfl
  | cons e rest ih => simpa [phaseOf] using ih

/-! What a plain list does. -/

theorem after_counter {ms : List Micro} (h : Plain ms) (s : State) : (after ms s).counter = s.counter := by
  induction ms generalizing s with
  | nil => rfl
  | cons m rest ih =>
    cases m with
    | ev | phase => simp only [plain_ev_cons, plain_phase_cons] at h; simp [after, ih, h]
    | irqOn | initDone | countUp | raise => simp [Plain.cons_iff] at h

theorem after_initialised {ms : List Micro} (h : Plain ms) (s : State) :
    (after ms s).initialised = s.initialised := by
  induction ms generalizing s with
  | nil => rfl
  | cons m rest ih =>
    cases m with
    | ev | phase => simp only [plain_ev_cons, plain_phase_cons] at h; simp [after, ih, h]
    | irqOn | initDone | countUp | raise => simp [Plain.cons_iff] at h

theorem after_irqEnabled {ms : List Micro} (h : Plain ms) (s : State) : (after ms s).irqEnabled = s.irqEnabled := by
  induction ms generalizing s with
  | nil => rfl
  | cons m rest ih =>
    cases m with
    | ev | phase => simp only [plain_ev_cons, plain_phase_cons] at h; simp [after, ih, h]
    | irqOn | initDone | countUp | raise => simp [Plain.cons_iff] at h

/-- How many interrupt steps the next n points of a state take. -/
def irqsTaken (n : Nat) (s : State) : Nat := if s.irqEnabled then irqsIn (s.env.take n) else 0

theorem irqsTaken_add (m n : Nat) (s : State) (t : State) (he : t.env = s.env.drop m)
    (hi : t.irqEnabled = s.irqEnabled) : irqsTaken (m + n) s = irqsTaken m s + irqsTaken n t := by
  unfold irqsTaken
  rw [hi, he]
  split
  · rw [List.take_add, irqsIn_append]
  · rfl

/-- What a stretch of the machine's run that only appends events of `main` and interrupt steps does to the trace: the
main agent's new events are `main`, the acknowledges are as many as the interrupt steps taken. -/
structure Appended (main : List Event) (irqs : Nat) (s t : State) : Prop where
  trace : ∃ new, t.trace = s.trace ++ new ∧ mainEvents new = main ∧ ackCount new = irqs ∧
    t.outside = Outside.readAll s.cfg.latchMode s.outside new

theorem Appended.acks {main : List Event} {k : Nat} {s t : State} (h : Appended main k s t) :
    ackCount t.trace = ackCount s.trace + k := by
  obtain ⟨new, ht, -, hk, -⟩ := h.trace
  rw [ht, ← hk]
  simp [ackCount]

theorem Appended.shows {main : List Event} {k : Nat} {s t : State} (h : Appended main k s t) : Shows main s t := by
  obtain ⟨new, ht, hm, -, -⟩ := h.trace
  exact ⟨new, ht, hm⟩

theorem Appended.trans {m₁ m₂ : List Event} {k₁ k₂ : Nat} {s t u : State} (h₁ : Appended m₁ k₁ s t)
    (h₂ : Appended m₂ k₂ t u) (hc : t.cfg = s.cfg) : Appended (m₁ ++ m₂) (k₁ + k₂) s u := by
  obtain ⟨a, ha, hma, hka, hoa⟩ := h₁.trace
  obtain ⟨b, hb, hmb, hkb, hob⟩ := h₂.trace
  refine ⟨a ++ b, ?_, ?_, ?_, ?_⟩
  · rw [hb, ha, List.append_assoc]
  · rw [mainEvents_append, hma, hmb]
  · simp [ackCount, ← hka, ← hkb]
  · rw [hob, hoa, Outside.readAll_append, hc]

theorem readAll_acks (mode : LatchMode) (x : Outside) (n : Nat) :
    Outside.readAll mode x (List.replicate n .a) = { x with seen := List.replicate n .a ++ x.seen } := by
  induction n generalizing x with
  | zero => rfl
  | succ n ih =>
    rw [List.replicate_succ, Outside.readAll, List.foldl_cons]
    have := ih (Outside.read mode x .a)
    rw [Outside.readAll] at this
    rw [this]
    simp [Outside.read, List.replicate_succ', ← List.replicate_succ]

/-- An interleaving point appends acknowledges alone. -/
theorem envPoint_appended (s : State) : Appended [] (irqsTaken 1 s) s (envPoint s) := by
  refine ⟨List.replicate (pointIrqs s) .a, ?_, ?_, ?_, ?_⟩
  · simp [State.trace, (envPoint_effect s).2.1]
  · simp [mainEvents, Event.isAck]
  · simp [ackCount, Event.isAck, List.countP_replicate, pointIrqs, irqsTaken]
  · rw [readAll_acks]
    simp [State.outside, (envPoint_effect s).2.1]

/-- An event of the main agent. -/
theorem recordEvent_appended {e : Event} (h : e.isAck = false) (s : State) :
    Appended [e] 0 s (recordEvent e s) := by
  refine ⟨[e], ?_, ?_, ?_, ?_⟩
  · simp [State.trace]
  · simp [mainEvents, h]
  · simp [ackCount, h]
  · cases e <;> rfl

/-- What a plain list does to the trace, the levels and the external registers. -/
theorem after_appended {ms : List Micro} (h : Plain ms) (s : State) :
    Appended (eventsOf ms) (irqsTaken (eventsOf ms).length s) s (after ms s) := by
  induction ms generalizing s with
  | nil =>
    refine ⟨[], by simp [after], rfl, ?_, rfl⟩
    simp [ackCount, eventsOf, irqsTaken, irqsIn]
  | cons m rest ih =>
    cases m with
    | ev e =>
      rw [plain_ev_cons] at h
      have h1 := envPoint_appended s
      have h2 := h1.trans (recordEvent_appended h.1 (envPoint s)) (by simp)
      have h3 := h2.trans (ih h.2 (recordEvent e (envPoint s))) (by simp)
      have hk := irqsTaken_add 1 (eventsOf rest).length s (recordEvent e (envPoint s)) (by simp) (by simp)
      simp only [eventsOf, List.length_cons]
      rw [Nat.add_comm (eventsOf rest).length 1, hk]
      simpa [after] using h3
    | phase p =>
      rw [plain_phase_cons] at h
      exact ⟨(ih h { s with phase := p }).trace⟩
    | irqOn | initDone | countUp | raise => simp [Plain.cons_iff] at h

/-- `dwell` after a plain list took the interrupt steps at the list's points. -/
theorem after_dwell {ms : List Micro} (h : Plain ms) (s : State) :
    (after ms s).dwell = bumps s.cfg.dwellWidth (irqsTaken (eventsOf ms).length s) s.dwell := by
  induction ms generalizing s with
  | nil => simp [after, eventsOf, irqsTaken, irqsIn, bumps]
  | cons m rest ih =>
    cases m with
    | ev e =>
      rw [plain_ev_cons] at h
      have hk := irqsTaken_add 1 (eventsOf rest).length s (recordEvent e (envPoint s)) (by simp) (by simp)
      rw [after, ih h.2]
      simp only [eventsOf, List.length_cons]
      rw [Nat.add_comm (eventsOf rest).length 1, hk, bumps_add]
      simp [(envPoint_effect s).1, pointIrqs, irqsTaken]
    | phase p =>
      rw [plain_phase_cons] at h
      exact ih h { s with phase := p }
    | irqOn | initDone | countUp | raise => simp [Plain.cons_iff] at h

/-- What a plain list keeps. -/
theorem after_keepsControl {ms : List Micro} (h : Plain ms) (s : State) : KeepsControl s (after ms s) :=
  ⟨after_counter h s, after_initialised h s, after_irqEnabled h s, after_fault ms s, after_cfg ms s, after_stream ms s⟩

/-- What passes at the points of a plain list. -/
theorem after_envPassed {ms : List Micro} (h : Plain ms) (s : State) :
    EnvPassed (eventsOf ms).length s (after ms s) :=
  ⟨after_env ms s, after_dwell h s, (after_appended h s).acks, after_btn ms s⟩

theorem KeepsControl.trans {s t u : State} (h₁ : KeepsControl s t) (h₂ : KeepsControl t u) : KeepsControl s u :=
  ⟨h₂.counter.trans h₁.counter, h₂.initialised.trans h₁.initialised, h₂.irqEnabled.trans h₁.irqEnabled,
    h₂.fault.trans h₁.fault, h₂.cfg.trans h₁.cfg, h₂.stream.trans h₁.stream⟩

/-- What passes in two stretches, the configuration and the interrupt enable staying. -/
theorem EnvPassed.trans_of {m n : Nat} {s t u : State} (h₁ : EnvPassed m s t) (h₂ : EnvPassed n t u)
    (hc : t.cfg = s.cfg) (hi : t.irqEnabled = s.irqEnabled) : EnvPassed (m + n) s u := by
  have h := irqsTaken_add m n s t h₁.env hi
  unfold irqsTaken at h
  refine ⟨?_, ?_, ?_, ?_⟩
  · rw [h₂.env, h₁.env, List.drop_drop]
  · rw [h₂.dwell, h₁.dwell, h, bumps_add, hc]
  · rw [h₂.acks, h₁.acks, h, Nat.add_assoc]
  · rw [h₂.btn, h₁.btn, h₁.env, List.take_add, List.flatten_append, btnAfter_append]

theorem EnvPassed.trans {m n : Nat} {s t u : State} (h₁ : EnvPassed m s t) (h₂ : EnvPassed n t u)
    (hk : KeepsControl s t) : EnvPassed (m + n) s u := h₁.trans_of h₂ hk.cfg hk.irqEnabled

theorem envPoint_keepsControl (s : State) : KeepsControl s (envPoint s) := by
  constructor <;> simp

theorem envPoint_envPassed (s : State) : EnvPassed 1 s (envPoint s) :=
  ⟨envPoint_env s, (envPoint_effect s).1, (envPoint_appended s).acks, (envPoint_effect s).2.2⟩

/-! Completing. -/

@[simp] theorem complete_pc (s : State) : (complete s).pc = s.pc + 1 := by simp [complete]

@[simp] theorem complete_sig (s : State) : (complete s).sig = s.sig := by simp [complete]

@[simp] theorem complete_phase (s : State) : (complete s).phase = s.phase := by simp [complete]

@[simp] theorem complete_extB (s : State) : (complete s).extB = s.extB := by simp [complete]

@[simp] theorem complete_extS (s : State) : (complete s).extS = s.extS := by simp [complete]

theorem complete_keepsControl (s : State) : KeepsControl s (complete s) := by
  constructor <;> simp [complete]

theorem complete_envPassed (s : State) : EnvPassed 1 s (complete s) := by
  have h := envPoint_envPassed s
  exact ⟨h.env, h.dwell, h.acks, h.btn⟩

theorem complete_appended (s : State) : Appended [] (irqsTaken 1 s) s (complete s) :=
  ⟨(envPoint_appended s).trace⟩

/-- THE LEMMA ABOUT A COMMAND MADE OF A PLAIN LIST: initialised, it completes with the state after the list, and this is
all that has happened. -/
theorem requireInit_plain (i : Instr) {ms : List Micro} (h : Plain ms) {s : State} (hi : s.initialised = true) :
    ∃ t, requireInit i (play ms) s = .next t ∧ t.pc = s.pc + 1 ∧ KeepsControl s t ∧
      EnvPassed ((eventsOf ms).length + 1) s t ∧
      Appended (eventsOf ms) (irqsTaken ((eventsOf ms).length + 1) s) s t ∧
      t.sig = levelsAfter s.sig (eventsOf ms) ∧ t = complete (after ms s) := by
  have hk := after_keepsControl h s
  refine ⟨complete (after ms s), ?_, by simp, hk.trans (complete_keepsControl _),
    (after_envPassed h s).trans (complete_envPassed _) hk, ?_, by simp [after_sig], rfl⟩
  · simp [requireInit, hi, play_noRaise h.noRaise, Progress.finish]
  · have ha := (after_appended h s).trans (complete_appended (after ms s)) (by simp)
    rw [irqsTaken_add _ 1 s (after ms s) (by simp) hk.irqEnabled]
    simpa using ha

/-- Every command but INIT before INIT: NotInitialised, nothing else (60_exceptions.md R155, R158). -/
theorem requireInit_uninitialised (i : Instr) (f : State → Progress) {s : State} (hi : s.initialised = false) :
    requireInit i f s = .next (raiseFault (.notInitialised (encode i)) s) := by
  simp [requireInit, hi]

end Sys2Proof.Machine
end

