-- ==== Sys2Proof/Laws/Commands.lean ====
section
/-! SUPPORT. The commands' lists: that they raise nothing, and the events they hold. -/

namespace Sys2Proof.Machine

open Sys2Proof

/-- The hundreds code, as the thresholds of 30_encoding.md R70 give it. -/
theorem decompose_h1 (number : Byte) : (decompose number).h1 = decide (200 ≤ number.toNat) := rfl

theorem decompose_h2 (number : Byte) : (decompose number).h2 = decide (100 ≤ number.toNat) := by
  have := number.isLt
  simp only [decompose]
  rcases Nat.lt_or_ge number.toNat 200 with h | h
  · have h' : ¬ 200 ≤ number.toNat := by omega
    simp [h']
  · have h1 : 100 ≤ number.toNat - 100 := by omega
    have h2 : 100 ≤ number.toNat := by omega
    simp [h, h1, h2]

/-- The remainder is the number modulo 100 (30_encoding.md R70). -/
theorem decompose_rest (number : Byte) : (decompose number).rest = number.toNat % 100 := by
  have hn := number.isLt
  have h2 := decompose_h2 number
  simp only [decompose] at h2 ⊢
  rw [h2]
  simp only [decide_eq_true_eq]
  split
  · split <;> omega
  · split <;> omega

/-- The digit of a place is the one the corner table of 42_segment_encoder.md R109 gives. -/
theorem digitFor_eq_digitShown (number : Byte) (place : Place) : digitFor number place = digitShown number place := by
  cases place with
  | ones =>
    rw [digitFor, digitOf, decompose_rest, digitShown, Nat.mod_mod_of_dvd _ (by decide)]
  | tens => rw [digitFor, digitOf, decompose_rest, digitShown]

theorem digitShown_le (number : Byte) (place : Place) : digitShown number place ≤ 9 := by
  cases place <;> simp only [digitShown] <;> omega

/-- The table holds every digit up to 9 (30_encoding.md R68). -/
theorem segTable_isSome (o : SegOpen) {d : Nat} (h : d ≤ 9) : ∃ e, segTable o d = some e := by
  interval_cases d <;> exact ⟨_, rfl⟩

theorem frameMicros_eq (r : Reg) (v : Byte) : frameMicros r v = (frameTrace r v).map .ev := by
  have hr : List.range shiftClocks = [0, 1, 2, 3, 4, 5, 6, 7, 8] := rfl
  simp [frameMicros, frameTrace, hr, slotMicros, slotBit]

theorem frameTrace_length (r : Reg) (v : Byte) : (frameTrace r v).length = 29 := rfl

/-- A list of events of the main agent is plain. -/
theorem plain_map_ev {l : List Event} (h : ∀ e ∈ l, e.isAck = false) : Plain (l.map .ev) := by
  intro m hm
  obtain ⟨e, he, rfl⟩ := List.mem_map.1 hm
  exact .inl ⟨e, rfl, h e he⟩

theorem frameTrace_no_ack (r : Reg) (v : Byte) : ∀ e ∈ frameTrace r v, e.isAck = false := by
  have h : (frameTrace r v).all (fun e => !e.isAck) = true := rfl
  intro e he
  simpa using List.all_eq_true.1 h e he

theorem plain_frame (r : Reg) (v : Byte) : Plain (frameMicros r v) := by
  rw [frameMicros_eq]
  exact plain_map_ev (frameTrace_no_ack r v)

theorem eventsOf_frame (r : Reg) (v : Byte) : eventsOf (frameMicros r v) = frameTrace r v := by
  rw [frameMicros_eq, eventsOf_map_ev]

/-- The segment half of `display_int` never raises DigitRange (42_segment_encoder.md R108). -/
theorem patternMicros_digit (p : Params) (number : Byte) (place : Place) :
    patternMicros p (digitFor number place) = frameMicros .seg (sentPattern p number place) := by
  obtain ⟨e, he⟩ := segTable_isSome p.seg (digitShown_le number place)
  rw [digitFor_eq_digitShown, patternMicros, sentPattern, he]
  rfl

theorem displayMicros_eq (p : Params) (number : Byte) (place : Place) :
    displayMicros p number place = (displayTrace p number place).map .ev := by
  rw [displayMicros, patternMicros_digit, frameMicros_eq, indicatorMicros, decompose_h1, decompose_h2, displayTrace]
  simp only [decide_eq_true_eq, List.map_append]
  split <;> split <;> rfl

theorem displayTrace_no_ack (p : Params) (number : Byte) (place : Place) :
    ∀ e ∈ displayTrace p number place, e.isAck = false := by
  intro e he
  simp only [displayTrace, List.mem_append] at he
  rcases he with ((he | he) | he) | he
  · simp at he; rcases he with rfl | rfl <;> rfl
  · split at he <;> simp at he; subst he; rfl
  · split at he <;> simp at he; subst he; rfl
  · exact frameTrace_no_ack _ _ e he

theorem plain_display (p : Params) (number : Byte) (place : Place) : Plain (displayMicros p number place) := by
  rw [displayMicros_eq]
  exact plain_map_ev (displayTrace_no_ack p number place)

theorem eventsOf_display (p : Params) (number : Byte) (place : Place) :
    eventsOf (displayMicros p number place) = displayTrace p number place := by
  rw [displayMicros_eq, eventsOf_map_ev]

theorem plain_halfPass (p : Params) (number : Byte) (b m : Out) (ph : Phase) (place : Place) :
    Plain (halfPassMicros p number b m ph place) := by
  unfold halfPassMicros
  refine Plain.append (Plain.append ?_ (plain_display p number place)) ?_ <;>
    simp [flashMicros, Event.isAck]

theorem plain_pass (p : Params) (number : Byte) : Plain (passMicros p number) :=
  Plain.append (plain_halfPass _ _ _ _ _ _) (plain_halfPass _ _ _ _ _ _)

theorem eventsOf_pass (p : Params) (number : Byte) : eventsOf (passMicros p number) = passTrace p number := by
  simp [passMicros, halfPassMicros, eventsOf_append, eventsOf_display, eventsOf, flashMicros, flashUnits, passTrace]

theorem plain_passes (p : Params) (number : Byte) (n : Nat) : Plain (passesMicros p number n) := by
  induction n with
  | zero => exact Plain.nil
  | succ n ih => exact Plain.append (plain_pass p number) ih

theorem eventsOf_passes (p : Params) (number : Byte) (n : Nat) :
    eventsOf (passesMicros p number n) = (List.replicate n (passTrace p number)).flatten := by
  induction n with
  | zero => rfl
  | succ n ih => simp [passesMicros, eventsOf_append, eventsOf_pass, ih, List.replicate_succ]

theorem plain_binShow (number : Byte) : Plain (binShowMicros number) :=
  Plain.append (plain_frame _ _) (by simp [Event.isAck])

theorem eventsOf_binShow (number : Byte) : eventsOf (binShowMicros number) = binLoadTrace number := by
  simp [binShowMicros, eventsOf_append, eventsOf_frame, binLoadTrace, eventsOf]

theorem plain_release (p : Params) : Plain (releaseMicros p) := by
  unfold releaseMicros
  split <;> simp [Event.isAck]

theorem plain_shown (p : Params) (number : Byte) (n : Nat) :
    Plain (passesMicros p number n ++ releaseMicros p) := Plain.append (plain_passes _ _ _) (plain_release p)

theorem eventsOf_shown (p : Params) (number : Byte) (n : Nat) :
    eventsOf (passesMicros p number n ++ releaseMicros p) = shownTrace p number n := by
  rw [eventsOf_append, eventsOf_passes, shownTrace, releaseMicros]
  split <;> rfl

/-- A pass leaves the phase of its tens half (43_display_multiplexer.md R119). -/
theorem phaseOf_pass (p : Params) (number : Byte) (ph : Phase) : phaseOf (passMicros p number) ph = .tensActive := by
  simp [passMicros, halfPassMicros, displayMicros_eq, phaseOf_append, phaseOf, flashMicros]

theorem phaseOf_passes (p : Params) (number : Byte) (n : Nat) (ph : Phase) :
    phaseOf (passesMicros p number n) ph = if n = 0 then ph else .tensActive := by
  induction n generalizing ph with
  | zero => rfl
  | succ n ih => simp [passesMicros, phaseOf_append, phaseOf_pass, ih]

theorem phaseOf_shown (p : Params) (number : Byte) (n : Nat) (ph : Phase) :
    phaseOf (passesMicros p number n ++ releaseMicros p) ph = if n = 0 then ph else .tensActive := by
  rw [phaseOf_append, phaseOf_passes, releaseMicros]
  split <;> split <;> rfl

theorem phaseOf_binShow (number : Byte) (ph : Phase) : phaseOf (binShowMicros number) ph = ph := by
  simp [binShowMicros, phaseOf_append, frameMicros_eq, phaseOf]

/-- THE LEMMA ABOUT A DWELL CYCLE: it never raises a fault; the binary load, the sample point, the passes the sample
gives. -/
theorem dwellCycle_eq (number : Byte) (s : State) :
    dwellCycle number s =
      .ok (after
        (passesMicros s.cfg number (envPoint (after (binShowMicros number) s)).dwell ++ releaseMicros s.cfg)
        (envPoint (after (binShowMicros number) s))) := by
  rw [dwellCycle, play_noRaise (Plain.noRaise (plain_binShow number)), Progress.andThen, dwellTail]
  simp only [envPoint_cfg, after_cfg]
  rw [play_noRaise (Plain.noRaise (plain_shown _ _ _))]

/-- CYCLE's body never raises a fault: the text, the dwell cycle, the count. -/
theorem cycleBody_eq (s : State) :
    ∃ t, dwellCycle s.counter (recordEvent (.e (fmt3 s.counter)) (envPoint s)) = .ok t ∧
      cycleBody s = .ok { t with counter := t.counter + 1#8 } := by
  refine ⟨_, dwellCycle_eq _ _, ?_⟩
  simp only [cycleBody, play, Progress.andThen, dwellCycle_eq]

end Sys2Proof.Machine
end

