-- ==== Sys2Proof/Laws/Decode.lean ====
section
/-! SUPPORT. The fields of a word put together from fields. -/

namespace Sys2Proof

/-- The high part of a concatenation. -/
theorem extract_high {m n : Nat} (a : BitVec m) (b : BitVec n) : (a ++ b).extractLsb' n m = a := by
  ext i hi
  simp [BitVec.getLsbD_append, BitVec.getLsbD_eq_getElem hi]

/-- The low part of a concatenation. -/
theorem extract_low {m n : Nat} (a : BitVec m) (b : BitVec n) : (a ++ b).extractLsb' 0 n = b := by
  ext i hi
  simp [BitVec.getLsbD_append, hi]

/-- The words of IMM12 format decode to DELAY with their immediate (30_encoding.md R78). -/
theorem decode_imm12 (n : BitVec 12) : decode (0x9#4 ++ n) = .ok (.delay n) := by
  have h1 := extract_high 0x9#4 n
  have h2 := extract_low 0x9#4 n
  simp only [decode, h1, h2]
  rfl

end Sys2Proof
end

