-- ==== Sys2Proof/Laws/Exec.lean ====
section
/-! SUPPORT. What a command can do, said once: it records a fault and nothing else, or it completes, and then its trace,
its levels and every other field are these. The step lemmas at the end cite it. -/

namespace Sys2Proof.Machine

open Sys2Proof

/-- The trace grew by events whose main part is `main`; the levels, the external registers and `dwell` are what the new
events make of the old ones. -/
def Grew (main : List Event) (s t : State) : Prop :=
  ∃ new, t.trace = s.trace ++ new ∧ mainEvents new = main ∧
    t.outside = Outside.readAll s.cfg.latchMode s.outside new ∧
    t.dwell = bumps s.cfg.dwellWidth (ackCount new) s.dwell

theorem Grew.refl (s : State) : Grew [] s s := ⟨[], by simp, rfl, rfl, rfl⟩

theorem Grew.trans {a b : List Event} {s t u : State} (h₁ : Grew a s t) (h₂ : Grew b t u) (hc : t.cfg = s.cfg) :
    Grew (a ++ b) s u := by
  obtain ⟨x, hx, hmx, hox, hdx⟩ := h₁
  obtain ⟨y, hy, hmy, hoy, hdy⟩ := h₂
  refine ⟨x ++ y, ?_, ?_, ?_, ?_⟩
  · rw [hy, hx, List.append_assoc]
  · rw [mainEvents_append, hmx, hmy]
  · rw [hoy, hox, Outside.readAll_append, hc]
  · rw [hdy, hdx, hc, ← bumps_add]
    simp [ackCount]

/-- A change of the fields the trace says nothing about. -/
theorem Grew.of_same {s t : State} (hl : t.log = s.log) (ho : t.outside = s.outside) (hd : t.dwell = s.dwell) :
    Grew [] s t := ⟨[], by simp [trace_of_log hl], rfl, ho, hd⟩

theorem Grew.of_appended {main : List Event} {k : Nat} {s t : State} (h : Appended main k s t)
    (hd : t.dwell = bumps s.cfg.dwellWidth k s.dwell) : Grew main s t := by
  obtain ⟨new, ht, hm, hk, ho⟩ := h.trace
  exact ⟨new, ht, hm, ho, by rw [hd, hk]⟩

theorem envPoint_grew (s : State) : Grew [] s (envPoint s) :=
  .of_appended (envPoint_appended s) (envPoint_effect s).1

theorem complete_grew (s : State) : Grew [] s (complete s) := envPoint_grew s

theorem recordEvent_grew {e : Event} (h : e.isAck = false) (s : State) : Grew [e] s (recordEvent e s) :=
  .of_appended (recordEvent_appended h s) (by simp [bumps])

/-- Any list of the main agent's entries grows the trace by its events. -/
theorem after_grew {ms : List Micro} (h : ∀ e ∈ eventsOf ms, e.isAck = false) (s : State) :
    Grew (eventsOf ms) s (after ms s) := by
  induction ms generalizing s with
  | nil => exact Grew.refl s
  | cons m rest ih =>
    cases m with
    | ev e =>
      have h1 := (envPoint_grew s).trans (recordEvent_grew (h e (by simp [eventsOf])) (envPoint s)) (by simp)
      exact h1.trans (ih (fun x hx => h x (by simp [eventsOf, hx])) _) (by simp)
    | phase p => exact (Grew.of_same rfl rfl rfl).trans (ih h { s with phase := p }) rfl
    | irqOn => exact (Grew.of_same rfl rfl rfl).trans (ih h { s with irqEnabled := true }) rfl
    | initDone => exact (Grew.of_same rfl rfl rfl).trans (ih h { s with initialised := true }) rfl
    | countUp => exact (Grew.of_same rfl rfl rfl).trans (ih h { s with counter := s.counter + 1#8 }) rfl
    | raise k => exact ih h s

theorem Plain.no_ack {ms : List Micro} (h : Plain ms) : ∀ e ∈ eventsOf ms, e.isAck = false := by
  induction ms with
  | nil => simp [eventsOf]
  | cons m rest ih =>
    cases m with
    | ev e =>
      rw [plain_ev_cons] at h
      intro x hx
      rcases List.mem_cons.1 hx with rfl | hx
      · exact h.1
      · exact ih h.2 x hx
    | phase p => rw [plain_phase_cons] at h; exact ih h
    | irqOn | initDone | countUp | raise => simp [Plain.cons_iff] at h

/-- The events of INIT (45_primitives.md R142 to R144). -/
def initTrace (p : Params) : List Event :=
  allOutputs.map (fun o => .cfg (.out o) .out) ++ [.cfg .btn .inp]
    ++ allOutputs.map (fun o => .w o (initLevel p o)) ++ [.ien p.btnEdge]

theorem eventsOf_init (p : Params) : eventsOf (initMicros p) = initTrace p := rfl

/-- The events of the main agent in a command that completes, from the state it begins in. -/
def commandTrace (i : Instr) (s : State) : List Event :=
  match i with
  | .init => initTrace s.cfg
  | .shiftout r value => frameTrace r value
  | .dispint number place => displayTrace s.cfg number place
  | .muxpass number => passTrace s.cfg number
  | .dwell number => binLoadTrace number ++ shownTrace s.cfg number (dwellAt 31 s)
  | .cycle =>
    .e (fmt3 s.counter) :: (binLoadTrace s.counter ++ shownTrace s.cfg s.counter (dwellAt 32 s))
  | .pinset sig => (outOfField sig).toList.map fun o => .w o true
  | .pinclr sig => (outOfField sig).toList.map fun o => .w o false
  | .delay n => [.d n.toNat]

/-- How many interleaving points a command that completes uses up: one for each event, the sample's own, its end
(60_exceptions.md R165). -/
def commandPoints (i : Instr) (s : State) : Nat :=
  match i with
  | .dwell _ => (commandTrace i s).length + 2
  | .cycle => (commandTrace i s).length + 2
  | .init | .shiftout _ _ | .dispint _ _ | .muxpass _ | .pinset _ | .pinclr _ | .delay _ =>
    (commandTrace i s).length + 1

/-- The phase a command that completes leaves (43_display_multiplexer.md R119). -/
def commandPhase (i : Instr) (s : State) : Phase :=
  match i with
  | .muxpass _ => .tensActive
  | .dwell _ => if dwellAt 31 s = 0 then s.phase else .tensActive
  | .cycle => if dwellAt 32 s = 0 then s.phase else .tensActive
  | .init | .shiftout _ _ | .dispint _ _ | .pinset _ | .pinclr _ | .delay _ => s.phase

/-- A command has completed. -/
structure Completed (i : Instr) (s t : State) : Prop where
  phase : t.phase = commandPhase i s
  env : t.env = s.env.drop (commandPoints i s)
  btn : t.btn = btnAfter s.btn (s.env.take (commandPoints i s)).flatten
  passed : i ≠ .init → EnvPassed (commandPoints i s) s t
  wellFormed : i.WellFormed
  grew : Grew (commandTrace i s) s t
  sig : t.sig = levelsAfter s.sig (commandTrace i s)
  counter : t.counter = if i = .cycle then s.counter + 1#8 else s.counter
  initialised : t.initialised = true
  irqEnabled : t.irqEnabled = if i = .init then true else s.irqEnabled
  began : s.initialised = if i = .init then false else true
  fault : t.fault = s.fault
  pc : t.pc = s.pc + 1
  cfg : t.cfg = s.cfg
  stream : t.stream = s.stream

/-- Why a command has recorded a fault, and that nothing else has happened. -/
structure Faulted (i : Instr) (s t : State) : Prop where
  raised : ∃ k, t = raiseFault k s ∧
    ((k = .illegalCommand (encode i) ∧ ¬i.WellFormed) ∨
      (k = .notInitialised (encode i) ∧ i ≠ .init ∧ i.WellFormed ∧ s.initialised = false) ∨
      (k = .reInit ∧ i = .init ∧ s.initialised = true) ∨
      (∃ p, k = .configError p.1 p.2 ∧ i = .init ∧ s.initialised = false ∧ firstClash s.cfg.pinMap = some p))

theorem outOfField_some {sig : BitVec 4} (h : sigLegal sig = true) : ∃ o, outOfField sig = some o := by
  have : ∀ f : BitVec 4, sigLegal f = true → (outOfField f).isSome = true := by decide
  exact Option.isSome_iff_exists.1 (this sig h)

theorem outOfField_none {sig : BitVec 4} (h : sigLegal sig = false) : outOfField sig = none := by
  have : ∀ f : BitVec 4, sigLegal f = false → (outOfField f).isSome = false := by decide
  simpa using this sig h

theorem requireInit_completes (i : Instr) {ms : List Micro} (h : Plain ms) {s : State} (hi : s.initialised = true)
    (hw : i.WellFormed) (hn : i ≠ .init) (hc : i ≠ .cycle) (he : eventsOf ms = commandTrace i s)
    (hp : commandPoints i s = (commandTrace i s).length + 1) (hph : phaseOf ms s.phase = commandPhase i s) :
    ∃ t, requireInit i (play ms) s = .next t ∧ Completed i s t := by
  refine ⟨complete (after ms s), by simp [requireInit, hi, play_noRaise h.noRaise, Progress.finish], ?_⟩
  have hk := (after_keepsControl h s).trans (complete_keepsControl _)
  have hE := (after_envPassed h s).trans (complete_envPassed _) (after_keepsControl h s)
  rw [he, ← hp] at hE
  refine ⟨by simp [after_phase, hph], hE.env, hE.btn, fun _ => hE, hw, ?_, by simp [after_sig, he],
    by simp [hc, hk.counter], by simp [hk.initialised, hi],
    by simp [hn, hk.irqEnabled], by simp [hn, hi], hk.fault, by simp, hk.cfg, hk.stream⟩
  simpa [he] using (after_grew h.no_ack s).trans (complete_grew _) (by simp)

/-- The state a dwell cycle ends in. -/
theorem dwellCycle_completes (number : Byte) (s : State) :
    ∃ t, dwellCycle number s = .ok t ∧ KeepsControl s t ∧ t.pc = s.pc ∧
      t.phase = (if dwellAt 31 s = 0 then s.phase else .tensActive) ∧
      EnvPassed ((binLoadTrace number ++ shownTrace s.cfg number (dwellAt 31 s)).length + 1) s t ∧
      Grew (binLoadTrace number ++ shownTrace s.cfg number (dwellAt 31 s)) s t ∧
      t.sig = levelsAfter s.sig (binLoadTrace number ++ shownTrace s.cfg number (dwellAt 31 s)) := by
  have hb := plain_binShow number
  have hd : (envPoint (after (binShowMicros number) s)).dwell = dwellAt 31 s := by
    have h1 := after_envPassed hb s
    have h2 := h1.trans (envPoint_envPassed _) (after_keepsControl hb s)
    rw [eventsOf_binShow] at h2
    exact h2.dwell
  refine ⟨_, dwellCycle_eq number s, ?_, by simp, ?_, ?_, ?_, ?_⟩
  · exact ((after_keepsControl hb s).trans (envPoint_keepsControl _)).trans
      (after_keepsControl (plain_shown _ _ _) _)
  · rw [hd, after_phase, phaseOf_shown, envPoint_phase, after_phase, phaseOf_binShow]
  · rw [hd]
    have hk := (after_keepsControl hb s).trans (envPoint_keepsControl _)
    have h1 := (after_envPassed hb s).trans (envPoint_envPassed _) (after_keepsControl hb s)
    have h2 := h1.trans (after_envPassed (plain_shown s.cfg number (dwellAt 31 s)) _) hk
    rw [eventsOf_binShow, eventsOf_shown] at h2
    have hlen : (binLoadTrace number ++ shownTrace s.cfg number (dwellAt 31 s)).length + 1 =
        (binLoadTrace number).length + 1 + (shownTrace s.cfg number (dwellAt 31 s)).length := by
      rw [List.length_append]; omega
    rw [hlen]
    exact h2
  · rw [hd]
    have h1 := (after_grew hb.no_ack s).trans (envPoint_grew _) (by simp)
    have h2 := h1.trans (after_grew (plain_shown s.cfg number (dwellAt 31 s)).no_ack _) (by simp)
    simpa [eventsOf_binShow, eventsOf_shown] using h2
  · rw [hd, after_sig, envPoint_sig, after_sig, ← levelsAfter_append, eventsOf_binShow, eventsOf_shown]

/-- THE INVERSION LEMMA OF EXEC: a command always answers a next state; it has recorded a fault, or it has completed. -/
theorem exec_cases (i : Instr) (s : State) : ∃ t, exec i s = .next t ∧ (Faulted i s t ∨ Completed i s t) := by
  have uninit : ∀ (f : State → Progress), i ≠ .init → i.WellFormed → s.initialised = false →
      ∃ t, requireInit i f s = .next t ∧ (Faulted i s t ∨ Completed i s t) := fun f hn hw hi =>
    ⟨_, requireInit_uninitialised i f hi, .inl ⟨_, rfl, .inr (.inl ⟨rfl, hn, hw, hi⟩)⟩⟩
  have plainCase : ∀ (ms : List Micro), Plain ms → i.WellFormed → i ≠ .init → i ≠ .cycle →
      eventsOf ms = commandTrace i s → commandPoints i s = (commandTrace i s).length + 1 →
      phaseOf ms s.phase = commandPhase i s →
      ∃ t, requireInit i (play ms) s = .next t ∧ (Faulted i s t ∨ Completed i s t) := by
    intro ms h hw hn hc he hp hph
    cases hi : s.initialised with
    | false => exact uninit _ hn hw hi
    | true =>
      obtain ⟨t, ht, h⟩ := requireInit_completes i h hi hw hn hc he hp hph
      exact ⟨t, ht, .inr h⟩
  have pinCase : ∀ (sig : BitVec 4) (v : Bool), i.wellFormed = sigLegal sig → i ≠ .init → i ≠ .cycle →
      commandTrace i s = (outOfField sig).toList.map (fun o => .w o v) →
      commandPoints i s = (commandTrace i s).length + 1 → commandPhase i s = s.phase →
      ∃ t, pinWrite i sig v s = .next t ∧ (Faulted i s t ∨ Completed i s t) := by
    intro sig v hw hn hc he hp hph
    cases hl : sigLegal sig with
    | false =>
      refine ⟨_, by rw [pinWrite, outOfField_none hl], .inl ⟨_, rfl, .inl ⟨rfl, ?_⟩⟩⟩
      simp [Instr.WellFormed, hw, hl]
    | true =>
      obtain ⟨o, ho⟩ := outOfField_some hl
      rw [pinWrite, ho]
      exact plainCase [.ev (.w o v)] (by simp [Event.isAck]) (hw.trans hl) hn hc (by simp [he, ho, eventsOf]) hp hph.symm
  cases i with
  | init =>
    cases hi : s.initialised with
    | true => exact ⟨raiseFault .reInit s, by simp [exec, execInit, hi], .inl ⟨_, rfl, .inr (.inr (.inl ⟨rfl, rfl, hi⟩))⟩⟩
    | false =>
      cases hc : firstClash s.cfg.pinMap with
      | some p =>
        exact ⟨raiseFault (.configError p.1 p.2) s, by simp [exec, execInit, hi, hc],
          .inl ⟨_, rfl, .inr (.inr (.inr ⟨p, rfl, rfl, hi, hc⟩))⟩⟩
      | none =>
        have hr : NoRaise (initMicros s.cfg) := by simp [NoRaise, initMicros, allOutputs]
        have ha : ∀ e ∈ eventsOf (initMicros s.cfg), e.isAck = false := by
          have h : (eventsOf (initMicros s.cfg)).all (fun e => !e.isAck) = true := rfl
          intro e he
          simpa using List.all_eq_true.1 h e he
        refine ⟨complete (after (initMicros s.cfg) s),
          by simp [exec, execInit, hi, hc, play_noRaise hr, Progress.finish], .inr ?_⟩
        have hk := complete_keepsControl (after (initMicros s.cfg) s)
        have hafter : ∀ (l : List Event) (t : State),
            (after (l.map .ev) t).counter = t.counter ∧ (after (l.map .ev) t).irqEnabled = t.irqEnabled ∧
              (after (l.map .ev) t).initialised = t.initialised := by
          intro l
          induction l with
          | nil => exact fun t => ⟨rfl, rfl, rfl⟩
          | cons e rest ih => intro t; simpa [after] using ih (recordEvent e (envPoint t))
        have hm : initMicros s.cfg = (initTrace s.cfg).map .ev ++ [.irqOn, .initDone] := rfl
        have hA := hafter (initTrace s.cfg) s
        have hB := complete_envPassed (after (initMicros s.cfg) s)
        refine ⟨by rw [complete_phase, after_phase]; rfl, ?_, ?_, by simp, rfl, ?_,
          by simp [after_sig, eventsOf_init, commandTrace], ?_, ?_, ?_, by simp [hi], hk.fault.trans (by simp),
          by simp, hk.cfg.trans (by simp), hk.stream.trans (by simp)⟩
        · rw [hB.env, after_env, List.drop_drop]; rfl
        · rw [hB.btn, after_btn, after_env, ← btnAfter_append, ← List.flatten_append, ← List.take_add]; rfl
        · simpa [eventsOf_init, commandTrace] using (after_grew ha s).trans (complete_grew _) (by simp)
        · rw [hk.counter, hm, after_append]; simp [after, hA.1]
        · rw [hk.initialised, hm, after_append]; simp [after]
        · rw [hk.irqEnabled, hm, after_append]; simp [after]
  | shiftout r value =>
    exact plainCase _ (plain_frame r value) rfl (by simp) (by simp) (eventsOf_frame r value) rfl
      (by simp [frameMicros_eq, commandPhase])
  | dispint number place =>
    exact plainCase _ (plain_display s.cfg number place) rfl (by simp) (by simp) (eventsOf_display ..) rfl
      (by simp [displayMicros_eq, commandPhase])
  | muxpass number =>
    exact plainCase _ (plain_pass s.cfg number) rfl (by simp) (by simp) (eventsOf_pass ..) rfl (phaseOf_pass ..)
  | dwell number =>
    cases hi : s.initialised with
    | false => exact uninit _ (by simp) rfl hi
    | true =>
      obtain ⟨u, hu, hk, hp, hph, hE, hg, hs⟩ := dwellCycle_completes number s
      have hE' := hE.trans (complete_envPassed u) hk
      have hk' := hk.trans (complete_keepsControl u)
      refine ⟨complete u, by simp [exec, execDwell, requireInit, hi, hu, Progress.finish], .inr ?_⟩
      refine ⟨(complete_phase u).trans hph, hE'.env, hE'.btn, fun _ => hE', rfl, ?_, by simp [hs, commandTrace],
        by simp [hk'.counter], by simp [hk'.initialised, hi],
        by simp [hk'.irqEnabled], by simp [hi], hk'.fault, by simp [hp], hk'.cfg, hk'.stream⟩
      simpa [commandTrace] using hg.trans (complete_grew u) hk.cfg
  | cycle =>
    cases hi : s.initialised with
    | false => exact uninit _ (by simp) rfl hi
    | true =>
      let s1 := recordEvent (.e (fmt3 s.counter)) (envPoint s)
      have hc1 : s1.cfg = s.cfg := by simp [s1]
      have hk1 : KeepsControl s s1 := by constructor <;> simp [s1]
      have he1 : EnvPassed 1 s s1 := by
        have := envPoint_envPassed s
        exact ⟨by simp [s1], by simpa [s1] using this.dwell,
          by rw [← this.acks]; simp [s1, State.trace, ackCount, Event.isAck], by simpa [s1] using this.btn⟩
      obtain ⟨u, hu, hk, hp, hph, hE, hg, hs⟩ := dwellCycle_completes s.counter s1
      have hd : dwellAt 31 s1 = dwellAt 32 s := by
        have h := irqsTaken_add 1 31 s s1 he1.env hk1.irqEnabled
        unfold irqsTaken at h
        unfold dwellAt
        rw [hc1, he1.dwell, ← bumps_add, ← h]
      rw [hd, hc1] at hg hs hE
      rw [hd] at hph
      have hb : cycleBody s = .ok { u with counter := u.counter + 1#8 } := by
        simp only [cycleBody, play, Progress.andThen]
        rw [show recordEvent (.e (fmt3 s.counter)) (envPoint s) = s1 from rfl, hu]
      let u' : State := { u with counter := u.counter + 1#8 }
      have hk' := complete_keepsControl u'
      refine ⟨complete u', by simp [exec, execCycle, requireInit, hi, hb, Progress.finish, u'], .inr ?_⟩
      have hEu : EnvPassed ((binLoadTrace s.counter ++ shownTrace s.cfg s.counter (dwellAt 32 s)).length + 1) s1 u' :=
        ⟨hE.env, hE.dwell, hE.acks, hE.btn⟩
      have hE2 := (he1.trans hEu hk1).trans_of (complete_envPassed u') (hk.cfg.trans hk1.cfg)
        (hk.irqEnabled.trans hk1.irqEnabled)
      have hpts : commandPoints .cycle s =
          1 + ((binLoadTrace s.counter ++ shownTrace s.cfg s.counter (dwellAt 32 s)).length + 1) + 1 := by
        simp only [commandPoints, commandTrace, List.length_cons]; omega
      rw [← hpts] at hE2
      refine ⟨?_, hE2.env, hE2.btn, fun _ => hE2, rfl, ?_, ?_, ?_, ?_, ?_, by simp [hi], ?_, ?_, ?_, ?_⟩
      · rw [complete_phase, show u'.phase = u.phase from rfl, hph]; simp [s1, commandPhase]
      · have h1 := (envPoint_grew s).trans (recordEvent_grew (e := .e (fmt3 s.counter)) rfl (envPoint s)) (by simp)
        have h2 := h1.trans hg hc1
        have h3 := h2.trans (Grew.of_same (t := u') rfl rfl rfl) (hk.cfg.trans hc1)
        simpa [commandTrace] using h3.trans (complete_grew u') (hk.cfg.trans hc1)
      · rw [complete_sig, show u'.sig = u.sig from rfl, hs, commandTrace]
        simp [s1, recordEvent, levelsAfter]
      · rw [hk'.counter, show u'.counter = u.counter + 1#8 from rfl, hk.counter, hk1.counter]; simp
      · rw [hk'.initialised, show u'.initialised = u.initialised from rfl, hk.initialised, hk1.initialised, hi]
      · rw [hk'.irqEnabled, show u'.irqEnabled = u.irqEnabled from rfl, hk.irqEnabled, hk1.irqEnabled]; simp
      · rw [hk'.fault, show u'.fault = u.fault from rfl, hk.fault, hk1.fault]
      · rw [complete_pc, show u'.pc = u.pc from rfl, hp]; simp [s1]
      · rw [hk'.cfg, show u'.cfg = u.cfg from rfl, hk.cfg, hc1]
      · rw [hk'.stream, show u'.stream = u.stream from rfl, hk.stream, hk1.stream]
  | pinset sig => exact pinCase sig true rfl (by simp) (by simp) rfl rfl rfl
  | pinclr sig => exact pinCase sig false rfl (by simp) (by simp) rfl rfl rfl
  | delay n => exact plainCase [.ev (.d n.toNat)] (by simp [Event.isAck]) rfl (by simp) (by simp) rfl rfl rfl

/-- `exec_cases` for a next state in hand. -/
theorem exec_inversion {i : Instr} {s t : State} (h : exec i s = .next t) : Faulted i s t ∨ Completed i s t := by
  obtain ⟨u, hu, hc⟩ := exec_cases i s
  rw [hu] at h
  cases h
  exact hc

/-- THE INVERSION LEMMA OF STEP: a next state comes of an illegal word's fault, of a command's fault, or of a completed
command. -/
theorem step_inversion {s t : State} (h : step s = .next t) :
    s.fault = none ∧ s.pc < s.stream.length ∧
      ((∃ k, t = raiseFault k s) ∨ (∃ i, Completed i s t)) := by
  unfold step at h
  split at h
  · cases h
  · next hf =>
    refine ⟨hf, ?_⟩
    split at h
    · cases h
    · next w hw =>
      refine ⟨(List.getElem?_eq_some_iff.1 hw).1, ?_⟩
      split at h
      · cases h; exact .inl ⟨_, rfl⟩
      · next i hi =>
        rcases exec_inversion h with ⟨k, hk, -⟩ | hc
        · exact .inl ⟨k, hk⟩
        · exact .inr ⟨i, hc⟩

end Sys2Proof.Machine
end

