-- ==== Sys2Proof/Laws/PerInstr.lean ====
section
/-! SUPPORT. A statement made of every command: its word has the match of its row under the row's mask (30_encoding.md
R80). -/

namespace Sys2Proof.Laws.TableRow

open Sys2Proof

/-- The mask of the command's row (30_encoding.md R80). -/
def mask : Instr → Word
  | .init => 0xFFFF#16
  | .shiftout _ _ => 0xFE00#16
  | .dispint _ _ => 0xFE00#16
  | .muxpass _ => 0xFF00#16
  | .dwell _ => 0xFF00#16
  | .cycle => 0xFFFF#16
  | .pinset _ => 0xFFF0#16
  | .pinclr _ => 0xFFF0#16
  | .delay _ => 0xF000#16

/-- The match of the command's row (30_encoding.md R80). -/
def wanted : Instr → Word
  | .init => 0x1000#16
  | .shiftout _ _ => 0x2000#16
  | .dispint _ _ => 0x3000#16
  | .muxpass _ => 0x4000#16
  | .dwell _ => 0x5000#16
  | .cycle => 0x6000#16
  | .pinset _ => 0x7000#16
  | .pinclr _ => 0x8000#16
  | .delay _ => 0x9000#16

/-- The command's word selects the command's row. -/
def Statement (i : Instr) : Prop := encode i &&& mask i = wanted i

theorem init : Statement .init := by unfold Statement; decide

theorem shiftout (reg : Reg) (value : Byte) : Statement (.shiftout reg value) := by
  cases reg <;> revert value <;> unfold Statement <;> decide

theorem dispint (number : Byte) (place : Place) : Statement (.dispint number place) := by
  cases place <;> revert number <;> unfold Statement <;> decide

theorem muxpass (number : Byte) : Statement (.muxpass number) := by
  revert number; unfold Statement; decide

theorem dwell (number : Byte) : Statement (.dwell number) := by
  revert number; unfold Statement; decide

theorem cycle : Statement .cycle := by unfold Statement; decide

theorem pinset (sig : BitVec 4) : Statement (.pinset sig) := by
  revert sig; unfold Statement; decide

theorem pinclr (sig : BitVec 4) : Statement (.pinclr sig) := by
  revert sig; unfold Statement; decide

theorem delay (n : BitVec 12) : Statement (.delay n) := by
  unfold Statement encode mask wanted
  apply BitVec.eq_of_getLsbD_eq
  intro i hi
  interval_cases i <;> simp only [BitVec.getLsbD_and, BitVec.getLsbD_append] <;> simp

end Sys2Proof.Laws.TableRow
end

