-- ==== Sys2Proof/Laws/Throughout.lean ====
section
/-! SUPPORT. Properties at every point of a trace: by parts of the trace, and on the main agent's events alone. -/

namespace Sys2Proof.Machine

open Sys2Proof

theorem mainEvents_prefix {a b : List Event} (h : a <+: b) : mainEvents a <+: mainEvents b := h.filter _

/-- The interrupt agent's events change no level, so a property of the main agent's points holds at every point. -/
theorem Throughout.of_mainEvents {P : Levels → Prop} {l : Levels} {trace : List Event}
    (h : Throughout P l (mainEvents trace)) : Throughout P l trace := by
  intro before hb
  rw [← levelsAfter_mainEvents]
  exact h _ (mainEvents_prefix hb)

@[simp] theorem throughout_nil {P : Levels → Prop} {l : Levels} : Throughout P l [] ↔ P l := by
  simp [Throughout]

theorem throughout_cons {P : Levels → Prop} {l : Levels} {e : Event} {rest : List Event} :
    Throughout P l (e :: rest) ↔ P l ∧ Throughout P (levelsAfter l [e]) rest := by
  constructor
  · intro h
    refine ⟨h [] List.nil_prefix, fun before hb => ?_⟩
    rw [← levelsAfter_append]
    exact h (e :: before) (List.cons_prefix_cons.2 ⟨rfl, hb⟩)
  · rintro ⟨h1, h2⟩ before hb
    cases before with
    | nil => exact h1
    | cons x before =>
      obtain ⟨rfl, hb'⟩ := List.cons_prefix_cons.1 hb
      have h := h2 before hb'
      rwa [← levelsAfter_append] at h

theorem throughout_append {P : Levels → Prop} {l : Levels} {a b : List Event} :
    Throughout P l (a ++ b) ↔ Throughout P l a ∧ Throughout P (levelsAfter l a) b := by
  induction a generalizing l with
  | nil =>
    simp only [List.nil_append, throughout_nil, levelsAfter_nil]
    exact ⟨fun h => ⟨h [] List.nil_prefix, h⟩, fun h => h.2⟩
  | cons e rest ih => simp [throughout_cons, ih, and_assoc, ← levelsAfter_append]

/-- A part of a trace that never writes the outputs a property reads keeps it. -/
theorem Throughout.of_not_written {P : Levels → Prop} {l : Levels} {trace : List Event} (os : List Out)
    (hP : ∀ m : Levels, (∀ o ∈ os, m.get o = l.get o) → P m)
    (h : ∀ o v, Event.w o v ∈ trace → o ∉ os) : Throughout P l trace := by
  intro before hb
  refine hP _ fun o ho => levelsAfter_get_of_not_written _ _ _ fun p v hm heq => ?_
  exact h p v (hb.subset hm) (heq ▸ ho)

/-- The levels of a reading of a trace by the reference model. -/
theorem Outside.readAll_sig (mode : LatchMode) (x : Outside) (l : List Event) :
    (Outside.readAll mode x l).sig = levelsAfter x.sig l := by
  induction l generalizing x with
  | nil => rfl
  | cons e rest ih => cases e <;> simpa [Outside.readAll, Outside.read, levelsAfter] using ih _

end Sys2Proof.Machine
end

