-- ==== Sys2Proof/Tests/Slice0.lean ====
section
/-! SUPPORT. Small tests, their expected results taken from spec/ (mostly 95_test_vectors.md), and for every statement
with hypotheses a state that meets them. -/

namespace Sys2Proof.Tests

open Sys2Proof Sys2Proof.Machine

/-! ## Helpers -/

/-- The levels of S_init (95_test_vectors.md section 0): 0 0 1 1 0 0 1 1 0 0 0 0. -/
def idleLevels : Levels :=
  { serB := some false, clkB := some false, clrB := some true, oeB := some true, serS := some false,
    clkS := some false, clrS := some true, oeS := some true, anOnes := some false, anTens := some false,
    h1 := some false, h2 := some false }

/-- S_init of 95_test_vectors.md with chosen LATCH_MODE, `dwell` and environment, its trace left out. -/
def ready (mode : LatchMode) (d : Nat) (env : List (List EnvAct)) : State :=
  { State.reset with
    sig := idleLevels, initialised := true, irqEnabled := true, pc := 1, dwell := d, env := env,
    cfg := { paramsAtPowerOn with latchMode := mode } }

/-- What a test reads of an outcome, if it is a next state. -/
def reads {α : Type} (f : State → α) : Host.Outcome State Fault Refusal → Option α
  | .next t => some (f t)
  | .fault _ => none
  | .refused _ => none

/-- The command found in a result of decoding. -/
def found : Except Illegal Instr → Option Instr
  | .ok i => some i
  | .error _ => none

/-- The reason found in a result of decoding. -/
def reason : Except Illegal Instr → Option Illegal
  | .ok _ => none
  | .error e => some e

/-- The events of a frame to SEG with the given bits for slots 0 to 8 (95_test_vectors.md P3). -/
def segFrame (bits : List Bool) : List Event :=
  [.w .clrS false, .w .clrS true] ++ bits.flatMap fun b => [.w .serS b, .w .clkS true, .w .clkS false]

/-! ## Well-formedness: an ill-formed term for each check (30_encoding.md R81) -/

theorem test_pinset_of_btn_is_ill_formed : (Instr.pinset 12#4).wellFormed = false := by decide
theorem test_pinclr_of_unassigned_id_is_ill_formed : (Instr.pinclr 15#4).wellFormed = false := by decide
theorem test_pinset_of_h2_is_well_formed : (Instr.pinset 11#4).WellFormed := by decide

/-! ## Decoding: words written out from 30_encoding.md R74 to R80 -/

-- op 0001, NONE
theorem test_decode_init : found (decode 0b0001000000000000#16) = some .init := by decide
-- op 0010, SEL8 with r = 1 and value 1000 1000 (R98: 0x2188)
theorem test_decode_shiftout_seg : found (decode 0b0010000110001000#16) = some (.shiftout .seg 0x88#8) := by decide
-- op 0010, SEL8 with r = 0 (V2: 0x2080)
theorem test_decode_shiftout_bin : found (decode 0b0010000010000000#16) = some (.shiftout .bin 0x80#8) := by decide
-- op 0011, SEL8 with p = 1 and number 1110 1101 (R111: 0x31ED)
theorem test_decode_dispint_tens : found (decode 0b0011000111101101#16) = some (.dispint 237#8 .tens) := by decide
-- op 0011 with p = 0 (V22: 0x30AA)
theorem test_decode_dispint_ones : found (decode 0b0011000010101010#16) = some (.dispint 170#8 .ones) := by decide
-- op 0100, IMM8 (R123: 0x40ED)
theorem test_decode_muxpass : found (decode 0b0100000011101101#16) = some (.muxpass 237#8) := by decide
-- op 0101, IMM8 (V34: 0x50ED)
theorem test_decode_dwell : found (decode 0b0101000011101101#16) = some (.dwell 237#8) := by decide
-- op 0110, NONE
theorem test_decode_cycle : found (decode 0b0110000000000000#16) = some .cycle := by decide
-- op 0111, SIG (V48: PINSET H1 is 0x700A)
theorem test_decode_pinset : found (decode 0b0111000000001010#16) = some (.pinset 10#4) := by decide
-- op 1000, SIG (R147: PINCLR OE_S is 0x8007)
theorem test_decode_pinclr : found (decode 0b1000000000000111#16) = some (.pinclr 7#4) := by decide
-- op 1001, IMM12 (V48: DELAY 4095 is 0x9FFF)
theorem test_decode_delay : found (decode 0b1001111111111111#16) = some (.delay 4095#12) := by decide
-- V6, V25, V33, V45, V47, V49, V49a
theorem test_decode_refuses_reserved_bits :
    [0x2288#16, 0x220F#16, 0x2E00#16, 0x3200#16, 0x4100#16, 0x6001#16, 0x1001#16, 0x7010#16, 0x8010#16].map
      (fun w => reason (decode w)) = List.replicate 9 (some .reservedBit) := by decide
theorem test_decode_refuses_reserved_ops :
    [0x0000#16, 0xA000#16, 0xB123#16, 0xF000#16].map (fun w => reason (decode w)) =
      List.replicate 4 (some .reservedOp) := by decide
theorem test_decode_refuses_inputs :
    [0x700C#16, 0x700F#16, 0x800C#16].map (fun w => reason (decode w)) =
      List.replicate 3 (some .notAnOutput) := by decide
theorem test_table_word_decodes : decodeTableWord 16 0x9001 = some (.delay 1#12) := by decide
theorem test_table_word_out_of_range : decodeTableWord 16 0x19001 = none := by decide

/-! ## INIT -/

-- V46: the end state is S_init
theorem test_init_levels : reads State.sig (exec .init State.reset) = some idleLevels := by decide
theorem test_init_events : reads (fun t => t.log.length) (exec .init State.reset) = some 26 := by decide
-- V47: PIN_MAP[SER_B] = PIN_MAP[OE_S]
theorem test_init_config_error :
    reads State.fault (exec .init
      { State.reset with cfg := { paramsAtPowerOn with pinMap := { pinMapAtPowerOn with serB := 7 } } }) =
      some (some ⟨.configError (.out .serB) (.out .oeS), 0⟩) := by decide
-- V47: INIT; INIT
theorem test_init_twice : reads State.fault (exec .init (ready .lagged 100 [])) = some (some ⟨.reInit, 1⟩) := by decide

/-! ## SHIFTOUT -/

-- V4: the whole trace of SHIFTOUT SEG, 0x88
theorem test_shiftout_trace :
    reads State.trace (exec (.shiftout .seg 0x88#8) (ready .lagged 100 [])) =
      some (segFrame [false, false, false, true, false, false, false, true, false]) := by decide
-- V2: LAGGED out 0x80, sr 0x00 for 0x01, and DIRECT out = sr = 0x6E for 0xED
theorem test_shiftout_lagged :
    reads State.extB (exec (.shiftout .bin 0x01#8) (ready .lagged 100 [])) = some ⟨0x00#8, 0x80#8⟩ := by decide
theorem test_shiftout_direct :
    reads (fun t => extOut .direct t.extB) (exec (.shiftout .bin 0xED#8) (ready .direct 100 [])) =
      some 0x6E#8 := by decide
-- V6: 0x2188 alone from power-on
theorem test_shiftout_before_init :
    reads State.fault (step (State.reset.withFetchWord 16 0x2188)) =
      some (some ⟨.notInitialised 0x2188#16, 0⟩) := by decide

/-! ## DISPINT -/

-- V23, R111: DISPINT 237, 1 clears and sets both indicators, then sends 0xC4
theorem test_dispint_237_tens :
    reads State.trace (exec (.dispint 237#8 .tens) (ready .lagged 100 [])) =
      some ([.w .h1 false, .w .h2 false, .w .h1 true, .w .h2 true]
        ++ segFrame [false, false, true, false, false, false, true, true, false]) := by decide
-- V22: DISPINT 107, 0 leaves H1 H2 = 0 1 and LAGGED out_S = 0x37
theorem test_dispint_107_ones :
    reads (fun t => (t.sig.h1, t.sig.h2, extOut .lagged t.extS)) (exec (.dispint 107#8 .ones) (ready .lagged 100 [])) =
      some (some false, some true, 0x37#8) := by decide

/-! ## MUXPASS -/

-- P3: the whole trace of MUXPASS 73
theorem test_muxpass_73 :
    reads State.trace (exec (.muxpass 73#8) (ready .lagged 100 [])) =
      some ([.w .anTens false, .w .anOnes true, .w .h1 false, .w .h2 false]
        ++ segFrame [false, false, true, false, false, false, true, true, false]
        ++ [.w .oeS false, .d 1, .w .oeS true]
        ++ [.w .anOnes false, .w .anTens true, .w .h1 false, .w .h2 false]
        ++ segFrame [false, false, true, true, false, true, true, true, false]
        ++ [.w .oeS false, .d 1, .w .oeS true]) := by decide
-- V32: ANODE_ON = 0 leaves AN_ONES = 1 and AN_TENS = 0
theorem test_muxpass_anode_low :
    reads (fun t => (t.sig.anOnes, t.sig.anTens, t.phase))
      (exec (.muxpass 237#8) { ready .lagged 100 [] with cfg := { paramsAtPowerOn with anodeOn := false } }) =
      some (some true, some false, .tensActive) := by decide

/-! ## DWELL -/

-- V35: with dwell = 0, the BIN frame, W(OE_B,0), W(OE_B,1)
theorem test_dwell_zero :
    reads (fun t => (t.log.length, t.sig.oeB, t.sig.anTens)) (exec (.dwell 5#8) (ready .lagged 0 [])) =
      some (31, some true, some false) := by decide
-- V51 in small (R125, R196): 8-bit dwell 156, one interrupt step at the sample point makes it 0, so no pass runs
theorem test_dwell_interrupt_before_sample :
    reads (fun t => (t.log.length, t.dwell))
      (exec (.dwell 0#8) { ready .lagged 156 (List.replicate 30 [] ++ [[.irq]]) with
        cfg := { paramsAtPowerOn with dwellWidth := .w8 } }) = some (32, 0) := by decide

/-! ## CYCLE -/

-- V41, V42: counter 255 emits "255 \r" and wraps to 0; with dwell = 0 there are 32 events
theorem test_cycle_wraps :
    reads (fun t => (t.counter, t.log.length, t.trace.head?)) (exec .cycle { ready .lagged 0 [] with counter := 255#8 }) =
      some (0#8, 32, some (.e [0x32#8, 0x35#8, 0x35#8, 0x20#8, 0x0D#8])) := by decide
-- V52 in small (R125): an interrupt step after the sample leaves this cycle's pass count (none)
theorem test_cycle_interrupt_after_sample :
    reads (fun t => (t.log.length, t.dwell)) (exec .cycle (ready .lagged 0 (List.replicate 32 [] ++ [[.irq]]))) =
      some (33, 100) := by decide
-- E10, V43
theorem test_fmt3_5 : fmt3 5#8 = [0x20#8, 0x20#8, 0x35#8, 0x20#8, 0x0D#8] := by decide
theorem test_fmt3_42 : fmt3 42#8 = [0x20#8, 0x34#8, 0x32#8, 0x20#8, 0x0D#8] := by decide

/-! ## PINSET, PINCLR, DELAY -/

-- V48: PINCLR CLR_B, PINSET SER_B, DELAY 0
theorem test_pinclr_clrB :
    reads (fun t => (t.trace, t.sig.clrB)) (exec (.pinclr 2#4) (ready .lagged 100 [])) =
      some ([.w .clrB false], some false) := by decide
theorem test_pinset_serB :
    reads (fun t => (t.trace, t.sig.serB)) (exec (.pinset 0#4) (ready .lagged 100 [])) =
      some ([.w .serB true], some true) := by decide
theorem test_delay_zero : reads State.trace (exec (.delay 0#12) (ready .lagged 100 [])) = some [.d 0] := by decide
-- V49: PINSET BTN; V47: 0x0000 from power-on is illegal, not "not initialised"
theorem test_pinset_btn_faults :
    reads State.fault (exec (.pinset 12#4) (ready .lagged 100 [])) = some (some ⟨.illegalCommand 0x700C#16, 1⟩) := by
  decide
theorem test_illegal_comes_first :
    reads State.fault (step (State.reset.withFetchWord 16 0x0000)) = some (some ⟨.illegalCommand 0#16, 0⟩) := by decide
theorem test_pinset_before_init :
    reads State.fault (step (State.reset.withFetchWord 16 0x7007)) = some (some ⟨.notInitialised 0x7007#16, 0⟩) := by
  decide

-- 60_exceptions.md R155: the cause codes
theorem test_fault_codes :
    [.illegalCommand 0xA000#16, .notInitialised 0x6000#16, .reInit, .configError .btn .btn, .digitRange 10].map
      faultCode = [1, 2, 3, 4, 5] := by decide
-- 70_reset_and_hazards.md R200: a pass waits 2 delay units, 2 ms at DELAY_UNIT = 1 ms
theorem test_pass_waits_2_ms :
    reads (fun t => waitedUs t.cfg t.trace) (exec (.muxpass 0#8) (ready .lagged 100 [])) = some 2000 := by decide
-- 30_encoding.md R68: no entry for digit 10, which raises DigitRange after nothing else
theorem test_digit_10_raises :
    patternMicros paramsAtPowerOn 10 = [.raise (.digitRange 10)] := by decide

/-! ## Interrupts -/

-- V50: one interrupt step from S_init; V54: none while the interrupt is not enabled
theorem test_irq_step : (fun t => (t.trace, t.dwell)) (irqStep (ready .lagged 100 [])) = ([.a], 200) := by decide
theorem test_irq_disabled : (irqStep State.reset).dwell = 100 := by decide
-- V53: DWELL_WIDTH = 8 after 2 and 6 steps
theorem test_dwell_wraps_at_8_bits : bumps .w8 2 100 = 44 ∧ bumps .w8 6 100 = 188 := by decide

/-! ## The external reference model -/

-- R176: with identity wiring, BIN output 7 (value bit 0) lights LED 7 while OE_B = 0, and not while it is 1
theorem test_binary_led :
    let s := { ready .lagged 100 [] with
      extB := ⟨0x00#8, 0x80#8⟩
      cfg := { paramsAtPowerOn with latchMode := .lagged, binWiring := #v[0, 1, 2, 3, 4, 5, 6, 7] } }
    binaryLit s 7 = false ∧ binaryLit { s with sig := { s.sig with oeB := some false } } 7 = true := by decide
-- R176: a segment is lit where the output is 0, on the asserted digit alone
theorem test_segment :
    let s := { ready .lagged 100 [] with
      extS := ⟨0x00#8, 0x11#8⟩
      sig := { idleLevels with oeS := some false, anOnes := some true }
      cfg := { paramsAtPowerOn with latchMode := .lagged, segWiring := #v[0, 1, 2, 3, 4, 5, 6, 7] } }
    segmentLit s .ones 1 = true ∧ segmentLit s .ones 0 = false ∧ segmentLit s .tens 1 = false := by decide

/-! ## The assembler's text -/

-- P1: the words of its three lines
theorem test_assemble_P1 :
    assemble true ["INIT                 ;; 0x1000".toList, "SHIFTOUT BIN, 237    ;; 0x20ED".toList, "BINON".toList] =
      some [0x1000#16, 0x20ED#16, 0x8003#16] := by decide
-- R87: SELONES and FLASH; R86: DISPINT and a hex immediate; R88: a label has no meaning
theorem test_assemble_pseudo :
    assemble true ["SELONES".toList, "FLASH".toList, "DISPINT 0xED, 1".toList, "PINCLR OE_S".toList] =
      some [0x8009#16, 0x7008#16, 0x8007#16, 0x9001#16, 0x7007#16, 0x31ED#16, 0x8007#16] := by decide
theorem test_assemble_label : assemble true ["loop:".toList] = none := by decide

/-! ## Hypotheses: for each statement a state and operands that meet them all -/

/-- The state after reset with one word placed as the next command. -/
def placed (w : Nat) : State := State.reset.withFetchWord 16 w

theorem witness_CommandWordsDecodeToTheirCommand :
    (Instr.pinset 11#4).WellFormed ∧ (Instr.pinclr 0#4).WellFormed ∧ (Instr.delay 4095#12).WellFormed := by decide

theorem witness_DecodedWordIsTheCommandsOwnWord : decode 0x700B#16 = .ok (.pinset 11#4) := rfl

theorem witness_StepExecutesTheFetchedCommand :
    (placed 0x1000).fault = none ∧ (placed 0x1000).stream[(placed 0x1000).pc]? = some 0x1000#16 ∧
      decode 0x1000#16 = .ok .init := ⟨rfl, rfl, rfl⟩

theorem witness_StepOnAnIllegalWordRecordsTheFault :
    (placed 0xA000).fault = none ∧ (placed 0xA000).stream[(placed 0xA000).pc]? = some 0xA000#16 ∧
      decode 0xA000#16 = .error .reservedOp ∧ decode 0x700C#16 = .error .notAnOutput ∧
      decode 0x1001#16 = .error .reservedBit := ⟨rfl, rfl, rfl, rfl, rfl⟩

theorem witness_StepStopsOnlyAtAFaultOrTheEnd :
    (raiseFault .reInit State.reset).fault = some ⟨.reInit, 0⟩ ∧
      (State.reset.fault = none ∧ State.reset.stream.length ≤ State.reset.pc) ∧
      ((placed 0x1000).fault = none ∧ (placed 0x1000).pc < (placed 0x1000).stream.length) := by decide

theorem witness_StepAdvancesByOneOrRecordsAFault :
    (∃ t, step (placed 0x1000) = .next t ∧ t.fault = none ∧ t.pc = 1) ∧
      (∃ t, step (placed 0x0000) = .next t ∧ t.fault = some ⟨.illegalCommand 0#16, 0⟩) :=
  ⟨⟨_, rfl, by decide, by decide⟩, ⟨_, rfl, by decide⟩⟩

theorem witness_PlacedWordRunsNext : decodeTableWord 16 0x9FFF = some (.delay 4095#12) := by decide

theorem witness_CommandBeforeInitIsNotInitialised :
    (Instr.pinset 11#4).WellFormed ∧ Instr.pinset 11#4 ≠ .init ∧ State.reset.initialised = false := by decide

theorem witness_PinCommandOfNoOutputIsIllegal : 12 ≤ (12#4).toNat ∧ 12 ≤ (15#4).toNat := by decide

theorem witness_SecondInitIsReInit : (ready .lagged 100 []).initialised = true := by decide

/-- Power-on with every signal on pin 0: the least clash is (SER_B, CLK_B). -/
def allOnOnePin : State :=
  { State.reset with cfg := { paramsAtPowerOn with pinMap := ⟨0, 0, 0, 0, 0, 0, 0, 0, 0, 0, 0, 0, 0⟩ } }

theorem witness_InitReportsTheLeastPinClash :
    allOnOnePin.initialised = false ∧ 0 < 1 ∧ allSignals[0]? = some (.out .serB) ∧
      allSignals[1]? = some (.out .clkB) ∧
      pinOf allOnOnePin.cfg.pinMap (.out .serB) = pinOf allOnOnePin.cfg.pinMap (.out .clkB) ∧
      (∀ (i' j' : Nat) (x' y' : Signal), i' < j' → allSignals[i']? = some x' → allSignals[j']? = some y' →
        pinOf allOnOnePin.cfg.pinMap x' = pinOf allOnOnePin.cfg.pinMap y' → 0 < i' ∨ (0 = i' ∧ 1 ≤ j')) :=
  ⟨rfl, by decide, rfl, rfl, rfl, fun i' j' _ _ h _ _ _ => by omega⟩

theorem witness_FaultsArePreciseAndNamed :
    ((ready .lagged 100 []).fault = none ∧
      ∃ t, exec (.pinset 12#4) (ready .lagged 100 []) = .next t ∧ t.fault ≠ none) ∧
    (State.reset.fault = none ∧ ∃ t, exec .cycle State.reset = .next t ∧ t.fault ≠ none) ∧
    (∃ t, exec .init (ready .lagged 100 []) = .next t ∧ t.fault ≠ none) ∧
    (allOnOnePin.fault = none ∧ ∃ t, exec .init allOnOnePin = .next t ∧ t.fault ≠ none) :=
  ⟨⟨rfl, _, rfl, by decide⟩, ⟨rfl, _, rfl, by decide⟩, ⟨_, rfl, by decide⟩, ⟨rfl, _, rfl, by decide⟩⟩

theorem witness_InitConfiguresDrivesAndEnables :
    State.reset.initialised = false ∧ State.reset.irqEnabled = false ∧
      (∀ x y : Signal, pinOf State.reset.cfg.pinMap x = pinOf State.reset.cfg.pinMap y → x = y) := by
  refine ⟨rfl, rfl, fun x y => ?_⟩
  cases x with
  | btn => cases y with
    | btn => exact fun _ => rfl
    | out p => cases p <;> decide
  | out o => cases y with
    | btn => cases o <;> decide
    | out p => cases o <;> cases p <;> decide

/-- The state the completion statements' one hypothesis asks for: ShiftoutShowsItsFrame, ShiftoutFrame,
DispintShowsIndicatorsThenPattern, DispintFrame, MuxpassShowsBothDigits, MuxpassFrame, DwellShowsTheSampledPasses,
CycleShowsTheCounterAndCountsUp, DelayShowsOneWait, DisplayCommandsEventCounts; and what DispintFrame and MuxpassFrame ask
for the SEG register. -/
theorem witness_initialised :
    (ready .lagged 100 []).initialised = true ∧ (ready .lagged 100 []).sig.clkS = some false := ⟨rfl, rfl⟩

theorem witness_ShiftoutWritesItsOwnLinesAlone :
    Reg.seg ≠ Reg.bin ∧
      ∃ t new, exec (.shiftout .bin 0xFF#8) (ready .lagged 100 []) = .next t ∧
        t.trace = (ready .lagged 100 []).trace ++ new := ⟨by decide, _, _, rfl, rfl⟩

theorem witness_ShiftoutPulsesTheClockNineTimes :
    (ready .lagged 100 []).initialised = true ∧
      ∃ t new, exec (.shiftout .bin 0xFF#8) (ready .lagged 100 []) = .next t ∧
        t.trace = (ready .lagged 100 []).trace ++ new := ⟨rfl, _, _, rfl, rfl⟩

theorem witness_ShiftoutOverwritesTheRegister :
    (ready .direct 100 []).initialised = true ∧ (ready .direct 100 []).sig.get (clkOf .bin) = some false ∧
      (ready .direct 100 []).sig.get (clkOf .seg) = some false := ⟨rfl, rfl, rfl⟩

theorem witness_HandBuiltPassEqualsMuxpass :
    (ready .lagged 100 []).initialised = true ∧ (ready .lagged 100 []).fault = none ∧
      (ready .lagged 100 []).env = [] := ⟨rfl, rfl, rfl⟩

/-- DwellFrame and CycleFrame, each clause: at least one pass, no pass, the clock lines at their idle level. -/
theorem witness_DwellFrame_and_CycleFrame :
    (ready .lagged 1 []).initialised = true ∧ 1 ≤ dwellAt 31 (ready .lagged 1 []) ∧
      1 ≤ dwellAt 32 (ready .lagged 1 []) ∧ dwellAt 31 (ready .lagged 0 []) = 0 ∧
      dwellAt 32 (ready .lagged 0 []) = 0 ∧ (ready .lagged 0 []).sig.clkB = some false ∧
      (ready .lagged 1 []).sig.clkS = some false := by decide

theorem witness_CyclesCountModulo256 :
    (ready .lagged 100 []).initialised = true ∧ (ready .lagged 100 []).fault = none := ⟨rfl, rfl⟩

theorem witness_PinCommandsDriveOneOutput :
    (0#4).toNat ≤ 11 ∧ (11#4).toNat ≤ 11 ∧ (ready .lagged 100 []).initialised = true := by decide

/-- The clauses of PinCommandsDriveOneOutput on the clock lines, ids 1 and 5: an edge from 0 with the clear line at 1; no
edge from 1, from not driven, with the clear line at 0. -/
theorem witness_PinCommandsDriveOneOutput_edges :
    allOutputs[(1#4).toNat]? = some (clkOf .bin) ∧ allOutputs[(5#4).toNat]? = some (clkOf .seg) ∧
      (ready .lagged 100 []).sig.get (clkOf .bin) = some false ∧
      (ready .lagged 100 []).sig.get (clrOf .bin) = some true ∧
      (idleLevels.set .clkB true).get (clkOf .bin) ≠ some false ∧
      Levels.undriven.get (clkOf .bin) ≠ some false ∧
      (idleLevels.set .clrB false).get (clrOf .bin) ≠ some true := by decide

theorem witness_InterruptStepsAddToDwellAlone :
    (ready .lagged 100 [[.irq, .irq]]).env = List.replicate 2 .irq :: [] ∧
      (ready .lagged 100 [[]]).env = List.replicate 0 .irq :: [] ∧
      (ready .lagged 100 [[.irq, .irq]]).irqEnabled = true ∧
      ({ State.reset with env := [[.irq]] } : State).env = List.replicate 1 .irq :: [] ∧
      ({ State.reset with env := [[.irq]] } : State).irqEnabled = false := by decide

theorem witness_DwellGrowsByHundredsAndWraps : 0 < 63 ∧ 62 < 63 ∧ 16382 < 16383 := by decide

theorem witness_InterruptPlaceMattersOnlyToTheSample :
    passesSampled (.dwell 5#8) { ready .lagged 3 [] with env := List.replicate 31 [] ++ [[.irq]] } =
      passesSampled (.dwell 5#8) (ready .lagged 3 []) ∧
    passesSampled .cycle { ready .lagged 3 [] with env := List.replicate 32 [] ++ [[.irq]] } =
      passesSampled .cycle (ready .lagged 3 []) ∧
    (ready .lagged 3 []).sig.get (serOf .bin) ≠ none ∧ (ready .lagged 3 []).sig.get (serOf .seg) ≠ none := by decide

theorem witness_CounterDwellPhaseAndEnablesHaveTheirWriters :
    (∃ t, exec .init State.reset = .next t ∧ t.initialised ≠ State.reset.initialised ∧
      t.irqEnabled ≠ State.reset.irqEnabled) ∧
    (∃ t, exec .cycle (ready .lagged 0 []) = .next t ∧ t.counter ≠ (ready .lagged 0 []).counter ∧
      ackCount t.trace = ackCount (ready .lagged 0 []).trace) ∧
    (∃ t, exec (.muxpass 0#8) (ready .lagged 0 []) = .next t ∧ t.phase ≠ (ready .lagged 0 []).phase) :=
  ⟨⟨_, rfl, by decide, by decide⟩, ⟨_, rfl, by decide, by decide⟩, ⟨_, rfl, by decide⟩⟩

/-- AnodesNeverOverlap, RegistersLoadInTheDark (first clause, and the second: BIN_OE_RELEASE true, OE_B at 1). -/
theorem witness_AnodesNeverOverlap_and_RegistersLoadInTheDark :
    (valueShown (.dwell 5#8) (ready .lagged 0 [])).isSome ∧
      pinWritten (.dwell 5#8) ≠ some .anOnes ∧ pinWritten (.dwell 5#8) ≠ some .anTens ∧
      pinWritten (.dwell 5#8) ≠ some .oeS ∧
      AnodesAtRest (ready .lagged 0 []).cfg (ready .lagged 0 []).sig ∧
      (ready .lagged 0 []).sig.oeS = some true ∧ (ready .lagged 0 []).cfg.binOeRelease = true ∧
      (ready .lagged 0 []).sig.oeB = some true ∧
      ∃ t new, exec (.dwell 5#8) (ready .lagged 0 []) = .next t ∧
        t.trace = (ready .lagged 0 []).trace ++ new ∧
        [] ++ [.w .clrB false] <+: new ∧ writesLines .bin (.w .clrB false) :=
  ⟨by decide, by decide, by decide, by decide, ⟨by unfold AtMostOneAnode; decide, by decide⟩, by decide, by decide,
    by decide, _, _, rfl, rfl, by decide, ⟨_, _, rfl, .inr (.inr rfl)⟩⟩

/-- AnodesNeverOverlap for a PINSET, of OE_S (first clauses alone) and of H2 (all of them). -/
theorem witness_AnodesNeverOverlap_pins :
    pinWritten (.pinset 7#4) = some .oeS ∧ pinWritten (.pinset 11#4) = some .h2 ∧
      AtMostOneAnode (ready .lagged 0 []).cfg (ready .lagged 0 []).sig ∧
      ∃ t new, exec (.pinset 11#4) (ready .lagged 0 []) = .next t ∧ t.trace = (ready .lagged 0 []).trace ++ new :=
  ⟨rfl, rfl, by unfold AtMostOneAnode; decide, _, _, rfl, rfl⟩

/-- OutputsShownAndWhatTheyLight: an output-enable at 0, at 1 and not driven. -/
theorem witness_OutputsShownAndWhatTheyLight :
    ({ ready .lagged 0 [] with sig := { idleLevels with oeB := some false } } : State).sig.get (oeOf .bin) = some false ∧
      (ready .lagged 0 []).sig.get (oeOf .seg) ≠ some false ∧ State.reset.sig.get (oeOf .bin) ≠ some false := by decide

theorem witness_BinaryLedsShowTheShiftedValue :
    (ready .direct 0 []).initialised = true ∧ (ready .direct 0 []).sig.clkB = some false := ⟨rfl, rfl⟩

theorem witness_SegmentsShowTheTableEntry :
    (ready .direct 0 []).initialised = true ∧ (ready .direct 0 []).sig.clkS = some false ∧
      segTable (ready .direct 0 []).cfg.seg (digitShown 237#8 .ones) = some 0x13#8 ∧
      segTable (ready .direct 0 []).cfg.seg (digitShown 237#8 .tens) = some 0x3B#8 := ⟨rfl, rfl, rfl, rfl⟩

/-- RegistersLoadInTheDark's first clause at a SEG line: the first of them in MUXPASS 0 is the fifth event. -/
theorem witness_RegistersLoadInTheDark_seg :
    ∃ t new, exec (.muxpass 0#8) (ready .lagged 0 []) = .next t ∧ t.trace = (ready .lagged 0 []).trace ++ new ∧
      [.w .anTens false, .w .anOnes true, .w .h1 false, .w .h2 false] ++ [.w .clrS false] <+: new ∧
      writesLines .seg (.w .clrS false) :=
  ⟨_, _, rfl, rfl, by decide, ⟨_, _, rfl, .inr (.inr rfl)⟩⟩

/-- FlashShowsTheAssertedDigit, in the first and in the second flash of MUXPASS 0. -/
theorem witness_FlashShowsTheAssertedDigit :
    valueShown (.muxpass 0#8) (ready .lagged 0 []) = some 0#8 ∧
      AnodesAtRest (ready .lagged 0 []).cfg (ready .lagged 0 []).sig ∧
      (ready .lagged 0 []).sig.clkS = some false ∧
      ∃ t new, exec (.muxpass 0#8) (ready .lagged 0 []) = .next t ∧
        t.trace = (ready .lagged 0 []).trace ++ new ∧ new.take 34 <+: new ∧
        (levelsAfter (ready .lagged 0 []).sig (new.take 34)).oeS = some false ∧
        anodeAsserted (ready .lagged 0 []).cfg (levelsAfter (ready .lagged 0 []).sig (new.take 34)) .ones = true ∧
        new.take 70 <+: new ∧ (levelsAfter (ready .lagged 0 []).sig (new.take 70)).oeS = some false ∧
        anodeAsserted (ready .lagged 0 []).cfg (levelsAfter (ready .lagged 0 []).sig (new.take 70)) .tens = true :=
  ⟨rfl, ⟨by unfold AtMostOneAnode; decide, by decide⟩, rfl, _, _, rfl, rfl, List.take_prefix _ _, by decide,
    by decide, List.take_prefix _ _, by decide, by decide⟩

/-- BinaryShownWheneverADigitIs, in the first flash of a DWELL of one pass. -/
theorem witness_BinaryShownWheneverADigitIs :
    (ready .lagged 1 []).sig.oeS = some true ∧
      ∃ t new, exec (.dwell 0#8) (ready .lagged 1 []) = .next t ∧ t.trace = (ready .lagged 1 []).trace ++ new ∧
        new.take 64 <+: new ∧ (levelsAfter (ready .lagged 1 []).sig (new.take 64)).oeS = some false :=
  ⟨rfl, _, _, rfl, rfl, List.take_prefix _ _, by decide⟩

/-- BinaryStaysShownUntilTheRelease in a DWELL of no pass, whose 31 events end in OE_B low and high: both clauses. -/
theorem witness_BinaryStaysShownUntilTheRelease :
    ∃ t new, exec (.dwell 0#8) (ready .lagged 0 []) = .next t ∧ t.trace = (ready .lagged 0 []).trace ++ new ∧
      new.take 30 <+: new ∧ .w .oeB false ∈ new.take 30 ∧ .w .oeB true ∉ new.take 30 ∧
      new <+: new ∧ .w .oeB false ∈ new ∧ .w .oeB true ∈ new :=
  ⟨_, _, rfl, rfl, List.take_prefix _ _, by decide, by decide, List.prefix_rfl, by decide, by decide⟩

/-- MultiplexerWaitsTwoUnitsAPass for each of its commands, DWELL and CYCLE with one pass. -/
theorem witness_MultiplexerWaitsTwoUnitsAPass :
    (ready .lagged 1 []).initialised = true ∧
      (valueShown (.muxpass 0#8) (ready .lagged 1 []) = some 0#8 ∧
        ∃ t new, exec (.muxpass 0#8) (ready .lagged 1 []) = .next t ∧ t.trace = (ready .lagged 1 []).trace ++ new) ∧
      (valueShown (.dwell 7#8) (ready .lagged 1 []) = some 7#8 ∧
        ∃ t new, exec (.dwell 7#8) (ready .lagged 1 []) = .next t ∧ t.trace = (ready .lagged 1 []).trace ++ new) ∧
      (valueShown .cycle (ready .lagged 1 []) = some 0#8 ∧
        ∃ t new, exec .cycle (ready .lagged 1 []) = .next t ∧ t.trace = (ready .lagged 1 []).trace ++ new) :=
  ⟨rfl, ⟨rfl, _, _, rfl, rfl⟩, ⟨rfl, _, _, rfl, rfl⟩, ⟨rfl, _, _, rfl, rfl⟩⟩

/-- The step invariants and OutsideFollowsTheTrace: reset with INIT placed meets every invariant and takes a step. -/
theorem witness_step_invariants :
    LevelsFollowTrace (placed 0x1000) ∧ DwellCountsAcks (placed 0x1000) ∧ DwellInRange (placed 0x1000) ∧
      CounterCountsTexts (placed 0x1000) ∧ EnabledIffReady (placed 0x1000) ∧ DrivenOnceReady (placed 0x1000) ∧
      SilentUntilReady (placed 0x1000) ∧ PcInStream (placed 0x1000) ∧ FaultAtPc (placed 0x1000) ∧
      ∃ t, step (placed 0x1000) = .next t :=
  ⟨rfl, by unfold DwellCountsAcks; decide, by unfold DwellInRange; decide, by unfold CounterCountsTexts; decide, rfl,
    (fun h => absurd h (by decide)), fun _ => ⟨rfl, rfl, rfl, rfl, rfl, rfl⟩, by unfold PcInStream; decide,
    (fun r h => absurd h (by simp [placed, State.withFetchWord])), _, rfl⟩

end Sys2Proof.Tests
end

section
/-! PROOFS. The levels follow the trace (00_scope.md R13); the pulse count of a SHIFTOUT (41_shift_register_driver.md R92,
R197). -/

namespace Sys2Proof.Machine

open Sys2Proof

/-! ## What one step does to the trace -/

/-- Every step grows the trace; a fault grows it by no event (60_exceptions.md R156, R158). -/
theorem step_grew {s t : State} (h : step s = .next t) : ∃ main, Grew main s t := by
  obtain ⟨-, -, ⟨k, rfl⟩ | ⟨i, hc⟩⟩ := step_inversion h
  · exact ⟨[], .of_same rfl rfl rfl⟩
  · exact ⟨_, hc.grew⟩

/-- Where the trace grows, the levels are those the new events give (00_scope.md R13). -/
theorem Grew.sig {main : List Event} {s t : State} (h : Grew main s t) :
    ∃ new, t.trace = s.trace ++ new ∧ t.sig = levelsAfter s.sig new := by
  obtain ⟨new, htrace, -, houtside, -⟩ := h
  have hsig := congrArg Outside.sig houtside
  rw [Outside.readAll_sig] at hsig
  exact ⟨new, htrace, hsig⟩

theorem Grew.levelsFollowTrace {main : List Event} {s t : State} (h : Grew main s t) (hs : LevelsFollowTrace s) :
    LevelsFollowTrace t := by
  obtain ⟨new, htrace, hsig⟩ := h.sig
  calc t.sig = levelsAfter s.sig new := hsig
    _ = levelsAfter (levelsAfter Levels.undriven s.trace) new := by rw [← hs]
    _ = levelsAfter Levels.undriven t.trace := by rw [htrace, levelsAfter_append]

/-- Settles O53: a step grows the trace and the levels alike. -/
theorem stepKeepsLevelsFollowingTheTrace : Obligations.StepKeepsLevelsFollowingTheTrace := by
  intro s t hs hstep
  obtain ⟨main, hgrew⟩ := step_grew hstep
  exact hgrew.levelsFollowTrace hs

/-! ## Counting the writes of a frame -/

/-- No acknowledge is a write, so a count of writes may be taken on the main agent's events. -/
theorem countP_drives_mainEvents (o : Out) (v : Bool) (l : List Event) :
    (mainEvents l).countP (Event.drives o v) = l.countP (Event.drives o v) := by
  have hnotAck : ∀ e : Event, (Event.drives o v e && !e.isAck) = Event.drives o v e := by
    intro e
    cases e with
    | a => rfl
    | w | d | e | cfg | ien => exact Bool.and_true _
  rw [mainEvents, List.countP_filter]
  simp only [hnotAck]

@[simp] theorem drives_w (o p : Out) (v u : Bool) : Event.drives o v (.w p u) = (decide (p = o) && decide (u = v)) := by
  rw [Bool.eq_iff_iff]
  simp [Event.drives]

/-- Each of the nine slots raises the clock line once. -/
theorem countP_frameTrace_clk (r : Reg) (value : Byte) :
    (frameTrace r value).countP (Event.drives (clkOf r) true) = 9 := by
  have hser : serOf r ≠ clkOf r := by cases r <;> decide
  have hclr : clrOf r ≠ clkOf r := by cases r <;> decide
  simp [frameTrace, hser, hclr]

/-- No slot writes the clear line: only the clear pulse at the start does. -/
theorem countP_frameTrace_clr (r : Reg) (value : Byte) :
    (frameTrace r value).countP (Event.drives (clrOf r) false) = 1 := by
  have hser : serOf r ≠ clrOf r := by cases r <;> decide
  have hclk : clkOf r ≠ clrOf r := by cases r <;> decide
  simp [frameTrace, hser, hclk]

/-- The main agent's events of a SHIFTOUT, however the trace's growth is written (41_shift_register_driver.md R92). -/
theorem mainEvents_of_shiftout {r : Reg} {value : Byte} {s t : State} {new : List Event}
    (hi : s.initialised = true) (h : exec (.shiftout r value) s = .next t) (hnew : t.trace = s.trace ++ new) :
    mainEvents new = frameTrace r value := by
  have hrun : requireInit (.shiftout r value) (play (frameMicros r value)) s = .next t := h
  obtain ⟨u, hu, -, -, -, happended, -, -⟩ := requireInit_plain (.shiftout r value) (plain_frame r value) hi
  obtain rfl : u = t := by rw [hu] at hrun; injection hrun
  obtain ⟨grown, hgrown, hmain⟩ := happended.shows
  rw [List.append_cancel_left (hnew.symm.trans hgrown), hmain, eventsOf_frame]

/-- Settles O23: the counts are those of the frame, which interrupt steps do not change. -/
theorem shiftoutPulsesTheClockNineTimes : Obligations.ShiftoutPulsesTheClockNineTimes := by
  intro r value s t new hi h hnew
  have hmain := mainEvents_of_shiftout hi h hnew
  refine ⟨?_, ?_, ?_⟩
  · rw [hmain, frameTrace_length]
  · rw [← countP_drives_mainEvents, hmain, countP_frameTrace_clk]
  · rw [← countP_drives_mainEvents, hmain, countP_frameTrace_clr]

end Sys2Proof.Machine
end

section
/-! PROOFS. The state record (10_state.md R29 to R41): what a step keeps of it, who writes its fields, and the state at
power-on. -/

namespace Sys2Proof.Machine

open Sys2Proof

/-! ## The trace and what stands outside the block -/

/-- Settles O52: every step grows the trace, and a growth is read by the reference model. -/
theorem outsideFollowsTheTrace : Obligations.OutsideFollowsTheTrace := by
  intro s t hstep
  obtain ⟨main, new, htrace, -, houtside, -⟩ := step_grew hstep
  exact ⟨new, htrace, houtside⟩

theorem Grew.trace_grows {main : List Event} {s t : State} (h : Grew main s t) : s.trace <+: t.trace := by
  obtain ⟨new, htrace, -⟩ := h
  exact ⟨new, htrace.symm⟩

/-! ## Readiness -/

/-- An output that was driven, or that the trace writes, is driven after it: nothing stops driving an output. -/
theorem levelsAfter_get_ne_none {l : Levels} {o : Out} {a : List Event}
    (h : l.get o ≠ none ∨ ∃ v, Event.w o v ∈ a) : (levelsAfter l a).get o ≠ none := by
  induction a generalizing l with
  | nil => simpa using h
  | cons e rest ih =>
    cases e with
    | w p u =>
      refine ih ?_
      by_cases hp : o = p
      · subst hp; simp
      · simpa [hp] using h
    | d | e | cfg | ien | a => exact ih (by simpa using h)

/-- INIT writes every output (45_primitives.md R143). -/
theorem mem_initTrace (p : Params) (o : Out) : Event.w o (initLevel p o) ∈ initTrace p := by
  have hall : o ∈ allOutputs := by cases o <;> decide
  simp [initTrace, hall]

/-- A command but INIT completes only from a state that INIT has made ready. -/
theorem Completed.began_ready {i : Instr} {s t : State} (h : Completed i s t) (hn : i ≠ .init) :
    s.initialised = true := by
  simpa [hn] using h.began

theorem Completed.enabledIffReady {i : Instr} {s t : State} (h : Completed i s t) (hs : EnabledIffReady s) :
    EnabledIffReady t := by
  unfold EnabledIffReady at *
  rw [h.irqEnabled, h.initialised]
  split
  · rfl
  · next hn => rw [hs, h.began_ready hn]

theorem Completed.drivenOnceReady {i : Instr} {s t : State} (h : Completed i s t) (hs : DrivenOnceReady s) :
    DrivenOnceReady t := by
  intro _ o
  rw [h.sig]
  refine levelsAfter_get_ne_none ?_
  by_cases hn : i = .init
  · subst hn
    exact .inr ⟨_, mem_initTrace s.cfg o⟩
  · exact .inl (hs (h.began_ready hn) o)

/-- Settles O57: a fault writes neither the enables nor the levels, INIT sets both enables and drives every output, and
every other command that completes began ready. -/
theorem stepKeepsReadiness : Obligations.StepKeepsReadiness := by
  intro s t henabled hdriven hstep
  obtain ⟨-, -, ⟨k, rfl⟩ | ⟨i, hc⟩⟩ := step_inversion hstep
  · exact ⟨henabled, hdriven⟩
  · exact ⟨hc.enabledIffReady henabled, hc.drivenOnceReady hdriven⟩

/-! ## The command pointer and the fault record -/

/-- Settles O10: a step's command completes, or a fault is recorded. -/
theorem stepAdvancesByOneOrRecordsAFault : Obligations.StepAdvancesByOneOrRecordsAFault := by
  intro s t hstep
  obtain ⟨hf, -, ⟨k, hk⟩ | ⟨i, hc⟩⟩ := step_inversion hstep
  · exact .inr ⟨k, hk⟩
  · exact .inl ⟨hc.fault.trans hf, hc.pc⟩

/-- Settles O59: a step begins at a command of the stream, and moves past it or records its fault there. -/
theorem stepKeepsPcAndFaultRecord : Obligations.StepKeepsPcAndFaultRecord := by
  intro s t hpc _ hstep
  obtain ⟨hf, hlt, ⟨k, rfl⟩ | ⟨i, hc⟩⟩ := step_inversion hstep
  · refine ⟨hpc, fun r hr => ?_⟩
    obtain rfl : (⟨k, s.pc⟩ : FaultRecord) = r := by simpa using hr
    rfl
  · refine ⟨?_, fun r hr => ?_⟩
    · unfold PcInStream
      rw [hc.pc, hc.stream]
      exact hlt
    · rw [hc.fault, hf] at hr
      cases hr

/-! ## Who writes the fields -/

/-- Interrupt steps alone write `dwell` (60_exceptions.md R162, R163). -/
theorem Grew.dwell_of_no_ack {main : List Event} {s t : State} (h : Grew main s t)
    (ha : ackCount t.trace = ackCount s.trace) : t.dwell = s.dwell := by
  obtain ⟨new, htrace, -, -, hdwell⟩ := h
  have hnone : ackCount new = 0 := by
    rw [htrace, ackCount, List.countP_append] at ha
    exact Nat.add_eq_left.1 ha
  rw [hdwell, hnone, bumps]

theorem commandPhase_ne {i : Instr} {s : State} (h : commandPhase i s ≠ s.phase) :
    (∃ n, i = .muxpass n) ∨ (∃ n, i = .dwell n) ∨ i = .cycle := by
  cases i with
  | muxpass n => exact .inl ⟨n, rfl⟩
  | dwell n => exact .inr (.inl ⟨n, rfl⟩)
  | cycle => exact .inr (.inr rfl)
  | init | shiftout | dispint | pinset | pinclr | delay => exact absurd rfl h

/-- Settles O41: a fault writes none of these fields; of a command that completes, each field's value is known. -/
theorem counterDwellPhaseAndEnablesHaveTheirWriters : Obligations.CounterDwellPhaseAndEnablesHaveTheirWriters := by
  intro i s t hexec
  obtain ⟨k, rfl, -⟩ | hc := exec_inversion hexec
  · exact ⟨absurd rfl, fun _ => rfl, absurd rfl, absurd rfl, absurd rfl, rfl, rfl, ⟨[], List.append_nil _⟩⟩
  · refine ⟨fun hne => ?_, hc.grew.dwell_of_no_ack, fun hne => ?_, fun hne => ⟨?_, hc.initialised⟩, fun hne => ?_,
      hc.cfg, hc.stream, hc.grew.trace_grows⟩
    · by_contra hn
      exact hne (by rw [hc.counter, if_neg hn])
    · exact commandPhase_ne (hc.phase ▸ hne)
    · by_contra hn
      exact hne (hc.initialised.trans (hc.began_ready hn).symm)
    · by_cases hn : i = .init
      · exact ⟨hn, by rw [hc.irqEnabled, if_pos hn]⟩
      · exact absurd (by rw [hc.irqEnabled, if_neg hn]) hne

/-! ## The range of `dwell` -/

theorem bumps_lt (w : DwellWidth) (k : Nat) {d : Nat} (h : d < 2 ^ dwellBits w) : bumps w k d < 2 ^ dwellBits w := by
  induction k generalizing d with
  | zero => exact h
  | succ k ih => exact ih (Nat.mod_lt _ (Nat.two_pow_pos _))

/-- No step writes the configuration (10_state.md R39). -/
theorem step_cfg {s t : State} (h : step s = .next t) : t.cfg = s.cfg := by
  obtain ⟨-, -, ⟨k, rfl⟩ | ⟨i, hc⟩⟩ := step_inversion h
  · rfl
  · exact hc.cfg

/-- Settles O55: a step changes `dwell` by interrupt steps alone, each of which reduces it to the width. -/
theorem stepKeepsDwellInRange : Obligations.StepKeepsDwellInRange := by
  intro s t hs hstep
  obtain ⟨main, new, -, -, -, hdwell⟩ := step_grew hstep
  unfold DwellInRange
  rw [hdwell, step_cfg hstep]
  exact bumps_lt _ _ hs

/-! ## The fetched command -/

/-- Settles O7: with no fault and a legal word at `pc`, `step` takes its last branch. -/
theorem stepExecutesTheFetchedCommand : Obligations.StepExecutesTheFetchedCommand := by
  intro s w i hfault hword hdecode
  simp only [step, fetch, hfault, hword, hdecode]

/-- Settles O12: of what a command can do, a legal one other than INIT, begun before INIT, can only raise
NotInitialised. -/
theorem commandBeforeInitIsNotInitialised : Obligations.CommandBeforeInitIsNotInitialised := by
  intro i s hwf hn hi
  obtain ⟨t, hexec, ⟨k, rfl, hk⟩ | hc⟩ := exec_cases i s
  · obtain ⟨-, hill⟩ | ⟨rfl, -⟩ | ⟨-, hinit, -⟩ | ⟨-, -, hinit, -⟩ := hk
    · exact absurd hwf hill
    · exact hexec
    · exact absurd hinit hn
    · exact absurd hinit hn
  · simp [hc.began_ready hn] at hi

/-! ## Power-on -/

/-- Settles O17: each field of the reset record is the spec's value. -/
theorem powerOnState : Obligations.PowerOnState :=
  ⟨fun o => by cases o <;> rfl, rfl, rfl, rfl, rfl, rfl, rfl, rfl, rfl⟩

/-- At power-on no anode is driven, so none is asserted, and OE_S is not driven (10_state.md R40). -/
theorem anodesAtRest_undriven (p : Params) : AnodesAtRest p Levels.undriven := by
  have hnone : anodeAsserted p Levels.undriven .ones = false := rfl
  exact ⟨fun ⟨hones, _⟩ => by simp [hnone] at hones, nofun⟩

/-- Settles O18: the trace is empty, nothing is driven, and INIT has not run. -/
theorem powerOnMeetsTheInvariants : Obligations.PowerOnMeetsTheInvariants := by
  refine ⟨?_, ?_, rfl, rfl, rfl, nofun, fun _ => ⟨rfl, rfl, rfl, rfl, rfl, rfl⟩, nofun, Nat.le_refl 0,
    anodesAtRest_undriven _⟩
  · show 100 < 2 ^ 16
    decide
  · show 100 = 100 * (1 + 0) % 2 ^ 16
    decide

end Sys2Proof.Machine
end

section
/-! PROOFS. Placing a command in the stream (20_memory.md R53). -/

namespace Sys2Proof.Machine

open Sys2Proof

/-- What stands before the placed word, kept or filled up, is exactly `n` words long. -/
@[simp] theorem placeWord_getElem?_self (stream : List Word) (n : Nat) (w : Word) :
    (placeWord stream n w)[n]? = some w := by
  have hbefore : (stream.take n ++ List.replicate (n - stream.length) 0#16).length = n := by
    simp only [List.length_append, List.length_take, List.length_replicate]
    omega
  rw [placeWord, List.getElem?_append_right hbefore.le, hbefore, Nat.sub_self, List.getElem?_cons_zero]

theorem decode_of_decodeTableWord {nbits w : Nat} {i : Instr} (h : decodeTableWord nbits w = some i) :
    decode (BitVec.ofNat 16 w) = .ok i := by
  obtain ⟨-, hsome⟩ := Option.ite_none_right_eq_some.1 h
  cases hd : decode (BitVec.ofNat 16 w) with
  | error e => simp [hd, Except.toOption] at hsome
  | ok j => simpa [hd, Except.toOption] using hsome

/-- Settles O11: the placed word stands at `pc` and no fault is left, so the step executes it. -/
theorem placedWordRunsNext : Obligations.PlacedWordRunsNext := by
  intro s w i htable
  exact stepExecutesTheFetchedCommand (s.withFetchWord 16 w) (BitVec.ofNat 16 w) i rfl
    (placeWord_getElem?_self s.stream s.pc _) (decode_of_decodeTableWord htable)

end Sys2Proof.Machine
end

section
/-! PROOFS. The command word (30_encoding.md R74 to R85): its fields as parts of its number, the number of each
command's word, and what the decoder makes of every word. In a case split along `decode`, cases 1 to 9 are the rows of
the opcode map, by opcode, and case 10 is every other opcode. -/

namespace Sys2Proof

/-! ## Fields and numbers -/

/-- A field of a word is a part of the word's number. -/
theorem extractLsb'_toNat_eq_div_mod {n : Nat} (w : BitVec n) (start len : Nat) :
    (w.extractLsb' start len).toNat = w.toNat / 2 ^ start % 2 ^ len := by
  rw [BitVec.extractLsb'_toNat, Nat.shiftRight_eq_div_pow]

theorem extractLsb'_eq_ofNat {n : Nat} (w : BitVec n) (start len : Nat) :
    w.extractLsb' start len = BitVec.ofNat len (w.toNat / 2 ^ start % 2 ^ len) := by
  rw [← extractLsb'_toNat_eq_div_mod, BitVec.ofNat_toNat, BitVec.setWidth_eq]

theorem lowField_toNat {n : Nat} (w : BitVec n) (len : Nat) : (w.extractLsb' 0 len).toNat = w.toNat % 2 ^ len := by
  rw [extractLsb'_toNat_eq_div_mod, pow_zero, Nat.div_one]

/-- Fields side by side, as a number. -/
theorem toNat_append_eq_add {m n : Nat} (a : BitVec m) (b : BitVec n) :
    (a ++ b).toNat = a.toNat * 2 ^ n + b.toNat := by
  rw [BitVec.toNat_append, ← Nat.shiftLeft_add_eq_or_of_lt b.isLt, Nat.shiftLeft_eq]

/-- The opcode field w[15:12] (30_encoding.md R74). -/
theorem opField_toNat (w : Word) : (w.extractLsb' 12 4).toNat = w.toNat / 4096 := by
  rw [extractLsb'_toNat_eq_div_mod]
  omega

/-- The selector bit w[8] (30_encoding.md R75). -/
theorem selBit_toNat (w : Word) : (w.getLsbD 8).toNat = w.toNat / 256 % 2 := by
  rw [BitVec.getLsbD, Nat.toNat_testBit]

theorem regOfBit_eq_iff {b : Bool} {r : Reg} : regOfBit b = r ↔ b.toNat = (bitOfReg r).toNat := by
  cases b <;> cases r <;> decide

theorem placeOfBit_eq_iff {b : Bool} {p : Place} : placeOfBit b = p ↔ b.toNat = (bitOfPlace p).toNat := by
  cases b <;> cases p <;> decide

theorem bitOfReg_regOfBit (b : Bool) : (bitOfReg (regOfBit b)).toNat = b.toNat := (regOfBit_eq_iff.1 rfl).symm

theorem bitOfPlace_placeOfBit (b : Bool) : (bitOfPlace (placeOfBit b)).toNat = b.toNat := (placeOfBit_eq_iff.1 rfl).symm

theorem regOfBit_selBit (w : Word) : regOfBit (w.getLsbD 8) = if w.toNat / 256 % 2 = 0 then .bin else .seg := by
  rw [regOfBit_eq_iff, selBit_toNat]
  split <;> simp only [bitOfReg, BitVec.toNat_ofNat] <;> omega

theorem placeOfBit_selBit (w : Word) :
    placeOfBit (w.getLsbD 8) = if w.toNat / 256 % 2 = 0 then .ones else .tens := by
  rw [placeOfBit_eq_iff, selBit_toNat]
  split <;> simp only [bitOfPlace, BitVec.toNat_ofNat] <;> omega

/-! ## The parts of the decoder -/

theorem ifReservedZero_eq_ok {n : Nat} {r : BitVec n} {i j : Instr} :
    ifReservedZero r i = .ok j ↔ r.toNat = 0 ∧ i = j := by
  simp only [ifReservedZero, ← BitVec.toNat_inj, BitVec.toNat_zero]
  split <;> simp [*]

theorem ifReservedZero_eq_error {n : Nat} {r : BitVec n} {i : Instr} {e : Illegal} :
    ifReservedZero r i = .error e ↔ r.toNat ≠ 0 ∧ .reservedBit = e := by
  simp only [ifReservedZero, ← BitVec.toNat_inj, BitVec.toNat_zero]
  split <;> simp [*]

theorem sigLegal_iff {sig : BitVec 4} : sigLegal sig = true ↔ sig.toNat ≤ 11 := decide_eq_true_iff

theorem decodeSig_eq_ok {w : Word} {f : BitVec 4 → Instr} {j : Instr} :
    decodeSig w f = .ok j ↔
      (w.extractLsb' 4 8).toNat = 0 ∧ (w.extractLsb' 0 4).toNat ≤ 11 ∧ f (w.extractLsb' 0 4) = j := by
  simp only [decodeSig, sigLegal_iff, ← BitVec.toNat_inj, BitVec.toNat_zero]
  split
  · split <;> simp only [*] <;> simp
  · simp only [*]; simp

theorem decodeSig_eq_error {w : Word} {f : BitVec 4 → Instr} {e : Illegal} :
    decodeSig w f = .error e ↔
      (w.extractLsb' 4 8).toNat ≠ 0 ∧ .reservedBit = e ∨
        (w.extractLsb' 4 8).toNat = 0 ∧ 11 < (w.extractLsb' 0 4).toNat ∧ .notAnOutput = e := by
  simp only [decodeSig, sigLegal_iff, ← BitVec.toNat_inj, BitVec.toNat_zero, ← Nat.not_le]
  split
  · split <;> simp only [*] <;> simp
  · simp_all only [Except.error.injEq, ne_eq, not_false_eq_true, true_and, false_and, or_false]

theorem ifReservedZero_toOption {n : Nat} (r : BitVec n) (i : Instr) :
    (ifReservedZero r i).toOption = if r.toNat = 0 then some i else none := by
  simp only [ifReservedZero, ← BitVec.toNat_inj, BitVec.toNat_zero]
  split <;> rfl

theorem decodeSig_toOption (w : Word) (f : BitVec 4 → Instr) :
    (decodeSig w f).toOption =
      if (w.extractLsb' 4 8).toNat = 0 ∧ (w.extractLsb' 0 4).toNat ≤ 11 then some (f (w.extractLsb' 0 4))
      else none := by
  simp only [decodeSig, sigLegal_iff, ← BitVec.toNat_inj, BitVec.toNat_zero, ite_and]
  split
  · split <;> rfl
  · rfl

/-! ## The number of a command's word -/

/-- The opcode of a command's row (30_encoding.md R80). -/
def opcode : Instr → Nat
  | .init => 1
  | .shiftout _ _ => 2
  | .dispint _ _ => 3
  | .muxpass _ => 4
  | .dwell _ => 5
  | .cycle => 6
  | .pinset _ => 7
  | .pinclr _ => 8
  | .delay _ => 9

/-- Bits 11 to 0 of a command's word, by its format (30_encoding.md R75 to R79). -/
def operandBits : Instr → Nat
  | .init => 0
  | .shiftout reg value => 256 * (bitOfReg reg).toNat + value.toNat
  | .dispint number place => 256 * (bitOfPlace place).toNat + number.toNat
  | .muxpass number => number.toNat
  | .dwell number => number.toNat
  | .cycle => 0
  | .pinset sig => sig.toNat
  | .pinclr sig => sig.toNat
  | .delay n => n.toNat

theorem operandBits_lt (i : Instr) : operandBits i < 4096 := by
  cases i <;> simp only [operandBits] <;> omega

theorem encode_toNat (i : Instr) : (encode i).toNat = 4096 * opcode i + operandBits i := by
  cases i <;> simp only [encode, opcode, operandBits, toNat_append_eq_add, BitVec.toNat_ofNat] <;> omega

/-! ## Round trip -/

/-- Settles O1: the word's number is the opcode above the operands, so the decoder takes the command's own row, finds
the reserved bits 0 and each operand in its field. -/
theorem commandWordsDecodeToTheirCommand : Obligations.CommandWordsDecodeToTheirCommand := by
  intro i hwf
  have hnumber := encode_toNat i
  have hop : (encode i).toNat / 4096 = opcode i := by
    have hlow := operandBits_lt i
    omega
  generalize encode i = w at *
  unfold decode
  rw [opField_toNat, hop]
  cases i <;> simp only [opcode, operandBits] at *
  case init | cycle => simp only [ifReservedZero_eq_ok, extractLsb'_toNat_eq_div_mod, and_true]; omega
  case shiftout | dispint | muxpass | dwell =>
    simp only [ifReservedZero_eq_ok, Instr.shiftout.injEq, Instr.dispint.injEq, Instr.muxpass.injEq,
      Instr.dwell.injEq, regOfBit_eq_iff, placeOfBit_eq_iff, selBit_toNat, ← BitVec.toNat_inj,
      extractLsb'_toNat_eq_div_mod]
    omega
  case pinset | pinclr =>
    have hsig := sigLegal_iff.1 hwf
    simp only [decodeSig_eq_ok, Instr.pinset.injEq, Instr.pinclr.injEq, ← BitVec.toNat_inj,
      extractLsb'_toNat_eq_div_mod]
    omega
  case delay =>
    simp only [Except.ok.injEq, Instr.delay.injEq, ← BitVec.toNat_inj, extractLsb'_toNat_eq_div_mod]
    omega

/-- Settles O2: the row the word's opcode selects gives back its fields, and the fields together are the word's
number. -/
theorem decodedWordIsTheCommandsOwnWord : Obligations.DecodedWordIsTheCommandsOwnWord := by
  intro w i
  rw [← BitVec.toNat_inj, encode_toNat]
  fun_cases decode w <;> simp only [opField_toNat, imp_false] at *
  case case10 => nofun
  case case9 =>
    rintro ⟨⟩
    refine ⟨rfl, ?_⟩
    simp only [opcode, operandBits, extractLsb'_toNat_eq_div_mod]
    omega
  case case7 | case8 =>
    rw [decodeSig_eq_ok]
    rintro ⟨hreserved, hsig, rfl⟩
    refine ⟨sigLegal_iff.2 hsig, ?_⟩
    simp only [opcode, operandBits, extractLsb'_toNat_eq_div_mod, Nat.reducePow] at *
    omega
  all_goals
    rw [ifReservedZero_eq_ok]
    rintro ⟨hreserved, rfl⟩
    refine ⟨rfl, ?_⟩
    simp only [opcode, operandBits, bitOfReg_regOfBit, bitOfPlace_placeOfBit, selBit_toNat,
      extractLsb'_toNat_eq_div_mod, Nat.reducePow] at *
    omega

/-! ## Decoding by the word's number -/

/-- Settles O3: each row answers an illegal word by its reserved bits and its `sig` field alone, and the other opcodes
have no row. -/
theorem illegalWordsAreExactlyTheReservedOnes : Obligations.IllegalWordsAreExactlyTheReservedOnes := by
  intro w
  fun_cases decode w <;> simp only [opField_toNat, imp_false] at *
  case case10 =>
    simp only [Except.error.injEq, reduceCtorEq, true_iff, false_iff]
    omega
  case case7 | case8 =>
    simp [*, decodeSig_eq_error, extractLsb'_toNat_eq_div_mod, -BitVec.extractLsb'_toNat]
    omega
  all_goals simp [*, ifReservedZero_eq_error, extractLsb'_toNat_eq_div_mod, -BitVec.extractLsb'_toNat]

/-- Settles O4: past the opcode, each row's fields are the parts of the number that the statement names. -/
theorem decodingReadsTheFields : Obligations.DecodingReadsTheFields := by
  intro w
  fun_cases decode w <;> simp only [opField_toNat, imp_false] at *
  case case10 =>
    iterate 9 rw [if_neg (by assumption)]
    rfl
  all_goals
    simp only [ifReservedZero_toOption, decodeSig_toOption, regOfBit_selBit, placeOfBit_selBit, *]
    simp [extractLsb'_eq_ofNat, Except.toOption]

/-- Settles O6: the decoder computes each of them. -/
theorem wordsOfTheSpecDecode : Obligations.WordsOfTheSpecDecode :=
  ⟨rfl, rfl, rfl, rfl, rfl, rfl, rfl, rfl, rfl, rfl, rfl, rfl⟩

/-! ## Mask and match -/

/-- A mask that leaves out the low k bits alone clears them. -/
theorem and_highMask_toNat (w : Word) (k : Nat) :
    (w &&& BitVec.allOnes 16 <<< k).toNat = w.toNat / 2 ^ k * 2 ^ k := by
  rw [← BitVec.shiftLeft_ushiftRight, BitVec.toNat_shiftLeft, BitVec.toNat_ushiftRight,
    Nat.shiftRight_eq_div_pow, Nat.shiftLeft_eq]
  exact Nat.mod_eq_of_lt (lt_of_le_of_lt (Nat.div_mul_le_self _ _) w.isLt)

/-- A word that has a row's match under the row's mask of its low k bits, and those bits from the operands, is the
command's word. -/
theorem decode_of_mask {w m : Word} {i : Instr} (k : Nat) (hwf : i.WellFormed) (h : w &&& BitVec.allOnes 16 <<< k = m)
    (hop : m.toNat = 4096 * opcode i) (hlow : operandBits i = w.toNat % 2 ^ k) : decode w = .ok i := by
  have hnumber : (encode i).toNat = w.toNat := by
    rw [encode_toNat, ← hop, hlow, ← h, and_highMask_toNat, Nat.div_add_mod']
  rw [← BitVec.eq_of_toNat_eq hnumber]
  exact commandWordsDecodeToTheirCommand i hwf

theorem and_mask_of_decode {w : Word} {i : Instr} (h : decode w = .ok i) (hrow : Laws.TableRow.Statement i) :
    w &&& Laws.TableRow.mask i = Laws.TableRow.wanted i := by
  rw [← (decodedWordIsTheCommandsOwnWord w i h).2, hrow]

/-- Bits 8 to 0 of a word are its selector bit and its 8-bit immediate (30_encoding.md R75). -/
theorem sel8_toNat (w : Word) : 256 * (w.getLsbD 8).toNat + (w.extractLsb' 0 8).toNat = w.toNat % 2 ^ 9 := by
  rw [selBit_toNat, lowField_toNat]
  omega

/-- The `sig` field of a word that decodes to PINSET or PINCLR (30_encoding.md R81). -/
theorem sigField_le_of_decode {w : Word} {i : Instr} {sig : BitVec 4} (h : decode w = .ok i)
    (hsig : i = .pinset sig ∨ i = .pinclr sig) : w.toNat % 16 ≤ 11 := by
  obtain ⟨hwf, rfl⟩ := decodedWordIsTheCommandsOwnWord w i h
  rw [encode_toNat]
  obtain rfl | rfl := hsig <;>
    · have hle := sigLegal_iff.1 hwf
      simp only [opcode, operandBits]
      omega

open Laws in
/-- Settles O5: the masks leave out low bits alone, so a match says that the word is its row's opcode above its
operands; conversely the word of each command has its row's match. -/
theorem maskAndMatchSelectTheCommand : Obligations.MaskAndMatchSelectTheCommand := by
  intro w
  refine ⟨?init, ?shiftout, ?dispint, ?muxpass, ?dwell, ?cycle, ?pinset, ?pinclr, ?delay⟩
  case init =>
    exact ⟨fun h => decode_of_mask 0 rfl h rfl (Nat.mod_one _).symm, fun h => and_mask_of_decode h TableRow.init⟩
  case shiftout =>
    refine ⟨fun h => ⟨regOfBit (w.getLsbD 8), w.extractLsb' 0 8, decode_of_mask 9 rfl h rfl ?_⟩,
      fun ⟨r, v, h⟩ => and_mask_of_decode h (TableRow.shiftout r v)⟩
    rw [operandBits, bitOfReg_regOfBit, sel8_toNat]
  case dispint =>
    refine ⟨fun h => ⟨w.extractLsb' 0 8, placeOfBit (w.getLsbD 8), decode_of_mask 9 rfl h rfl ?_⟩,
      fun ⟨n, p, h⟩ => and_mask_of_decode h (TableRow.dispint n p)⟩
    rw [operandBits, bitOfPlace_placeOfBit, sel8_toNat]
  case muxpass =>
    exact ⟨fun h => ⟨w.extractLsb' 0 8, decode_of_mask 8 rfl h rfl (lowField_toNat w 8)⟩,
      fun ⟨n, h⟩ => and_mask_of_decode h (TableRow.muxpass n)⟩
  case dwell =>
    exact ⟨fun h => ⟨w.extractLsb' 0 8, decode_of_mask 8 rfl h rfl (lowField_toNat w 8)⟩,
      fun ⟨n, h⟩ => and_mask_of_decode h (TableRow.dwell n)⟩
  case cycle =>
    exact ⟨fun h => decode_of_mask 0 rfl h rfl (Nat.mod_one _).symm, fun h => and_mask_of_decode h TableRow.cycle⟩
  case pinset =>
    refine ⟨fun ⟨h, hsig⟩ => ⟨w.extractLsb' 0 4, decode_of_mask 4 ?_ h rfl (lowField_toNat w 4)⟩,
      fun ⟨f, h⟩ => ⟨and_mask_of_decode h (TableRow.pinset f), sigField_le_of_decode h (.inl rfl)⟩⟩
    exact sigLegal_iff.2 ((lowField_toNat w 4).trans_le hsig)
  case pinclr =>
    refine ⟨fun ⟨h, hsig⟩ => ⟨w.extractLsb' 0 4, decode_of_mask 4 ?_ h rfl (lowField_toNat w 4)⟩,
      fun ⟨f, h⟩ => ⟨and_mask_of_decode h (TableRow.pinclr f), sigField_le_of_decode h (.inr rfl)⟩⟩
    exact sigLegal_iff.2 ((lowField_toNat w 4).trans_le hsig)
  case delay =>
    exact ⟨fun h => ⟨w.extractLsb' 0 12, decode_of_mask 12 rfl h rfl (lowField_toNat w 12)⟩,
      fun ⟨n, h⟩ => and_mask_of_decode h (TableRow.delay n)⟩

end Sys2Proof

namespace Sys2Proof.Machine

open Sys2Proof

/-! ## Illegal words -/

/-- Settles O8: with no fault recorded, `step` decodes the word first, and an illegal one ends there. -/
theorem stepOnAnIllegalWordRecordsTheFault : Obligations.StepOnAnIllegalWordRecordsTheFault := by
  intro s w e hfault hword hdecode
  simp only [step, fetch, hfault, hword, hdecode]
  rfl

/-- The word of a command whose one operand is a `sig` field (30_encoding.md R77). -/
theorem encode_eq_add_sig {i : Instr} {sig : BitVec 4} (h : operandBits i = sig.toNat) :
    encode i = BitVec.ofNat 16 (4096 * opcode i) + sig.setWidth 16 := by
  simp only [← BitVec.toNat_inj, encode_toNat, h, BitVec.toNat_add, BitVec.toNat_setWidth, BitVec.toNat_ofNat]
  have hlt := (encode i).isLt
  rw [encode_toNat, h] at hlt
  omega

/-- A pin command whose `sig` field names no output (30_encoding.md R81): nothing is checked before it. -/
theorem pinWrite_of_no_output (i : Instr) {sig : BitVec 4} (v : Bool) (s : State) (h : 12 ≤ sig.toNat) :
    pinWrite i sig v s = .next (raiseFault (.illegalCommand (encode i)) s) := by
  have hlegal : sigLegal sig = false := decide_eq_false (by omega)
  rw [pinWrite, outOfField_none hlegal]

/-- Settles O13: neither command names an output, and the word it records has its opcode above the `sig` field. -/
theorem pinCommandOfNoOutputIsIllegal : Obligations.PinCommandOfNoOutputIsIllegal := by
  intro sig s h
  have hset : encode (.pinset sig) = 0x7000#16 + sig.setWidth 16 := encode_eq_add_sig rfl
  have hclr : encode (.pinclr sig) = 0x8000#16 + sig.setWidth 16 := encode_eq_add_sig rfl
  rw [← hset, ← hclr]
  exact ⟨pinWrite_of_no_output _ true s h, pinWrite_of_no_output _ false s h⟩

end Sys2Proof.Machine
end

section
/-! PROOFS. The segment encoder (30_encoding.md R66 to R72), what a frame leaves in its register (60_exceptions.md R173,
R175) and what the display then shows (R174, R176). -/

namespace Sys2Proof.Machine

open Sys2Proof

/-! ## The encoder -/

/-- No digit above 9 is in the table (30_encoding.md R68). -/
theorem segTable_eq_none (table : SegOpen) {d : Nat} (h : 9 < d) : segTable table d = none := by
  obtain ⟨n, rfl⟩ := Nat.exists_eq_add_of_le' h
  rfl

/-- Settles O25: the laws of the decomposition give the clauses on the number, the table's own rows the rest. -/
theorem encoderDigitIsInTheTable : Obligations.EncoderDigitIsInTheTable := by
  intro number place table
  refine ⟨decompose_rest number, ?_, ?_, digitFor_eq_digitShown number place, digitShown_le number place, ?_,
    rfl, rfl, rfl, rfl, rfl, rfl, rfl, rfl, rfl, rfl, fun d => segTable_eq_none table⟩
  · rw [decompose_h1, decide_eq_true_iff]
  · rw [decompose_h2, decide_eq_true_iff]
  · rw [digitFor_eq_digitShown]
    exact segTable_isSome table (digitShown_le number place)

/-! ## Shift edges -/

/-- A shift edge moves each stage one place up and takes the new bit in at stage 0. -/
theorem getLsbD_shiftIn (sr : Byte) (bit : Bool) {k : Nat} (hk : k < 8) :
    (shiftIn sr bit).getLsbD k = if k = 0 then bit else sr.getLsbD (k - 1) := by
  rw [shiftIn, BitVec.getLsbD_append]
  cases k with
  | zero => simp
  | succ k =>
    have : k < 7 := by omega
    simp [this]

/-- What a shift edge with the data line at `bit` makes of a register (60_exceptions.md R173). -/
def shifted (mode : LatchMode) (x : ExtReg) (bit : Bool) : ExtReg :=
  { sr := shiftIn x.sr bit
    latch := match mode with
      | .lagged => x.sr
      | .direct => x.latch }

@[simp] theorem shifted_sr (mode : LatchMode) (x : ExtReg) (bit : Bool) :
    (shifted mode x bit).sr = shiftIn x.sr bit := rfl

/-- A clock line driven from 0 to 1 with the clear line at 1 shifts (60_exceptions.md R173). -/
theorem extWrite_clk_rising {before : Levels} {r : Reg} (mode : LatchMode) (seen : List Event) (x : ExtReg)
    (hclk : before.get (clkOf r) = some false) (hclr : before.get (clrOf r) = some true) :
    extWrite mode before seen r (clkOf r) true x = shifted mode x (serialBit before seen r) := by
  unfold extWrite
  exact (if_neg (by simp)).trans (if_pos ⟨rfl, rfl, hclk, hclr⟩)

/-- A write that neither clears a register nor raises its clock line has no effect on it (60_exceptions.md R173). -/
theorem extWrite_idle (mode : LatchMode) (before : Levels) (seen : List Event) (r : Reg) {o : Out} {v : Bool}
    (x : ExtReg) (hclr : o = clrOf r → v = true) (hclk : o = clkOf r → v = false) :
    extWrite mode before seen r o v x = x := by
  unfold extWrite
  refine (if_neg ?_).trans (if_neg ?_)
  · rintro ⟨ho, hv⟩
    simp [hclr ho] at hv
  · rintro ⟨ho, hv, -⟩
    simp [hclk ho] at hv

/-- n shift edges, the data line at `bits i` at edge i. -/
def shiftedAll (mode : LatchMode) (bits : Nat → Bool) (x : ExtReg) : Nat → ExtReg
  | 0 => x
  | n + 1 => shifted mode (shiftedAll mode bits x n) (bits n)

/-- Once k + 1 bits have come in, stage k holds the bit that came in k edges ago, whatever stood there before. -/
theorem getLsbD_shiftedAll (mode : LatchMode) (bits : Nat → Bool) (x : ExtReg) {n k : Nat} (hk : k < 8) (hn : k < n) :
    (shiftedAll mode bits x n).sr.getLsbD k = bits (n - 1 - k) := by
  induction n generalizing k with
  | zero => omega
  | succ n ih =>
    rw [shiftedAll, shifted_sr, getLsbD_shiftIn _ _ hk]
    split
    · next h => simp [h]
    · next h =>
      rw [ih (by omega) (by omega)]
      congr 1
      omega

/-- Under DIRECT no shift edge writes the storage. -/
theorem shiftedAll_direct_latch (bits : Nat → Bool) (x : ExtReg) (n : Nat) :
    (shiftedAll .direct bits x n).latch = x.latch := by
  induction n with
  | zero => rfl
  | succ n ih => exact ih

/-- Under LAGGED the storage takes the stages as they were before the edge. -/
theorem shiftedAll_lagged_latch (bits : Nat → Bool) (x : ExtReg) (n : Nat) :
    (shiftedAll .lagged bits x (n + 1)).latch = (shiftedAll .lagged bits x n).sr := rfl

theorem getLsbD_reverse8 (v : Byte) {k : Nat} (hk : k < 8) : (reverse8 v).getLsbD k = v.getLsbD (7 - k) := by
  rw [reverse8, BitVec.getLsbD_reverse, BitVec.getMsbD, decide_eq_true hk, Bool.true_and]

theorem ExtReg.ext_fields {x y : ExtReg} (hsr : x.sr = y.sr) (hlatch : x.latch = y.latch) : x = y := by
  cases x
  cases y
  exact congrArg₂ ExtReg.mk hsr hlatch

@[simp] theorem extAfterFrame_sr (mode : LatchMode) (v old : Byte) :
    (extAfterFrame mode v old).sr = reverse8 v <<< 1 := rfl

/-- Nine shift edges of a value's slots overwrite the register (60_exceptions.md R175). -/
theorem shiftedAll_frame (mode : LatchMode) (v : Byte) (x : ExtReg) :
    shiftedAll mode (slotBit v) x shiftClocks = extAfterFrame mode v x.latch := by
  refine ExtReg.ext_fields (BitVec.eq_of_getLsbD_eq fun k hk => ?_) ?_
  · have hclocks : k < shiftClocks := Nat.lt_succ_of_lt hk
    rw [getLsbD_shiftedAll mode _ x hk hclocks, extAfterFrame_sr, BitVec.getLsbD_shiftLeft, slotBit, shiftClocks]
    cases k with
    | zero => simp
    | succ k =>
      rw [Nat.add_sub_cancel, getLsbD_reverse8 v (by omega)]
      simp [hk, show 8 - (k + 1) = 7 - k by omega]
  · cases mode with
    | lagged =>
      refine BitVec.eq_of_getLsbD_eq fun k hk => ?_
      rw [shiftClocks, shiftedAll_lagged_latch, getLsbD_shiftedAll _ _ x hk hk, slotBit]
      exact (getLsbD_reverse8 v hk).symm
    | direct => exact shiftedAll_direct_latch _ x shiftClocks

/-- What a register's outputs carry after a frame depends on the value alone (60_exceptions.md R175). -/
theorem extOut_extAfterFrame (mode : LatchMode) (v old : Byte) :
    extOut mode (extAfterFrame mode v old) = frameOutputs mode v := by
  cases mode <;> rfl

/-! ## A frame's events -/

@[simp] theorem serOf_ne_clkOf (r : Reg) : serOf r ≠ clkOf r := by cases r <;> decide
@[simp] theorem serOf_ne_clrOf (r : Reg) : serOf r ≠ clrOf r := by cases r <;> decide
@[simp] theorem clkOf_ne_clrOf (r : Reg) : clkOf r ≠ clrOf r := by cases r <;> decide

@[simp] theorem clkOf_ne_serOf (r : Reg) : clkOf r ≠ serOf r := (serOf_ne_clkOf r).symm
@[simp] theorem clrOf_ne_serOf (r : Reg) : clrOf r ≠ serOf r := (serOf_ne_clrOf r).symm
@[simp] theorem clrOf_ne_clkOf (r : Reg) : clrOf r ≠ clkOf r := (clkOf_ne_clrOf r).symm

@[simp] theorem envPoint_ext (s : State) (r : Reg) : (envPoint s).ext r = s.ext r := by
  cases r <;> simp [State.ext]

theorem complete_ext (s : State) (r : Reg) : (complete s).ext r = s.ext r := by
  cases r <;> simp [State.ext]

theorem drive_ext (o : Out) (v : Bool) (s : State) (r : Reg) :
    (drive o v s).ext r = extWrite s.cfg.latchMode s.sig s.log r o v (s.ext r) := by
  cases r <;> rfl

/-- The register's clock line is low and its clear line high: what every slot of a frame begins with and leaves. -/
def ReadyToShift (r : Reg) (s : State) : Prop := s.sig.get (clkOf r) = some false ∧ s.sig.get (clrOf r) = some true

/-- A slot of a frame is one shift edge with the slot's bit on the data line. -/
theorem after_slot {r : Reg} {s : State} (v : Byte) (i : Nat) (h : ReadyToShift r s) :
    ReadyToShift r (after (slotMicros r v i) s) ∧
      (after (slotMicros r v i) s).ext r = shifted s.cfg.latchMode (s.ext r) (slotBit v i) := by
  obtain ⟨hclk, hclr⟩ := h
  refine ⟨⟨?_, ?_⟩, ?_⟩
  · simp [slotMicros, after, recordEvent_w]
  · simp [slotMicros, after, recordEvent_w, hclr]
  · simp [slotMicros, after, recordEvent_w, drive_ext, extWrite_idle, extWrite_clk_rising, serialBit, hclk, hclr]

/-- n slots of a frame are n shift edges. -/
theorem after_slots {r : Reg} {s : State} (v : Byte) (h : ReadyToShift r s) (n : Nat) :
    ReadyToShift r (after ((List.range n).flatMap (slotMicros r v)) s) ∧
      (after ((List.range n).flatMap (slotMicros r v)) s).ext r =
        shiftedAll s.cfg.latchMode (slotBit v) (s.ext r) n := by
  induction n with
  | zero => exact ⟨h, rfl⟩
  | succ n ih =>
    obtain ⟨hready, hext⟩ := ih
    rw [List.range_succ, List.flatMap_append, List.flatMap_singleton, after_append, shiftedAll, ← hext]
    simpa using after_slot v n hready

/-- A frame overwrites its register, whatever stood there, if the clock line begins at its idle level 0
(60_exceptions.md R175, log 11). -/
theorem after_frame_ext {r : Reg} {s : State} (v : Byte) (hclk : s.sig.get (clkOf r) = some false) :
    (after (frameMicros r v) s).ext r = extAfterFrame s.cfg.latchMode v (s.ext r).latch := by
  rw [frameMicros, after_append]
  have hready : ReadyToShift r (after [.ev (.w (clrOf r) false), .ev (.w (clrOf r) true)] s) := by
    simp [ReadyToShift, after, recordEvent_w, hclk]
  rw [(after_slots v hready shiftClocks).2, shiftedAll_frame]
  simp [after, recordEvent_w, drive_ext, extWrite]

/-! ## DISPINT's lines -/

/-- A frame writes its register's serial lines alone (41_shift_register_driver.md R94). -/
theorem frameTrace_writes {r : Reg} {v : Byte} {o : Out} {level : Bool} (h : Event.w o level ∈ frameTrace r v) :
    o ∈ [clrOf r, serOf r, clkOf r] := by
  simp only [frameTrace, List.mem_append, List.mem_flatMap, List.mem_cons, Event.w.injEq, List.not_mem_nil,
    or_false] at h
  obtain (⟨rfl, -⟩ | ⟨rfl, -⟩) | ⟨bit, -, ⟨rfl, -⟩ | ⟨rfl, -⟩ | ⟨rfl, -⟩⟩ := h <;> simp

/-- The indicator half of `display_int` writes the indicators alone (42_segment_encoder.md R102). -/
theorem indicatorMicros_writes {number : Byte} {o : Out} {level : Bool}
    (h : Event.w o level ∈ eventsOf (indicatorMicros number)) : o ∈ [Out.h1, .h2] := by
  simp only [indicatorMicros, eventsOf_append, List.mem_append] at h
  obtain (h | h) | h := h
  · simp only [eventsOf, List.mem_cons, Event.w.injEq, List.not_mem_nil, or_false] at h
    obtain ⟨rfl, -⟩ | ⟨rfl, -⟩ := h <;> simp
  · split at h <;> simp_all [eventsOf]
  · split at h <;> simp_all [eventsOf]

/-- The outputs DISPINT writes (42_segment_encoder.md R107). -/
theorem displayTrace_writes {p : Params} {number : Byte} {place : Place} {o : Out} {level : Bool}
    (h : Event.w o level ∈ displayTrace p number place) : o ∈ [Out.h1, .h2, .clrS, .serS, .clkS] := by
  rw [← eventsOf_display, displayMicros, patternMicros_digit, eventsOf_append, eventsOf_frame, List.mem_append] at h
  exact List.mem_append.2 (h.imp indicatorMicros_writes frameTrace_writes)

/-- The SEG register's outputs after DISPINT carry the pattern of the digit. -/
theorem after_display_extS {s : State} (number : Byte) (place : Place) (hclk : s.sig.clkS = some false) :
    extOut s.cfg.latchMode (after (displayMicros s.cfg number place) s).extS =
      frameOutputs s.cfg.latchMode (sentPattern s.cfg number place) := by
  rw [displayMicros, patternMicros_digit, after_append]
  have hidle : (after (indicatorMicros number) s).sig.get (clkOf .seg) = some false := by
    rw [after_sig, levelsAfter_get_of_not_written]
    · exact hclk
    · intro o v h
      have ho := indicatorMicros_writes h
      rintro rfl
      exact absurd ho (by decide)
  have hframe := after_frame_ext (sentPattern s.cfg number place) hidle
  rw [after_cfg] at hframe
  exact (congrArg (extOut s.cfg.latchMode) hframe).trans (extOut_extAfterFrame ..)

/-! ## What is lit -/

theorem segmentLit_iff (s : State) (x : Place) (segment : Nat) :
    segmentLit s x segment = true ↔
      s.sig.oeS = some false ∧ s.sig.get (anodeOf x) = some s.cfg.anodeOn ∧
        ∃ k, k < 8 ∧ s.cfg.segWiring[k]? = some segment ∧ (extOut s.cfg.latchMode s.extS).getLsbD k = false := by
  by_cases hoe : s.sig.oeS = some false
  · have hshown : shownOutputs s .seg = some (extOut s.cfg.latchMode s.extS) := if_pos hoe
    simp only [segmentLit, hshown, hoe, anodeAsserted, wiredTo]
    simp
  · have hdark : shownOutputs s .seg = none := if_neg hoe
    simp only [segmentLit, hdark, hoe, false_and, Bool.false_eq_true]

/-- Output k of the SEG register is at 0, which lights a segment, where a 1 of the table's entry reaches it. -/
theorem frameOutputs_complement_eq_false (mode : LatchMode) (entry : Byte) {k : Nat} (hk : k < 8) :
    (frameOutputs mode (~~~entry)).getLsbD k = false ↔
      mode = .lagged ∧ entry.getLsbD (7 - k) = true ∨
        mode = .direct ∧ (k = 0 ∨ entry.getLsbD (8 - k) = true) := by
  cases mode with
  | lagged =>
    have hin : 7 - k < 8 := by omega
    rw [frameOutputs, getLsbD_reverse8 _ hk, BitVec.getLsbD_not]
    simp [hin]
  | direct =>
    rw [frameOutputs, BitVec.getLsbD_shiftLeft]
    cases k with
    | zero => simp
    | succ k =>
      have hin : 7 - k < 8 := by omega
      rw [Nat.add_sub_cancel, getLsbD_reverse8 _ (Nat.lt_of_succ_lt hk), BitVec.getLsbD_not]
      simp [hk, hin, show 8 - (k + 1) = 7 - k by omega]

/-- Settles O47: DISPINT leaves OE_S and the anodes, and the SEG register's outputs carry the entry's complement. -/
theorem segmentsShowTheTableEntry : Obligations.SegmentsShowTheTableEntry := by
  intro number entry place x segment s hinit hclk hentry
  obtain ⟨t, hexec, -, hkeeps, -, -, hsig, ht⟩ :=
    requireInit_plain (.dispint number place) (plain_display s.cfg number place) hinit
  refine ⟨t, hexec, ?_⟩
  have hkept (o : Out) (ho : o ∉ [Out.h1, .h2, .clrS, .serS, .clkS]) : t.sig.get o = s.sig.get o := by
    rw [hsig, eventsOf_display]
    refine levelsAfter_get_of_not_written _ _ _ fun p v hmem heq => ho (heq ▸ displayTrace_writes hmem)
  have hoe : t.sig.oeS = s.sig.oeS := hkept .oeS (by decide)
  have hanode : t.sig.get (anodeOf x) = s.sig.get (anodeOf x) := hkept _ (by cases x <;> decide)
  have hout : extOut s.cfg.latchMode t.extS = frameOutputs s.cfg.latchMode (~~~entry) := by
    rw [ht, complete_extS, after_display_extS number place hclk, sentPattern, hentry, Option.getD_some]
  rw [segmentLit_iff, hkeeps.cfg, hoe, hanode, hout]
  refine and_congr_right' (and_congr_right' (exists_congr fun k => and_congr_right fun hk => and_congr_right' ?_))
  exact frameOutputs_complement_eq_false _ entry hk

end Sys2Proof.Machine
end

section
/-! PROOFS. The hand-built pass (30_encoding.md R87): commands run with nothing to come from the environment do to the
state what their events do, one after the other. -/

namespace Sys2Proof.Machine

open Sys2Proof

/-! ## Events without interrupts -/

/-- The state with its phase and command pointer put elsewhere. -/
def State.movedTo (s : State) (p : Phase) (n : Nat) : State := { s with phase := p, pc := n }

/-- The main agent's events alone, oldest first. -/
def emit (l : List Event) (s : State) : State := l.foldl (fun t e => recordEvent e t) s

theorem emit_append (a b : List Event) (s : State) : emit (a ++ b) s = emit b (emit a s) := List.foldl_append

/-- Events neither read nor write `phase` and `pc`. -/
theorem emit_movedTo (l : List Event) (s : State) (p : Phase) (n : Nat) :
    emit l (s.movedTo p n) = (emit l s).movedTo p n := by
  induction l generalizing s with
  | nil => rfl
  | cons e rest ih =>
    have hstep : recordEvent e (s.movedTo p n) = (recordEvent e s).movedTo p n := by cases e <;> rfl
    exact (congrArg (emit rest) hstep).trans (ih _)

/-- What no event writes. -/
theorem emit_keeps {α : Type} (field : State → α) (h : ∀ e s, field (recordEvent e s) = field s) (l : List Event)
    (s : State) : field (emit l s) = field s := by
  induction l generalizing s with
  | nil => rfl
  | cons e rest ih => exact (ih _).trans (h e s)

@[simp] theorem emit_phase (l : List Event) (s : State) : (emit l s).phase = s.phase :=
  emit_keeps State.phase recordEvent_phase l s

@[simp] theorem emit_pc (l : List Event) (s : State) : (emit l s).pc = s.pc :=
  emit_keeps State.pc recordEvent_pc l s

@[simp] theorem emit_initialised (l : List Event) (s : State) : (emit l s).initialised = s.initialised :=
  emit_keeps State.initialised recordEvent_initialised l s

@[simp] theorem emit_fault (l : List Event) (s : State) : (emit l s).fault = s.fault :=
  emit_keeps State.fault recordEvent_fault l s

@[simp] theorem emit_env (l : List Event) (s : State) : (emit l s).env = s.env :=
  emit_keeps State.env recordEvent_env l s

@[simp] theorem emit_cfg (l : List Event) (s : State) : (emit l s).cfg = s.cfg :=
  emit_keeps State.cfg recordEvent_cfg l s

/-- With nothing to come from the environment, a plain list does what its events and phase writes do. -/
theorem after_of_env_nil {ms : List Micro} (h : Plain ms) {s : State} (henv : s.env = []) :
    after ms s = (emit (eventsOf ms) s).movedTo (phaseOf ms s.phase) s.pc := by
  induction ms generalizing s with
  | nil => rfl
  | cons m rest ih =>
    cases m with
    | ev e =>
      rw [plain_ev_cons] at h
      rw [after, envPoint_of_nil henv, ih h.2 (by simp [henv]), recordEvent_phase, recordEvent_pc]
      rfl
    | phase p =>
      rw [plain_phase_cons] at h
      calc after rest (s.movedTo p s.pc)
        _ = (emit (eventsOf rest) (s.movedTo p s.pc)).movedTo (phaseOf rest p) s.pc := ih h henv
        _ = (emit (eventsOf rest) s).movedTo (phaseOf rest p) s.pc := by rw [emit_movedTo]; rfl
    | irqOn | initDone | countUp | raise => simp [Plain.cons_iff] at h

/-- A command made of a plain list, with nothing to come from the environment. -/
theorem requireInit_of_env_nil (i : Instr) {ms : List Micro} (h : Plain ms) {s : State} (hinit : s.initialised = true)
    (henv : s.env = []) :
    requireInit i (play ms) s = .next ((emit (eventsOf ms) s).movedTo (phaseOf ms s.phase) (s.pc + 1)) := by
  obtain ⟨t, hrun, -, -, -, -, -, rfl⟩ := requireInit_plain i h hinit
  rw [hrun, complete, envPoint_of_nil (by simp [henv]), after_of_env_nil h henv]
  rfl

/-! ## Commands in a row -/

theorem execAll_append {a : List Instr} {s t : State} (h : execAll a s = .next t) (hf : t.fault = none)
    (b : List Instr) : execAll (a ++ b) s = execAll b t := by
  induction a generalizing s with
  | nil =>
    obtain rfl : s = t := by injection h
    rfl
  | cons i rest ih =>
    obtain ⟨u, hu, -⟩ := exec_cases i s
    simp only [execAll, List.cons_append, hu] at h ⊢
    split at h
    · next hnone => rw [if_pos hnone, ih h]
    · next hsome =>
      injection h with hut
      exact absurd (hut ▸ hf) hsome

/-- Under configuration p, and with nothing to come from the environment, the commands `is` do to a ready state what the
events l do, and move `pc` past themselves. -/
def Emits (p : Params) (is : List Instr) (l : List Event) : Prop :=
  ∀ s : State, s.initialised = true → s.fault = none → s.env = [] → s.cfg = p →
    execAll is s = .next ((emit l s).movedTo s.phase (s.pc + is.length))

theorem Emits.append {p : Params} {a b : List Instr} {l m : List Event} (ha : Emits p a l) (hb : Emits p b m) :
    Emits p (a ++ b) (l ++ m) := by
  intro s hinit hfault henv hcfg
  have hrest := hb ((emit l s).movedTo s.phase (s.pc + a.length)) ((emit_initialised l s).trans hinit)
    ((emit_fault l s).trans hfault) ((emit_env l s).trans henv) ((emit_cfg l s).trans hcfg)
  rw [execAll_append (ha s hinit hfault henv hcfg) ((emit_fault l s).trans hfault), hrest, emit_movedTo, emit_append,
    List.length_append, ← Nat.add_assoc]
  rfl

/-- A command that plays a list of events emits them. -/
theorem emits_of_requireInit {p : Params} {i : Instr} {l : List Event} (hl : ∀ e ∈ l, e.isAck = false)
    (h : ∀ s : State, s.cfg = p → exec i s = requireInit i (play (l.map .ev)) s) : Emits p [i] l := by
  intro s hinit hfault henv hcfg
  have hrun := requireInit_of_env_nil i (plain_map_ev hl) hinit henv
  rw [eventsOf_map_ev, phaseOf_map_ev] at hrun
  simp only [execAll, h s hcfg, hrun]
  exact if_pos ((emit_fault l s).trans hfault)

theorem outOfField_fieldOf (o : Out) : outOfField (fieldOf o) = some o := by cases o <;> rfl

theorem pinWrite_of_output (i : Instr) {sig : BitVec 4} {o : Out} (v : Bool) (s : State) (h : outOfField sig = some o) :
    pinWrite i sig v s = requireInit i (play [.ev (.w o v)]) s := by
  rw [pinWrite, h]

theorem emits_pinTo (p : Params) (o : Out) (v : Bool) : Emits p [pinTo o v] [.w o v] := by
  refine emits_of_requireInit (by simp [Event.isAck]) fun s _ => ?_
  cases v with
  | true => exact pinWrite_of_output (.pinset (fieldOf o)) true s (outOfField_fieldOf o)
  | false => exact pinWrite_of_output (.pinclr (fieldOf o)) false s (outOfField_fieldOf o)

theorem emits_delay (p : Params) (n : BitVec 12) : Emits p [.delay n] [.d n.toNat] :=
  emits_of_requireInit (by simp [Event.isAck]) fun _ _ => rfl

theorem emits_dispint (p : Params) (number : Byte) (place : Place) :
    Emits p [.dispint number place] (displayTrace p number place) := by
  refine emits_of_requireInit (displayTrace_no_ack p number place) fun s hcfg => ?_
  rw [← displayMicros_eq, ← hcfg]
  rfl

theorem emits_flash (p : Params) : Emits p (expand p.anodeOn .flash) [.w .oeS false, .d 1, .w .oeS true] :=
  (emits_pinTo p .oeS false).append ((emits_delay p 1#12).append (emits_pinTo p .oeS true))

theorem emits_selOnes (p : Params) :
    Emits p (expand p.anodeOn .selOnes) [.w .anTens (!p.anodeOn), .w .anOnes p.anodeOn] :=
  (emits_pinTo p .anTens _).append (emits_pinTo p .anOnes _)

theorem emits_selTens (p : Params) :
    Emits p (expand p.anodeOn .selTens) [.w .anOnes (!p.anodeOn), .w .anTens p.anodeOn] :=
  (emits_pinTo p .anOnes _).append (emits_pinTo p .anTens _)

/-- One pass written with pseudo-instructions (30_encoding.md R87). -/
def handBuiltPass (anodeOn : Bool) (number : Byte) : List Instr :=
  expand anodeOn .selOnes ++ [.dispint number .ones] ++ expand anodeOn .flash
    ++ expand anodeOn .selTens ++ [.dispint number .tens] ++ expand anodeOn .flash

theorem handBuiltPass_length (anodeOn : Bool) (number : Byte) : (handBuiltPass anodeOn number).length = 12 := rfl

theorem emits_handBuiltPass (p : Params) (number : Byte) :
    Emits p (handBuiltPass p.anodeOn number) (passTrace p number) :=
  (((((emits_selOnes p).append (emits_dispint p number .ones)).append (emits_flash p)).append
    (emits_selTens p)).append (emits_dispint p number .tens)).append (emits_flash p)

/-- Settles O30: both emit the events of one pass; MUXPASS is one command and writes `phase`, the pass built by hand is
twelve and does not. -/
theorem handBuiltPassEqualsMuxpass : Obligations.HandBuiltPassEqualsMuxpass := by
  intro number s hinit hfault henv
  have hhand := emits_handBuiltPass s.cfg number s hinit hfault henv rfl
  have hmux := requireInit_of_env_nil (.muxpass number) (plain_pass s.cfg number) hinit henv
  rw [handBuiltPass_length] at hhand
  rw [eventsOf_pass, phaseOf_pass] at hmux
  generalize emit (passTrace s.cfg number) s = passed at hhand hmux
  exact ⟨_, _, hhand, hmux, rfl, rfl⟩

end Sys2Proof.Machine
end

section
/-! PROOFS. SHIFTOUT: the frame it shows, the lines it leaves, and all that it leaves unchanged
(41_shift_register_driver.md R91 to R97). -/

namespace Sys2Proof.Machine

open Sys2Proof

/-! ## The levels a frame leaves -/

theorem levelsAfter_frame_clr (l : Levels) (r : Reg) (v : Byte) :
    (levelsAfter l (frameTrace r v)).get (clrOf r) = some true := by
  simp [frameTrace]

theorem levelsAfter_frame_clk (l : Levels) (r : Reg) (v : Byte) :
    (levelsAfter l (frameTrace r v)).get (clkOf r) = some false := by
  simp [frameTrace]

/-- The ninth slot carries bit 8 of the value, which is 0 (30_encoding.md R73). -/
theorem levelsAfter_frame_ser (l : Levels) (r : Reg) (v : Byte) :
    (levelsAfter l (frameTrace r v)).get (serOf r) = some false := by
  simp [frameTrace]

theorem levelsAfter_frame_other (l : Levels) {r : Reg} (v : Byte) {o : Out} (ho : o ∉ [clrOf r, serOf r, clkOf r]) :
    (levelsAfter l (frameTrace r v)).get o = l.get o :=
  levelsAfter_get_of_not_written _ _ _ fun _ _ hmem heq => ho (heq ▸ frameTrace_writes hmem)

/-! ## A register's serial lines -/

theorem writesLines_w {r : Reg} {o : Out} {v : Bool} :
    writesLines r (.w o v) ↔ o ∈ [clrOf r, serOf r, clkOf r] := by
  constructor
  · rintro ⟨p, u, heq, rfl | rfl | rfl⟩ <;> cases heq <;> simp
  · intro ho
    refine ⟨o, v, rfl, ?_⟩
    simp only [List.mem_cons, List.not_mem_nil, or_false] at ho
    tauto

theorem writesLines_of_mem_frameTrace {r : Reg} {v : Byte} {e : Event} (h : e ∈ frameTrace r v) : writesLines r e := by
  have hwrite : ∃ o level, e = .w o level := by
    simp only [frameTrace, List.mem_append, List.mem_flatMap, List.mem_cons, List.not_mem_nil, or_false] at h
    obtain (rfl | rfl) | ⟨bit, -, rfl | rfl | rfl⟩ := h <;> exact ⟨_, _, rfl⟩
  obtain ⟨o, level, rfl⟩ := hwrite
  exact writesLines_w.2 (frameTrace_writes h)

/-- The two registers share no serial line (10_state.md R20). -/
theorem serialLines_disjoint {q r : Reg} (h : q ≠ r) :
    ∀ o ∈ [clrOf q, serOf q, clkOf q], o ∉ [clrOf r, serOf r, clkOf r] := by
  match q, r, h with
  | .bin, .seg, _ => decide
  | .seg, .bin, _ => decide

/-- No event of a frame writes a serial line of the other register (41_shift_register_driver.md R94). -/
theorem not_writesLines_of_mem_frameTrace {q r : Reg} (hq : q ≠ r) {v : Byte} {e : Event} (h : e ∈ frameTrace r v) :
    ¬writesLines q e := by
  intro hw
  have ⟨o, level, heq, _⟩ := hw
  subst heq
  exact serialLines_disjoint hq o (writesLines_w.1 hw) (frameTrace_writes h)

/-- An event of the trace that writes a serial line is the main agent's: an acknowledge writes none. -/
theorem mem_mainEvents_of_writesLines {q : Reg} {e : Event} {l : List Event} (hmem : e ∈ l) (h : writesLines q e) :
    e ∈ mainEvents l := by
  obtain ⟨o, v, rfl, -⟩ := h
  simpa [mainEvents, Event.isAck] using hmem

/-! ## What leaves an external register alone -/

/-- An event that writes no serial line of a register leaves its contents (60_exceptions.md R173). -/
theorem recordEvent_ext_of_not_writesLines {q : Reg} {e : Event} (h : ¬writesLines q e) (s : State) :
    (recordEvent e s).ext q = s.ext q := by
  cases e with
  | w o v =>
    rw [writesLines_w] at h
    rw [recordEvent_w, drive_ext]
    refine extWrite_idle _ _ _ _ _ (fun ho => absurd ?_ h) (fun ho => absurd ?_ h) <;> simp [ho]
  | d | e | cfg | ien | a => cases q <;> rfl

theorem after_ext_of_not_writesLines {q : Reg} {ms : List Micro} (h : ∀ e ∈ eventsOf ms, ¬writesLines q e) (s : State) :
    (after ms s).ext q = s.ext q := by
  induction ms generalizing s with
  | nil => rfl
  | cons m rest ih =>
    cases m with
    | ev e =>
      rw [after, ih (fun x hx => h x (List.mem_cons_of_mem _ hx)),
        recordEvent_ext_of_not_writesLines (h e List.mem_cons_self), envPoint_ext]
    | phase | irqOn | initDone | countUp | raise => exact (ih h _).trans (by cases q <;> rfl)

/-! ## SHIFTOUT -/

/-- An initialised SHIFTOUT plays its frame to the end (41_shift_register_driver.md R91). -/
theorem exec_shiftout (r : Reg) (value : Byte) {s : State} (hinit : s.initialised = true) :
    exec (.shiftout r value) s = .next (complete (after (frameMicros r value) s)) := by
  obtain ⟨t, hexec, -, -, -, -, -, rfl⟩ := requireInit_plain (.shiftout r value) (plain_frame r value) hinit
  exact hexec

/-- The other register's contents stay (41_shift_register_driver.md R94). -/
theorem complete_after_frame_ext_other {q r : Reg} (hq : q ≠ r) (value : Byte) (s : State) :
    (complete (after (frameMicros r value) s)).ext q = s.ext q := by
  rw [complete_ext, after_ext_of_not_writesLines]
  rw [eventsOf_frame]
  exact fun e he => not_writesLines_of_mem_frameTrace hq he

theorem complete_after_frame_sig (r : Reg) (value : Byte) (s : State) :
    (complete (after (frameMicros r value) s)).sig = levelsAfter s.sig (frameTrace r value) := by
  rw [complete_sig, after_sig, eventsOf_frame]

/-- Settles O20: the list of a SHIFTOUT is the frame's events, and a plain list shows its events and completes. -/
theorem shiftoutShowsItsFrame : Obligations.ShiftoutShowsItsFrame := by
  intro r value s hinit
  obtain ⟨t, hexec, hpc, -, -, happended, -, -⟩ := requireInit_plain (.shiftout r value) (plain_frame r value) hinit
  have hshows := happended.shows
  rw [eventsOf_frame] at hshows
  exact ⟨t, hexec, hshows, hpc⟩

/-- Settles O21: a plain list keeps the control state, and the frame's events write three lines. -/
theorem shiftoutFrame : Obligations.ShiftoutFrame := by
  intro r value s hinit
  obtain ⟨t, hexec, -, hkeeps, hpassed, -, hsig, rfl⟩ :=
    requireInit_plain (.shiftout r value) (plain_frame r value) hinit
  rw [eventsOf_frame] at hpassed hsig
  refine ⟨_, hexec, ?_, ?_, ?_, ?_, hkeeps, ?_, hpassed, fun q hq => complete_after_frame_ext_other hq value s⟩
  · rw [hsig, levelsAfter_frame_clr]
  · rw [hsig, levelsAfter_frame_clk]
  · rw [hsig, levelsAfter_frame_ser]
  · intro o ho
    rw [hsig, levelsAfter_frame_other _ _ fun hmem => ho (by simp only [List.mem_cons] at hmem ⊢; tauto)]
  · rw [complete_phase, after_phase, frameMicros_eq, phaseOf_map_ev]

/-- Settles O22: before INIT a SHIFTOUT shows no event and changes the fault record alone; after INIT its main events are
the frame's, and the registers share no line. -/
theorem shiftoutWritesItsOwnLinesAlone : Obligations.ShiftoutWritesItsOwnLinesAlone := by
  intro r value s t new hexec hnew
  cases hinit : s.initialised with
  | false =>
    obtain rfl : raiseFault (.notInitialised (encode (.shiftout r value))) s = t :=
      Host.Outcome.next.inj ((requireInit_uninitialised _ _ hinit).symm.trans hexec)
    obtain rfl : new = [] := List.append_right_eq_self.1 (hnew.symm.trans (trace_of_log rfl))
    exact ⟨by simp, fun q _ => ⟨by simp, rfl, rfl, rfl, by cases q <;> rfl⟩⟩
  | true =>
    have hmain := mainEvents_of_shiftout hinit hexec hnew
    obtain rfl := Host.Outcome.next.inj ((exec_shiftout r value hinit).symm.trans hexec)
    refine ⟨fun e he => writesLines_of_mem_frameTrace (hmain ▸ he), fun q hq => ?_⟩
    have hline (o : Out) (ho : o ∈ [clrOf q, serOf q, clkOf q]) :
        (complete (after (frameMicros r value) s)).sig.get o = s.sig.get o := by
      rw [complete_after_frame_sig, levelsAfter_frame_other _ _ (serialLines_disjoint hq o ho)]
    refine ⟨fun e he hw => ?_, hline _ (by simp), hline _ (by simp), hline _ (by simp),
      complete_after_frame_ext_other hq value s⟩
    exact not_writesLines_of_mem_frameTrace hq (hmain ▸ mem_mainEvents_of_writesLines he hw) hw

/-- Settles O24: with the clock line at 0 before, the frame's nine pulses are nine shift edges. -/
theorem shiftoutOverwritesTheRegister : Obligations.ShiftoutOverwritesTheRegister := by
  intro r value s hinit hclk
  have hext : (complete (after (frameMicros r value) s)).ext r =
      extAfterFrame s.cfg.latchMode value (s.ext r).latch := by
    rw [complete_ext, after_frame_ext value hclk]
  have hcfg : (complete (after (frameMicros r value) s)).cfg = s.cfg := by
    rw [(complete_keepsControl _).cfg, after_cfg]
  refine ⟨_, exec_shiftout r value hinit, hext, ?_⟩
  rw [hext, hcfg, extOut_extAfterFrame]

end Sys2Proof.Machine
end

section
/-! PROOFS. DISPINT: the events it shows, the levels it leaves, and all that it leaves unchanged (42_segment_encoder.md R101
to R107); how many events the commands of the display append (R106, 43_display_multiplexer.md R121, R126,
44_coordinator.md R134). -/

namespace Sys2Proof.Machine

open Sys2Proof

/-! ## A command that completes -/

/-- After INIT a legal command but INIT completes: each of its faults needs one of the premises to fail. -/
theorem exec_completes {i : Instr} {s : State} (hw : i.WellFormed) (hn : i ≠ .init) (hinit : s.initialised = true) :
    ∃ t, exec i s = .next t ∧ Completed i s t := by
  obtain ⟨t, hexec, ⟨k, -, hwhy⟩ | hc⟩ := exec_cases i s
  · obtain ⟨-, hill⟩ | ⟨-, -, -, hnot⟩ | ⟨-, his, -⟩ | ⟨p, -, his, -⟩ := hwhy
    · exact absurd hw hill
    · simp [hinit] at hnot
    · exact absurd his hn
    · exact absurd his hn
  · exact ⟨t, hexec, hc⟩

theorem Completed.shows {i : Instr} {s t : State} (h : Completed i s t) : Shows (commandTrace i s) s t := by
  obtain ⟨new, htrace, hmain, -⟩ := h.grew
  exact ⟨new, htrace, hmain⟩

/-- How many events the main agent appends in a command that completes. -/
theorem exec_eventCount {i : Instr} {s : State} (hw : i.WellFormed) (hn : i ≠ .init) (hinit : s.initialised = true) :
    ∃ (t : State) (new : List Event), exec i s = .next t ∧ t.trace = s.trace ++ new ∧
      (mainEvents new).length = (commandTrace i s).length := by
  obtain ⟨t, hexec, hc⟩ := exec_completes hw hn hinit
  obtain ⟨new, htrace, hmain⟩ := hc.shows
  exact ⟨t, new, hexec, htrace, congrArg List.length hmain⟩

/-! ## What DISPINT shows -/

/-- The pattern sent is the complement of the table's entry (30_encoding.md R66). -/
theorem sentPattern_of_entry {p : Params} {number : Byte} {place : Place} {entry : Byte}
    (h : segTable p.seg (digitShown number place) = some entry) : sentPattern p number place = ~~~entry := by
  rw [sentPattern, h, Option.getD_some]

/-- Settles O26: the digit is in the table, and the events of a completed DISPINT are `display_int`'s. -/
theorem dispintShowsIndicatorsThenPattern : Obligations.DispintShowsIndicatorsThenPattern := by
  intro number place s hinit
  obtain ⟨entry, hentry⟩ := segTable_isSome s.cfg.seg (digitShown_le number place)
  obtain ⟨t, hexec, hc⟩ := exec_completes (i := .dispint number place) rfl (by simp) hinit
  refine ⟨t, entry, hexec, hentry, ?_, hc.pc⟩
  rw [← sentPattern_of_entry hentry]
  exact hc.shows

/-! ## The levels DISPINT leaves -/

section levels
variable (l : Levels) (p : Params) (number : Byte) (place : Place)

/-- H1 is cleared, then set from 200 on (42_segment_encoder.md R101, R102); the frame does not write it. -/
theorem levelsAfter_display_h1 :
    (levelsAfter l (displayTrace p number place)).get .h1 = some (decide (200 ≤ number.toNat)) := by
  rw [displayTrace, levelsAfter_append, levelsAfter_frame_other _ _ (by decide)]
  by_cases h : 200 ≤ number.toNat
  · have h100 : 100 ≤ number.toNat := by omega
    simp [h, h100]
  · by_cases h100 : 100 ≤ number.toNat <;> simp [h, h100]

/-- H2 is cleared, then set from 100 on (42_segment_encoder.md R101, R102); the frame does not write it. -/
theorem levelsAfter_display_h2 :
    (levelsAfter l (displayTrace p number place)).get .h2 = some (decide (100 ≤ number.toNat)) := by
  rw [displayTrace, levelsAfter_append, levelsAfter_frame_other _ _ (by decide), levelsAfter_append]
  by_cases h : 100 ≤ number.toNat
  · simp [h]
  · have h200 : ¬200 ≤ number.toNat := by omega
    simp [h, h200]

theorem levelsAfter_display_serS : (levelsAfter l (displayTrace p number place)).get .serS = some false := by
  rw [displayTrace, levelsAfter_append]
  exact levelsAfter_frame_ser _ .seg _

theorem levelsAfter_display_clkS : (levelsAfter l (displayTrace p number place)).get .clkS = some false := by
  rw [displayTrace, levelsAfter_append]
  exact levelsAfter_frame_clk _ .seg _

theorem levelsAfter_display_clrS : (levelsAfter l (displayTrace p number place)).get .clrS = some true := by
  rw [displayTrace, levelsAfter_append]
  exact levelsAfter_frame_clr _ .seg _

theorem levelsAfter_display_other {o : Out} (ho : o ∉ [Out.h1, .h2, .clrS, .serS, .clkS]) :
    (levelsAfter l (displayTrace p number place)).get o = l.get o :=
  levelsAfter_get_of_not_written _ _ _ fun _ _ hmem heq => ho (heq ▸ displayTrace_writes hmem)

end levels

/-! ## What DISPINT makes of the external registers -/

/-- No event of `display_int` writes a serial line of BIN (42_segment_encoder.md R107). -/
theorem not_writesLines_bin_of_mem_displayTrace {p : Params} {number : Byte} {place : Place} {e : Event}
    (h : e ∈ displayTrace p number place) : ¬writesLines .bin e := by
  intro hw
  have ⟨o, v, heq, _⟩ := hw
  subst heq
  have hdisjoint : ∀ o ∈ [Out.h1, .h2, .clrS, .serS, .clkS], o ∉ [clrOf .bin, serOf .bin, clkOf .bin] := by decide
  exact hdisjoint o (displayTrace_writes h) (writesLines_w.1 hw)

/-- No event of the indicator half writes a serial line of a register (42_segment_encoder.md R102). -/
theorem not_writesLines_of_mem_indicators {r : Reg} {number : Byte} {e : Event}
    (h : e ∈ eventsOf (indicatorMicros number)) : ¬writesLines r e := by
  intro hw
  have ⟨o, v, heq, _⟩ := hw
  subst heq
  have hdisjoint : ∀ o ∈ [Out.h1, .h2], o ∉ [clrOf r, serOf r, clkOf r] := by cases r <;> decide
  exact hdisjoint o (indicatorMicros_writes h) (writesLines_w.1 hw)

theorem after_display_ext_bin (p : Params) (number : Byte) (place : Place) (s : State) :
    (after (displayMicros p number place) s).ext .bin = s.ext .bin := by
  apply after_ext_of_not_writesLines
  rw [eventsOf_display]
  exact fun _ => not_writesLines_bin_of_mem_displayTrace

/-- With the SEG clock line at 0 before, the SEG register holds the frame of the pattern (60_exceptions.md R175, log 11):
the indicator half touches neither the register nor its clock line. -/
theorem after_display_ext_seg {p : Params} {s : State} (number : Byte) (place : Place)
    (hclk : s.sig.get (clkOf .seg) = some false) :
    (after (displayMicros p number place) s).ext .seg =
      extAfterFrame s.cfg.latchMode (sentPattern p number place) (s.ext .seg).latch := by
  have hidle : (after (indicatorMicros number) s).sig.get (clkOf .seg) = some false := by
    rw [after_sig, levelsAfter_get_of_not_written, hclk]
    rintro o v hmem rfl
    exact absurd (indicatorMicros_writes hmem) (by decide)
  rw [displayMicros, patternMicros_digit, after_append, after_frame_ext _ hidle, after_cfg,
    after_ext_of_not_writesLines fun _ => not_writesLines_of_mem_indicators]

/-! ## How many events the display's commands append -/

/-- k of 42_segment_encoder.md R106 by the thresholds. -/
theorem hundredsCount_eq (number : Byte) :
    hundredsCount number = (decide (200 ≤ number.toNat)).toNat + (decide (100 ≤ number.toNat)).toNat := by
  rw [hundredsCount, decompose_h1, decompose_h2]

theorem displayTrace_length (p : Params) (number : Byte) (place : Place) :
    (displayTrace p number place).length = 31 + hundredsCount number := by
  have hset (c : Prop) [Decidable c] (e : Event) : (if c then [e] else []).length = (decide c).toNat := by
    split <;> simp [*]
  rw [hundredsCount_eq, displayTrace, List.length_append, List.length_append, List.length_append, hset, hset,
    frameTrace_length, List.length_cons, List.length_singleton]
  omega

/-- Each half of a pass has two anode writes, a display and the three events of a flash (43_display_multiplexer.md R121). -/
theorem passTrace_length (p : Params) (number : Byte) : (passTrace p number).length = 72 + 2 * hundredsCount number := by
  simp only [passTrace, List.length_append, displayTrace_length, List.length_cons, List.length_nil]
  omega

theorem binLoadTrace_length (number : Byte) : (binLoadTrace number).length = 29 + 1 := rfl

theorem shownTrace_length (p : Params) (number : Byte) (n : Nat) :
    (shownTrace p number n).length = n * (72 + 2 * hundredsCount number) + p.binOeRelease.toNat := by
  rw [shownTrace, List.length_append, List.length_flatten, List.map_replicate, List.sum_replicate_nat, passTrace_length]
  cases p.binOeRelease <;> rfl

/-- Settles O51: the four commands complete, and their traces have these lengths. -/
theorem displayCommandsEventCounts : Obligations.DisplayCommandsEventCounts := by
  intro number place s hinit
  obtain ⟨t, nt, ht, htrace, htlen⟩ := exec_eventCount (i := .dispint number place) rfl (by simp) hinit
  obtain ⟨u, nu, hu, hutrace, hulen⟩ := exec_eventCount (i := .muxpass number) rfl (by simp) hinit
  obtain ⟨v, nv, hv, hvtrace, hvlen⟩ := exec_eventCount (i := .dwell number) rfl (by simp) hinit
  obtain ⟨w, nw, hw, hwtrace, hwlen⟩ := exec_eventCount (i := .cycle) rfl (by simp) hinit
  refine ⟨t, u, v, w, nt, nu, nv, nw, ⟨ht, htrace, ?_⟩, ⟨hu, hutrace, ?_⟩, ⟨hv, hvtrace, ?_⟩, ⟨hw, hwtrace, ?_⟩⟩
  · rw [htlen, commandTrace, displayTrace_length]
  · rw [hulen, commandTrace, passTrace_length]
  · rw [hvlen, commandTrace, List.length_append, binLoadTrace_length, shownTrace_length]
    omega
  · rw [hwlen, commandTrace, List.length_cons, List.length_append, binLoadTrace_length, shownTrace_length]
    omega

/-! ## The frame of DISPINT -/

/-- Settles O27: a plain list keeps the control state; the events of `display_int` write five lines, none of BIN. -/
theorem dispintFrame : Obligations.DispintFrame := by
  intro number place s hinit
  obtain ⟨t, hexec, -, hkeeps, hpassed, -, hsig, ht⟩ :=
    requireInit_plain (.dispint number place) (plain_display s.cfg number place) hinit
  rw [eventsOf_display] at hpassed hsig
  rw [displayTrace_length, Nat.add_right_comm] at hpassed
  have hext (r : Reg) : t.ext r = (after (displayMicros s.cfg number place) s).ext r := by rw [ht, complete_ext]
  refine ⟨t, hexec, ?_, ?_, ?_, ?_, ?_, ?_, hkeeps, ?_, ?_, ?_, hpassed⟩
  · exact hsig ▸ levelsAfter_display_h1 ..
  · exact hsig ▸ levelsAfter_display_h2 ..
  · exact hsig ▸ levelsAfter_display_serS ..
  · exact hsig ▸ levelsAfter_display_clkS ..
  · exact hsig ▸ levelsAfter_display_clrS ..
  · intro o ho
    rw [hsig, levelsAfter_display_other _ _ _ _ fun hmem => ho (by simp only [List.mem_cons] at hmem ⊢; tauto)]
  · rw [ht, complete_phase, after_phase, displayMicros_eq, phaseOf_map_ev]
  · exact (hext .bin).trans (after_display_ext_bin ..)
  · exact fun hclk => (hext .seg).trans (after_display_ext_seg number place hclk)

end Sys2Proof.Machine
end

section
/-! PROOFS. What a command's events make of the levels and of the external registers, the interrupt agent's events among
them (00_scope.md R13, 60_exceptions.md R173, R175). -/

namespace Sys2Proof.Machine

open Sys2Proof

/-! ## What a command appends -/

/-- However the trace's growth is written, a command recorded a fault and appended nothing, or it completed and the main
agent appended the command's own events. -/
theorem exec_appends {i : Instr} {s t : State} {new : List Event} (h : exec i s = .next t)
    (hnew : t.trace = s.trace ++ new) :
    (new = [] ∧ ∃ k, t = raiseFault k s) ∨ (mainEvents new = commandTrace i s ∧ Completed i s t) := by
  obtain ⟨k, rfl, -⟩ | hc := exec_inversion h
  · exact .inl ⟨List.append_right_eq_self.1 (hnew.symm.trans (trace_of_log rfl)), k, rfl⟩
  · obtain ⟨grown, hgrown, hmain⟩ := hc.shows
    obtain rfl := List.append_cancel_left (hnew.symm.trans hgrown)
    exact .inr ⟨hmain, hc⟩

/-- A command other than INIT and CYCLE that completes keeps the control state. -/
theorem Completed.keepsControl {i : Instr} {s t : State} (h : Completed i s t) (hn : i ≠ .init) (hc : i ≠ .cycle) :
    KeepsControl s t := by
  refine ⟨?_, ?_, ?_, h.fault, h.cfg, h.stream⟩
  · rw [h.counter, if_neg hc]
  · rw [h.initialised, h.began_ready hn]
  · rw [h.irqEnabled, if_neg hn]

/-- What a trace of two parts begins with ends in the first part or in the second. -/
theorem prefix_append_cases {before a b : List Event} (h : before <+: a ++ b) :
    before <+: a ∨ ∃ c, before = a ++ c ∧ c <+: b := by
  obtain hin | ⟨c, rfl⟩ := List.prefix_or_prefix_of_prefix h (List.prefix_append a b)
  · exact .inl hin
  · exact .inr ⟨c, rfl, (List.prefix_append_right_inj a).1 h⟩

/-! ## Levels -/

/-- A level that stands after a trace stood before it, or the trace wrote it. -/
theorem levelsAfter_get_eq_some {l : Levels} {o : Out} {v : Bool} {a : List Event}
    (h : (levelsAfter l a).get o = some v) : l.get o = some v ∨ .w o v ∈ a := by
  induction a generalizing l with
  | nil => exact .inl h
  | cons e rest ih =>
    have hstep := (ih (l := levelsAfter l [e]) (by rwa [← levelsAfter_append])).imp_right (List.mem_cons_of_mem e)
    cases e with
    | w p u =>
      rw [levelsAfter_w, levelsAfter_nil, Levels.get_set] at hstep
      split at hstep
      · next hp => subst hp; exact .inr (by simpa [eq_comm] using hstep)
      · exact hstep
    | d | e | cfg | ien | a => exact hstep

/-- An output that a trace writes to one level alone stands at that level after it. -/
theorem levelsAfter_get_of_written {l : Levels} {o : Out} {v : Bool} {a : List Event} (hmem : .w o v ∈ a)
    (hno : .w o (!v) ∉ a) : (levelsAfter l a).get o = some v := by
  obtain ⟨u, hu⟩ := Option.ne_none_iff_exists'.1 (levelsAfter_get_ne_none (l := l) (.inr ⟨v, hmem⟩))
  obtain ⟨x, y, rfl⟩ := List.append_of_mem hmem
  rw [hu]
  rw [levelsAfter_append, levelsAfter_w] at hu
  obtain hset | hy := levelsAfter_get_eq_some hu
  · rw [← hset, Levels.get_set_same]
  · obtain rfl | hne := Bool.eq_or_eq_not u v
    · rfl
    · exact absurd (by simp [← hne, hy]) hno

/-- What holds throughout a trace holds at its end. -/
theorem Throughout.last {P : Levels → Prop} {l : Levels} {trace : List Event} (h : Throughout P l trace) :
    P (levelsAfter l trace) := h _ List.prefix_rfl

/-! ## The external registers by the main agent's events -/

theorem recordEvent_sig (e : Event) (s : State) : (recordEvent e s).sig = levelsAfter s.sig [e] := by cases e <;> rfl

theorem emit_cons (e : Event) (l : List Event) (s : State) : emit (e :: l) s = emit l (recordEvent e s) := rfl

theorem emit_sig (l : List Event) (s : State) : (emit l s).sig = levelsAfter s.sig l := by
  induction l generalizing s with
  | nil => rfl
  | cons e rest ih =>
    rw [emit_cons, ih, recordEvent_sig]
    exact (levelsAfter_append s.sig [e] rest).symm

/-- The reference model reads events as the machine records them. -/
theorem emit_outside (l : List Event) (s : State) :
    (emit l s).outside = Outside.readAll s.cfg.latchMode s.outside l := by
  induction l generalizing s with
  | nil => rfl
  | cons e rest ih =>
    have hread : (recordEvent e s).outside = Outside.read s.cfg.latchMode s.outside e := by cases e <;> rfl
    rw [emit_cons, ih, recordEvent_cfg, hread]
    rfl

theorem ext_of_outside {s t : State} (h : t.outside = s.outside) (r : Reg) : t.ext r = s.ext r := by
  cases r with
  | bin => exact congrArg Outside.extB h
  | seg => exact congrArg Outside.extS h

/-- Events that write no serial line of a register leave its contents. -/
theorem emit_ext_of_not_writesLines {r : Reg} {l : List Event} (h : ∀ e ∈ l, ¬writesLines r e) (s : State) :
    (emit l s).ext r = s.ext r := by
  induction l generalizing s with
  | nil => rfl
  | cons e rest ih =>
    rw [emit_cons, ih (fun x hx => h x (List.mem_cons_of_mem _ hx)),
      recordEvent_ext_of_not_writesLines (h e List.mem_cons_self)]

/-- Under DIRECT no write touches a register's storage (60_exceptions.md R173). -/
theorem extWrite_direct_latch (before : Levels) (seen : List Event) (r : Reg) (o : Out) (v : Bool) (x : ExtReg) :
    (extWrite .direct before seen r o v x).latch = x.latch := by
  unfold extWrite
  split
  · rfl
  · split <;> rfl

theorem emit_direct_latch {s : State} (h : s.cfg.latchMode = .direct) (l : List Event) (r : Reg) :
    ((emit l s).ext r).latch = (s.ext r).latch := by
  induction l generalizing s with
  | nil => rfl
  | cons e rest ih =>
    rw [emit_cons, ih (by rw [recordEvent_cfg, h])]
    cases e with
    | w o v => rw [recordEvent_w, drive_ext, h, extWrite_direct_latch]
    | d | e | cfg | ien | a => cases r <;> rfl

/-- Every write of 1 to the register's clock line finds its data line driven, so that no edge takes in a free bit
(log 9). -/
def DataDrivenAtClocks (r : Reg) : Levels → List Event → Prop
  | _, [] => True
  | l, e :: rest => (e = .w (clkOf r) true → l.get (serOf r) ≠ none) ∧ DataDrivenAtClocks r (levelsAfter l [e]) rest

theorem dataDrivenAtClocks_frame (r : Reg) (v : Byte) (l : Levels) : DataDrivenAtClocks r l (frameTrace r v) := by
  simp [frameTrace, DataDrivenAtClocks]

/-- The events before a write matter to it only at an edge with the data line not driven (log 9). -/
theorem extWrite_seen {before : Levels} {r : Reg} {o : Out} {v : Bool}
    (h : o = clkOf r → v = true → before.get (serOf r) ≠ none) (mode : LatchMode) (seen seen' : List Event)
    (x : ExtReg) : extWrite mode before seen r o v x = extWrite mode before seen' r o v x := by
  unfold extWrite
  split
  · rfl
  · split
    · next hedge =>
      obtain ⟨ho, hv, -, -⟩ := hedge
      obtain ⟨bit, hbit⟩ := Option.ne_none_iff_exists'.1 (h ho hv)
      simp [serialBit, hbit]
    · rfl

theorem recordEvent_ext_congr {r : Reg} {e : Event} {s t : State} (hsig : t.sig = s.sig) (hext : t.ext r = s.ext r)
    (hcfg : t.cfg = s.cfg) (h : e = .w (clkOf r) true → s.sig.get (serOf r) ≠ none) :
    (recordEvent e t).ext r = (recordEvent e s).ext r := by
  cases e with
  | w o v =>
    rw [recordEvent_w, recordEvent_w, drive_ext, drive_ext, hsig, hext, hcfg]
    exact extWrite_seen (fun ho hv => h (by rw [ho, hv])) _ _ _ _
  | d | e | cfg | ien | a => cases r <;> exact hext

/-- Where no edge takes in a free bit, a register's contents depend on the main agent's events alone. -/
theorem emit_ext_mainEvents {r : Reg} {l : List Event} {s t : State} (hsig : t.sig = s.sig) (hext : t.ext r = s.ext r)
    (hcfg : t.cfg = s.cfg) (h : DataDrivenAtClocks r s.sig (mainEvents l)) :
    (emit l t).ext r = (emit (mainEvents l) s).ext r := by
  induction l generalizing s t with
  | nil => exact hext
  | cons e rest ih =>
    cases e with
    | a => exact ih (t := recordEvent .a t) hsig (by rw [← hext]; cases r <;> rfl) hcfg h
    | w | d | e | cfg | ien =>
      obtain ⟨hdriven, hrest⟩ := h
      refine ih ?_ (recordEvent_ext_congr hsig hext hcfg hdriven) (by simp [hcfg]) ?_
      · rw [recordEvent_sig, recordEvent_sig, hsig]
      · rw [recordEvent_sig]
        exact hrest

theorem movedTo_ext (s : State) (p : Phase) (n : Nat) (r : Reg) : (s.movedTo p n).ext r = s.ext r := by
  cases r <;> rfl

/-- With the clock line at 0 before, a frame overwrites its register, interrupt steps inside it or not
(60_exceptions.md R175, log 11). -/
theorem emit_frame_ext {r : Reg} {v : Byte} {l : List Event} {s : State} (henv : s.env = [])
    (hl : mainEvents l = frameTrace r v) (hclk : s.sig.get (clkOf r) = some false) :
    (emit l s).ext r = extAfterFrame s.cfg.latchMode v (s.ext r).latch := by
  have hmain : (emit l s).ext r = (emit (mainEvents l) s).ext r :=
    emit_ext_mainEvents rfl rfl rfl (hl ▸ dataDrivenAtClocks_frame r v s.sig)
  have hframe := after_frame_ext v hclk
  rw [after_of_env_nil (plain_frame r v) henv, eventsOf_frame, movedTo_ext] at hframe
  rw [hmain, hl, hframe]

/-- Under LAGGED a frame overwrites the storage too. -/
theorem extAfterFrame_congr {mode : LatchMode} {old old' : Byte} (h : mode = .direct → old = old') (v : Byte) :
    extAfterFrame mode v old = extAfterFrame mode v old' := by
  cases mode with
  | lagged => rfl
  | direct => rw [h rfl]

/-- The last frame of a trace says what its register holds. -/
theorem emit_ext_of_last_frame {r : Reg} {v : Byte} {l a c : List Event} {s : State} (henv : s.env = [])
    (hl : mainEvents l = a ++ frameTrace r v ++ c) (hclk : (levelsAfter s.sig a).get (clkOf r) = some false)
    (hc : ∀ e ∈ c, ¬writesLines r e) : (emit l s).ext r = extAfterFrame s.cfg.latchMode v (s.ext r).latch := by
  obtain ⟨l', l₃, rfl, hl', hl₃⟩ := List.filter_eq_append_iff.1 hl
  obtain ⟨l₁, l₂, rfl, hl₁, hl₂⟩ := List.filter_eq_append_iff.1 hl'
  have hidle : (emit l₁ s).sig.get (clkOf r) = some false := by
    rw [emit_sig, ← levelsAfter_mainEvents, mainEvents, hl₁, hclk]
  have hquiet : ∀ e ∈ l₃, ¬writesLines r e := fun e he hw =>
    hc e (hl₃ ▸ mem_mainEvents_of_writesLines he hw) hw
  rw [emit_append, emit_append, emit_ext_of_not_writesLines hquiet, emit_frame_ext (by simp [henv]) hl₂ hidle, emit_cfg]
  exact extAfterFrame_congr (fun hmode => emit_direct_latch hmode l₁ r) v

/-- The state with nothing to come from the environment. -/
def State.quiet (s : State) : State := { s with env := [] }

theorem quiet_ext (s : State) (r : Reg) : s.quiet.ext r = s.ext r := by cases r <;> rfl

/-- Where the trace grows, a register is what the new events make of it. -/
theorem Grew.ext_eq_emit {main : List Event} {s t : State} (h : Grew main s t) :
    ∃ new, mainEvents new = main ∧ ∀ r, t.ext r = (emit new s.quiet).ext r := by
  obtain ⟨new, -, hmain, houtside, -⟩ := h
  exact ⟨new, hmain, ext_of_outside (houtside.trans (emit_outside new s.quiet).symm)⟩

theorem Grew.ext_of_last_frame {r : Reg} {v : Byte} {a c : List Event} {s t : State}
    (h : Grew (a ++ frameTrace r v ++ c) s t) (hclk : (levelsAfter s.sig a).get (clkOf r) = some false)
    (hc : ∀ e ∈ c, ¬writesLines r e) : t.ext r = extAfterFrame s.cfg.latchMode v (s.ext r).latch := by
  obtain ⟨new, hmain, hext⟩ := h.ext_eq_emit
  rw [hext, emit_ext_of_last_frame (s := s.quiet) rfl hmain hclk hc, quiet_ext]
  rfl

theorem Grew.ext_of_not_writesLines {r : Reg} {main : List Event} {s t : State} (h : Grew main s t)
    (hmain : ∀ e ∈ main, ¬writesLines r e) : t.ext r = s.ext r := by
  obtain ⟨new, rfl, hext⟩ := h.ext_eq_emit
  rw [hext, emit_ext_of_not_writesLines fun e he hw => hmain e (mem_mainEvents_of_writesLines he hw) hw, quiet_ext]

end Sys2Proof.Machine
end

section
/-! PROOFS. The display multiplexer's trace by the halves of its passes (43_display_multiplexer.md R115 to R121): what a
half writes, where in it the segments are shown, and the anodes meanwhile (R122). -/

namespace Sys2Proof.Machine

open Sys2Proof

/-! ## The halves of a pass -/

/-- The digit position whose anode a half turns off (43_display_multiplexer.md R116). -/
def otherPlace : Place → Place
  | .ones => .tens
  | .tens => .ones

@[simp] theorem anodeOf_otherPlace_ne (place : Place) : anodeOf (otherPlace place) ≠ anodeOf place := by
  cases place <;> decide

@[simp] theorem anodeOf_ne_otherPlace (place : Place) : anodeOf place ≠ anodeOf (otherPlace place) :=
  (anodeOf_otherPlace_ne place).symm

/-- A half of a pass up to its flash: the anodes switched, the digit loaded (43_display_multiplexer.md R116, R117). -/
def halfLead (p : Params) (number : Byte) (place : Place) : List Event :=
  [.w (anodeOf (otherPlace place)) (!p.anodeOn), .w (anodeOf place) p.anodeOn] ++ displayTrace p number place

/-- A half of a pass (43_display_multiplexer.md R116 to R118). -/
def halfTrace (p : Params) (number : Byte) (place : Place) : List Event :=
  halfLead p number place ++ [.w .oeS false, .d 1, .w .oeS true]

/-- Halves of passes, one after the other. -/
def halvesTrace (p : Params) (number : Byte) (places : List Place) : List Event := places.flatMap (halfTrace p number)

theorem halvesTrace_cons (p : Params) (number : Byte) (place : Place) (places : List Place) :
    halvesTrace p number (place :: places) = halfTrace p number place ++ halvesTrace p number places :=
  List.flatMap_cons

theorem halvesTrace_append (p : Params) (number : Byte) (a b : List Place) :
    halvesTrace p number (a ++ b) = halvesTrace p number a ++ halvesTrace p number b := List.flatMap_append

/-- A pass is its ones half, then its tens half (43_display_multiplexer.md R120). -/
theorem passTrace_eq_halves (p : Params) (number : Byte) :
    passTrace p number = halvesTrace p number [.ones, .tens] := by
  simp [passTrace, halvesTrace, halfTrace, halfLead, otherPlace, anodeOf]

/-- The halves of n passes. -/
def passPlaces (n : Nat) : List Place := (List.replicate n [.ones, .tens]).flatten

theorem passes_eq_halves (p : Params) (number : Byte) (n : Nat) :
    (List.replicate n (passTrace p number)).flatten = halvesTrace p number (passPlaces n) := by
  induction n with
  | zero => rfl
  | succ n ih =>
    rw [passPlaces, List.replicate_succ, List.replicate_succ, List.flatten_cons, List.flatten_cons, halvesTrace_append,
      ih, passTrace_eq_halves, passPlaces]

/-- The release of OE_B that may end a dwell cycle (43_display_multiplexer.md R124). -/
def releaseTrace (p : Params) : List Event := if p.binOeRelease then [.w .oeB true] else []

theorem shownTrace_eq_halves (p : Params) (number : Byte) (n : Nat) :
    shownTrace p number n = halvesTrace p number (passPlaces n) ++ releaseTrace p := by
  rw [shownTrace, passes_eq_halves, releaseTrace]

theorem releaseTrace_writes {p : Params} {o : Out} {level : Bool} (h : .w o level ∈ releaseTrace p) : o = .oeB := by
  unfold releaseTrace at h
  split at h <;> simp_all

/-- The binary load writes OE_B and the BIN register's lines alone (43_display_multiplexer.md R124). -/
theorem binLoadTrace_writes {number : Byte} {o : Out} {level : Bool} (h : .w o level ∈ binLoadTrace number) :
    o ∈ [Out.oeB, .clrB, .serB, .clkB] := by
  obtain h | h := List.mem_append.1 h
  · exact List.mem_cons_of_mem _ (frameTrace_writes h)
  · simp only [List.mem_singleton, Event.w.injEq] at h
    simp [h.1]

/-- The outputs a pass writes (43_display_multiplexer.md R123). -/
def passOutputs : List Out := [.anOnes, .anTens, .oeS, .h1, .h2, .serS, .clkS, .clrS]

/-- Before its flash a half writes the anodes and DISPINT's outputs. -/
theorem halfLead_writes {p : Params} {number : Byte} {place : Place} {o : Out} {level : Bool}
    (h : .w o level ∈ halfLead p number place) : o ∈ [Out.anOnes, .anTens, .h1, .h2, .clrS, .serS, .clkS] := by
  obtain h | h := List.mem_append.1 h
  · simp only [List.mem_cons, Event.w.injEq, List.not_mem_nil, or_false] at h
    obtain ⟨rfl, -⟩ | ⟨rfl, -⟩ := h <;> cases place <;> decide
  · exact List.mem_append_right [.anOnes, .anTens] (displayTrace_writes h)

theorem halfTrace_writes {p : Params} {number : Byte} {place : Place} {o : Out} {level : Bool}
    (h : .w o level ∈ halfTrace p number place) : o ∈ passOutputs := by
  obtain h | h := List.mem_append.1 h
  · have hsub : [Out.anOnes, .anTens, .h1, .h2, .clrS, .serS, .clkS] ⊆ passOutputs := by decide
    exact hsub (halfLead_writes h)
  · simp only [List.mem_cons, Event.w.injEq, reduceCtorEq, List.not_mem_nil, or_false, false_or] at h
    obtain ⟨rfl, -⟩ | ⟨rfl, -⟩ := h <;> decide

theorem halvesTrace_writes {p : Params} {number : Byte} {places : List Place} {o : Out} {level : Bool}
    (h : .w o level ∈ halvesTrace p number places) : o ∈ passOutputs := by
  obtain ⟨place, -, hmem⟩ := List.mem_flatMap.1 h
  exact halfTrace_writes hmem

/-! ## The levels a half leaves -/

section levels
variable (l : Levels) (p : Params) (number : Byte) (place : Place)

/-- Break before make: the one anode is off, then the other on (43_display_multiplexer.md R116). -/
theorem levelsAfter_halfLead_anode :
    (levelsAfter l (halfLead p number place)).get (anodeOf place) = some p.anodeOn := by
  rw [halfLead, levelsAfter_append, levelsAfter_display_other _ _ _ _ (by cases place <;> decide)]
  simp

theorem levelsAfter_halfLead_other_anode :
    (levelsAfter l (halfLead p number place)).get (anodeOf (otherPlace place)) = some (!p.anodeOn) := by
  rw [halfLead, levelsAfter_append, levelsAfter_display_other _ _ _ _ (by cases place <;> decide)]
  simp

/-- A flash writes OE_S alone (43_display_multiplexer.md R118). -/
theorem levelsAfter_flash_other {o : Out} (ho : o ≠ .oeS) :
    (levelsAfter l [.w .oeS false, .d 1, .w .oeS true]).get o = l.get o := by
  simp [levelsAfter, ho]

/-- The levels a half of a pass leaves, whatever stood before it (43_display_multiplexer.md R123). -/
structure HalfLevels (p : Params) (number : Byte) (place : Place) (m : Levels) : Prop where
  anode : m.get (anodeOf place) = some p.anodeOn
  otherAnode : m.get (anodeOf (otherPlace place)) = some (!p.anodeOn)
  oeS : m.get .oeS = some true
  h1 : m.get .h1 = some (decide (200 ≤ number.toNat))
  h2 : m.get .h2 = some (decide (100 ≤ number.toNat))
  serS : m.get .serS = some false
  clkS : m.get .clkS = some false
  clrS : m.get .clrS = some true

theorem levelsAfter_half : HalfLevels p number place (levelsAfter l (halfTrace p number place)) := by
  have hflash {o : Out} (ho : o ≠ .oeS) : (levelsAfter l (halfTrace p number place)).get o =
      (levelsAfter l (halfLead p number place)).get o := by
    rw [halfTrace, levelsAfter_append, levelsAfter_flash_other _ ho]
  refine ⟨?_, ?_, ?_, ?_, ?_, ?_, ?_, ?_⟩
  · rw [hflash (by cases place <;> decide), levelsAfter_halfLead_anode]
  · rw [hflash (by cases place <;> decide), levelsAfter_halfLead_other_anode]
  · simp [halfTrace, levelsAfter_append, levelsAfter]
  · rw [hflash (by decide), halfLead, levelsAfter_append, levelsAfter_display_h1]
  · rw [hflash (by decide), halfLead, levelsAfter_append, levelsAfter_display_h2]
  · rw [hflash (by decide), halfLead, levelsAfter_append, levelsAfter_display_serS]
  · rw [hflash (by decide), halfLead, levelsAfter_append, levelsAfter_display_clkS]
  · rw [hflash (by decide), halfLead, levelsAfter_append, levelsAfter_display_clrS]

end levels

/-- What every half keeps, any number of them keep. -/
theorem levelsAfter_halves_keeps {I : Levels → Prop} {p : Params} {number : Byte}
    (hstep : ∀ l place, I l → I (levelsAfter l (halfTrace p number place))) {l : Levels} (hl : I l)
    (places : List Place) : I (levelsAfter l (halvesTrace p number places)) := by
  induction places generalizing l with
  | nil => exact hl
  | cons place rest ih =>
    rw [halvesTrace_cons, levelsAfter_append]
    exact ih (hstep l place hl)

/-- Halves keep the SEG clock line at 0. -/
theorem levelsAfter_halves_clkS {l : Levels} (hl : l.get .clkS = some false) (p : Params) (number : Byte)
    (places : List Place) : (levelsAfter l (halvesTrace p number places)).get .clkS = some false :=
  levelsAfter_halves_keeps (I := fun m => m.get .clkS = some false)
    (fun m place _ => (levelsAfter_half m p number place).clkS) hl places

/-- The segments are dark: OE_S is at 1 or not driven (60_exceptions.md R174). -/
def Dark (l : Levels) : Prop := l.get .oeS ≠ some false

theorem Dark.after {l : Levels} (hl : Dark l) {a : List Event} (ha : .w .oeS false ∉ a) : Dark (levelsAfter l a) :=
  fun h => (levelsAfter_get_eq_some h).elim hl ha

theorem Dark.after_halves {l : Levels} (hl : Dark l) (p : Params) (number : Byte) (places : List Place) :
    Dark (levelsAfter l (halvesTrace p number places)) := by
  refine levelsAfter_halves_keeps (fun m place _ => ?_) hl places
  simp [Dark, (levelsAfter_half m p number place).oeS]

/-! ## Where the segments are shown -/

/-- In a half begun dark, the segments are shown in the flash alone: after the half's lead. -/
theorem shown_in_half {p : Params} {number : Byte} {place : Place} {l : Levels} {before : List Event}
    (hb : before <+: halfTrace p number place) (hl : Dark l) (hshown : (levelsAfter l before).get .oeS = some false) :
    ∃ rest, before = halfLead p number place ++ .w .oeS false :: rest ∧ ∀ e ∈ rest, e = .d 1 := by
  have hlead : .w .oeS false ∉ halfLead p number place := fun h => absurd (halfLead_writes h) (by decide)
  obtain hin | ⟨c, rfl, hc⟩ := prefix_append_cases hb
  · exact absurd hshown (hl.after fun h => hlead (hin.subset h))
  · simp only [List.prefix_cons_iff, List.prefix_nil] at hc
    obtain rfl | ⟨_, rfl, rfl | ⟨_, rfl, rfl | ⟨_, rfl, rfl⟩⟩⟩ := hc
    · rw [List.append_nil] at hshown
      exact absurd hshown (hl.after hlead)
    · exact ⟨[], rfl, by simp⟩
    · exact ⟨[.d 1], rfl, by simp⟩
    · rw [levelsAfter_append] at hshown
      simp [levelsAfter] at hshown

/-- In halves begun dark, the segments are shown in the flash of one of them. -/
theorem shown_in_halves {p : Params} {number : Byte} {places : List Place} {l : Levels} {before : List Event}
    (hb : before <+: halvesTrace p number places) (hl : Dark l)
    (hshown : (levelsAfter l before).get .oeS = some false) :
    ∃ done place rest, before = halvesTrace p number done ++ (halfLead p number place ++ .w .oeS false :: rest) ∧
      ∀ e ∈ rest, e = .d 1 := by
  induction places generalizing l before with
  | nil =>
    obtain rfl := List.prefix_nil.1 hb
    exact absurd hshown hl
  | cons place places ih =>
    rw [halvesTrace_cons] at hb
    obtain hin | ⟨c, rfl, hc⟩ := prefix_append_cases hb
    · obtain ⟨rest, hrest⟩ := shown_in_half hin hl hshown
      exact ⟨[], place, rest, hrest⟩
    · rw [levelsAfter_append] at hshown
      have hdark : Dark (levelsAfter l (halfTrace p number place)) := by
        simp [Dark, (levelsAfter_half l p number place).oeS]
      obtain ⟨done, at_, rest, rfl, hrest⟩ := ih hc hdark hshown
      exact ⟨place :: done, at_, rest, by rw [halvesTrace_cons, List.append_assoc], hrest⟩

/-- The trace of MUXPASS, DWELL and CYCLE: the halves of its passes, and around them writes of OE_B and of the BIN
register's lines alone (43_display_multiplexer.md R120, R124, 44_coordinator.md R131). -/
theorem commandTrace_of_valueShown {i : Instr} {s : State} {v : Byte} (h : valueShown i s = some v) :
    ∃ lead places tail, commandTrace i s = lead ++ halvesTrace s.cfg v places ++ tail ∧
      ∀ o u, .w o u ∈ lead ++ tail → o ∈ [Out.oeB, .clrB, .serB, .clkB] := by
  have hrelease {o : Out} {u : Bool} (hmem : .w o u ∈ releaseTrace s.cfg) : o ∈ [Out.oeB, .clrB, .serB, .clkB] := by
    simp [releaseTrace_writes hmem]
  cases i with
  | muxpass number =>
    obtain rfl : number = v := Option.some.inj h
    exact ⟨[], [.ones, .tens], [], by simp [commandTrace, passTrace_eq_halves], by simp⟩
  | dwell number =>
    obtain rfl : number = v := Option.some.inj h
    refine ⟨binLoadTrace number, passPlaces (dwellAt 31 s), releaseTrace s.cfg, ?_, fun o u hmem => ?_⟩
    · rw [commandTrace, shownTrace_eq_halves, List.append_assoc]
    · exact (List.mem_append.1 hmem).elim binLoadTrace_writes hrelease
  | cycle =>
    obtain rfl : s.counter = v := Option.some.inj h
    refine ⟨.e (fmt3 s.counter) :: binLoadTrace s.counter, passPlaces (dwellAt 32 s), releaseTrace s.cfg, ?_,
      fun o u hmem => ?_⟩
    · rw [commandTrace, shownTrace_eq_halves, List.append_assoc, List.cons_append]
    · obtain hmem | hmem := List.mem_append.1 hmem
      · exact binLoadTrace_writes ((List.mem_cons.1 hmem).resolve_left nofun)
      · exact hrelease hmem
  | init | shiftout | dispint | pinset | pinclr | delay => cases h

/-- In a command of the multiplexer begun dark, the segments are shown in the flash of a half alone, and that half began
with the SEG clock line low if the command did. -/
theorem shown_in_flash {i : Instr} {s : State} {v : Byte} {before : List Event} (hv : valueShown i s = some v)
    (hs : Dark s.sig) (hb : before <+: commandTrace i s)
    (hshown : (levelsAfter s.sig before).get .oeS = some false) :
    ∃ start place rest, before = start ++ (halfLead s.cfg v place ++ .w .oeS false :: rest) ∧
      (∀ e ∈ rest, e = .d 1) ∧
      (s.sig.get .clkS = some false → (levelsAfter s.sig start).get .clkS = some false) := by
  obtain ⟨lead, places, tail, htrace, hwrites⟩ := commandTrace_of_valueShown hv
  have hdarkLead : .w .oeS false ∉ lead := fun h => absurd (hwrites _ _ (List.mem_append_left _ h)) (by decide)
  have hdarkTail : .w .oeS false ∉ tail := fun h => absurd (hwrites _ _ (List.mem_append_right _ h)) (by decide)
  have hclk : (levelsAfter s.sig lead).get .clkS = s.sig.get .clkS :=
    levelsAfter_get_of_not_written _ _ _ fun o u h heq =>
      absurd (heq ▸ hwrites o u (List.mem_append_left _ h)) (by decide)
  have hdark := hs.after hdarkLead
  rw [htrace] at hb
  obtain hin | ⟨c, rfl, hc⟩ := prefix_append_cases hb
  · obtain hin | ⟨c, rfl, hc⟩ := prefix_append_cases hin
    · exact absurd hshown (hs.after fun h => hdarkLead (hin.subset h))
    · rw [levelsAfter_append] at hshown
      obtain ⟨done, place, rest, rfl, hrest⟩ := shown_in_halves hc hdark hshown
      refine ⟨lead ++ halvesTrace s.cfg v done, place, rest, by rw [List.append_assoc], hrest, fun hidle => ?_⟩
      rw [levelsAfter_append]
      exact levelsAfter_halves_clkS (hclk.trans hidle) ..
  · rw [levelsAfter_append, levelsAfter_append] at hshown
    exact absurd hshown ((hdark.after_halves _ _ _).after fun h => hdarkTail (hc.subset h))

/-- In the flash of a half its own anode is asserted, and the other is not. -/
theorem levelsAfter_flash_anodes (l : Levels) (p : Params) (number : Byte) (place : Place) {rest : List Event}
    (hrest : ∀ e ∈ rest, e = .d 1) :
    (levelsAfter l (halfLead p number place ++ .w .oeS false :: rest)).get (anodeOf place) = some p.anodeOn ∧
      (levelsAfter l (halfLead p number place ++ .w .oeS false :: rest)).get (anodeOf (otherPlace place)) =
        some (!p.anodeOn) := by
  have hkeep (x : Place) : (levelsAfter l (halfLead p number place ++ .w .oeS false :: rest)).get (anodeOf x) =
      (levelsAfter l (halfLead p number place)).get (anodeOf x) := by
    rw [levelsAfter_append]
    refine levelsAfter_get_of_not_written _ _ _ fun o u hmem => ?_
    obtain heq | hmem := List.mem_cons.1 hmem
    · cases heq
      cases x <;> decide
    · exact absurd (hrest _ hmem) nofun
  rw [hkeep, hkeep]
  exact ⟨levelsAfter_halfLead_anode .., levelsAfter_halfLead_other_anode ..⟩

/-! ## The anodes -/

theorem anodeAsserted_iff {p : Params} {l : Levels} {x : Place} :
    anodeAsserted p l x = true ↔ l.get (anodeOf x) = some p.anodeOn := beq_iff_eq

theorem atMostOneAnode_iff {p : Params} {l : Levels} :
    AtMostOneAnode p l ↔ ∃ x, l.get (anodeOf x) ≠ some p.anodeOn := by
  rw [AtMostOneAnode, anodeAsserted_iff, anodeAsserted_iff, Classical.not_and_iff_not_or_not]
  exact ⟨fun h => h.elim (fun hones => ⟨.ones, hones⟩) fun htens => ⟨.tens, htens⟩,
    fun ⟨x, hx⟩ => by cases x with
      | ones => exact .inl hx
      | tens => exact .inr hx⟩

/-- A trace that turns no anode on keeps at most one on. -/
theorem throughout_atMostOneAnode_of_none_on {p : Params} {l : Levels} {trace : List Event} (hl : AtMostOneAnode p l)
    (h : ∀ x, .w (anodeOf x) p.anodeOn ∉ trace) : Throughout (AtMostOneAnode p) l trace := by
  intro before hb
  obtain ⟨x, hx⟩ := atMostOneAnode_iff.1 hl
  exact atMostOneAnode_iff.2 ⟨x, fun hon => (levelsAfter_get_eq_some hon).elim hx fun hmem => h x (hb.subset hmem)⟩

/-- Break before make: a half turns the other anode off before it turns its own on (43_display_multiplexer.md R116). -/
theorem throughout_atMostOneAnode_half {p : Params} {l : Levels} (hl : AtMostOneAnode p l) (number : Byte)
    (place : Place) : Throughout (AtMostOneAnode p) l (halfTrace p number place) := by
  have hbroken : AtMostOneAnode p (l.set (anodeOf (otherPlace place)) (!p.anodeOn)) :=
    atMostOneAnode_iff.2 ⟨otherPlace place, by simp⟩
  have hmade : AtMostOneAnode p ((l.set (anodeOf (otherPlace place)) (!p.anodeOn)).set (anodeOf place) p.anodeOn) :=
    atMostOneAnode_iff.2 ⟨otherPlace place, by simp⟩
  rw [halfTrace, halfLead, List.append_assoc, throughout_append]
  refine ⟨throughout_cons.2 ⟨hl, throughout_cons.2 ⟨hbroken, throughout_nil.2 hmade⟩⟩,
    throughout_atMostOneAnode_of_none_on hmade fun x hmem => ?_⟩
  obtain hmem | hmem := List.mem_append.1 hmem
  · exact absurd (displayTrace_writes hmem) (by cases x <;> decide)
  · cases x <;> simp [anodeOf] at hmem

theorem throughout_atMostOneAnode_halves {p : Params} {l : Levels} (hl : AtMostOneAnode p l) (number : Byte)
    (places : List Place) : Throughout (AtMostOneAnode p) l (halvesTrace p number places) := by
  induction places generalizing l with
  | nil => exact throughout_nil.2 hl
  | cons place rest ih =>
    have hhalf := throughout_atMostOneAnode_half hl number place
    rw [halvesTrace_cons, throughout_append]
    exact ⟨hhalf, ih hhalf.last⟩

/-! ## The commands that show no digit -/

/-- What a command other than the multiplexer's writes: the output a PINSET or PINCLR names, INIT's levels, or serial
lines and indicators. -/
theorem commandTrace_writes_of_no_value {i : Instr} {s : State} {o : Out} {u : Bool} (hv : valueShown i s = none)
    (h : .w o u ∈ commandTrace i s) :
    pinWritten i = some o ∨ u = initLevel s.cfg o ∨ o ∈ [Out.clrB, .serB, .clkB, .h1, .h2, .clrS, .serS, .clkS] := by
  have hpin {sig : BitVec 4} {level : Bool} (hmem : .w o u ∈ (outOfField sig).toList.map fun q => Event.w q level) :
      outOfField sig = some o := by
    obtain ⟨q, hq, heq⟩ := List.mem_map.1 hmem
    cases heq
    exact Option.mem_toList.1 hq
  cases i with
  | init =>
    obtain ⟨-, hlevel⟩ : o ∈ allOutputs ∧ initLevel s.cfg o = u := by simpa [commandTrace, initTrace] using h
    exact .inr (.inl hlevel.symm)
  | shiftout r value =>
    refine .inr (.inr ?_)
    cases r with
    | bin => exact List.mem_append_left _ (frameTrace_writes h)
    | seg => exact List.mem_append_right [.clrB, .serB, .clkB, .h1, .h2] (frameTrace_writes h)
  | dispint number place => exact .inr (.inr (List.mem_append_right [Out.clrB, .serB, .clkB] (displayTrace_writes h)))
  | pinset sig | pinclr sig => exact .inl (hpin h)
  | delay n => simp [commandTrace] at h
  | muxpass | dwell | cycle => cases hv

/-- No command but the multiplexer's and a PINSET or PINCLR of an anode turns an anode on. -/
theorem commandTrace_turns_no_anode_on {i : Instr} {s : State} (hv : valueShown i s = none) {x : Place}
    (hpin : pinWritten i ≠ some (anodeOf x)) : .w (anodeOf x) s.cfg.anodeOn ∉ commandTrace i s := by
  intro h
  obtain hwritten | hinit | hline := commandTrace_writes_of_no_value hv h
  · exact hpin hwritten
  · cases x <;> simp [initLevel, anodeOf] at hinit
  · cases x <;> exact absurd hline (by decide)

/-- No command but the multiplexer's and a PINCLR of OE_S shows the segments. -/
theorem commandTrace_stays_dark {i : Instr} {s : State} (hv : valueShown i s = none)
    (hpin : pinWritten i ≠ some .oeS) : .w .oeS false ∉ commandTrace i s := by
  intro h
  obtain hwritten | hinit | hline := commandTrace_writes_of_no_value hv h
  · exact hpin hwritten
  · simp [initLevel] at hinit
  · exact absurd hline (by decide)

/-! ## Every command -/

theorem throughout_atMostOneAnode_command {i : Instr} {s : State} (hpin : ∀ x, pinWritten i ≠ some (anodeOf x))
    (hs : AtMostOneAnode s.cfg s.sig) : Throughout (AtMostOneAnode s.cfg) s.sig (commandTrace i s) := by
  cases hv : valueShown i s with
  | none => exact throughout_atMostOneAnode_of_none_on hs fun x => commandTrace_turns_no_anode_on hv (hpin x)
  | some v =>
    obtain ⟨lead, places, tail, htrace, hwrites⟩ := commandTrace_of_valueShown hv
    have hanode (x : Place) : .w (anodeOf x) s.cfg.anodeOn ∉ lead ++ tail := fun h =>
      absurd (hwrites _ _ h) (by cases x <;> decide)
    have hlead := throughout_atMostOneAnode_of_none_on hs fun x h => hanode x (List.mem_append_left tail h)
    have hhalves := throughout_atMostOneAnode_halves hlead.last v places
    rw [htrace, List.append_assoc, throughout_append, throughout_append]
    exact ⟨hlead, hhalves,
      throughout_atMostOneAnode_of_none_on hhalves.last fun x h => hanode x (List.mem_append_right lead h)⟩

theorem throughout_oneAnodeWhenShown_command {i : Instr} {s : State} (hpin : pinWritten i ≠ some .oeS)
    (hs : Dark s.sig) : Throughout (OneAnodeWhenShown s.cfg) s.sig (commandTrace i s) := by
  intro before hb hshown
  cases hv : valueShown i s with
  | none => exact absurd hshown (hs.after fun h => commandTrace_stays_dark hv hpin (hb.subset h))
  | some v =>
    obtain ⟨start, place, rest, rfl, hrest, -⟩ := shown_in_flash hv hs hb hshown
    obtain ⟨hon, hoff⟩ := levelsAfter_flash_anodes (levelsAfter s.sig start) s.cfg v place hrest
    rw [levelsAfter_append, anodeAsserted, anodeAsserted]
    cases place <;> simp_all [otherPlace]

theorem dark_after_command {i : Instr} {s : State} (hpin : pinWritten i ≠ some .oeS) (hs : Dark s.sig) :
    Dark (levelsAfter s.sig (commandTrace i s)) := by
  cases hv : valueShown i s with
  | none => exact hs.after (commandTrace_stays_dark hv hpin)
  | some v =>
    obtain ⟨lead, places, tail, htrace, hwrites⟩ := commandTrace_of_valueShown hv
    have hdark : .w .oeS false ∉ lead ++ tail := fun h => absurd (hwrites _ _ h) (by decide)
    rw [htrace, levelsAfter_append, levelsAfter_append]
    exact ((hs.after fun h => hdark (List.mem_append_left tail h)).after_halves _ _ _).after
      fun h => hdark (List.mem_append_right lead h)

/-- Settles O42: a fault appends nothing; of a command that completes, only the halves of the passes turn an anode on or
show the segments, and a half switches the anodes break-before-make before its flash. -/
theorem anodesNeverOverlap : Obligations.AnodesNeverOverlap := by
  intro i s t new hones htens hs hexec hnew
  obtain ⟨rfl, k, rfl⟩ | ⟨hmain, hc⟩ := exec_appends hexec hnew
  · exact ⟨throughout_nil.2 hs, hs, fun _ hrest => ⟨throughout_nil.2 fun hshown => absurd hshown hrest.2, hrest⟩⟩
  · have hpin (x : Place) : pinWritten i ≠ some (anodeOf x) := by cases x <;> assumption
    have hall := throughout_atMostOneAnode_command hpin hs
    have hend : AtMostOneAnode t.cfg t.sig := by
      rw [hc.cfg, hc.sig]
      exact hall.last
    refine ⟨.of_mainEvents (hmain ▸ hall), hend, fun hoe hrest => ⟨.of_mainEvents ?_, hend, ?_⟩⟩
    · rw [hmain]
      exact throughout_oneAnodeWhenShown_command hoe hrest.2
    · rw [hc.sig]
      exact dark_after_command hoe hrest.2

end Sys2Proof.Machine
end

section
/-! PROOFS. MUXPASS, DWELL and CYCLE: the events they show, the state they leave and what they leave unchanged
(43_display_multiplexer.md R120 to R128, 44_coordinator.md R135). -/

namespace Sys2Proof.Machine

open Sys2Proof

/-! ## The levels and the SEG register after halves -/

/-- A half of a pass up to its frame: the anodes and the indicators. -/
def halfSetup (p : Params) (number : Byte) (place : Place) : List Event :=
  [.w (anodeOf (otherPlace place)) (!p.anodeOn), .w (anodeOf place) p.anodeOn] ++ eventsOf (indicatorMicros number)

theorem halfLead_eq (p : Params) (number : Byte) (place : Place) :
    halfLead p number place = halfSetup p number place ++ frameTrace .seg (sentPattern p number place) := by
  rw [halfLead, ← eventsOf_display, displayMicros, patternMicros_digit, eventsOf_append, eventsOf_frame, halfSetup,
    List.append_assoc]

theorem levelsAfter_halfSetup_clkS (l : Levels) (p : Params) (number : Byte) (place : Place) :
    (levelsAfter l (halfSetup p number place)).get .clkS = l.get .clkS := by
  refine levelsAfter_get_of_not_written _ _ _ fun o u h heq => ?_
  subst heq
  obtain h | h := List.mem_append.1 h
  · cases place <;> simp [anodeOf, otherPlace] at h
  · exact absurd (indicatorMicros_writes h) (by decide)

theorem halvesTrace_singleton (p : Params) (number : Byte) (place : Place) :
    halvesTrace p number [place] = halfTrace p number place := List.flatMap_singleton ..

theorem levelsAfter_last_half (l : Levels) (p : Params) (number : Byte) (done : List Place) (place : Place) :
    HalfLevels p number place (levelsAfter l (halvesTrace p number (done ++ [place]))) := by
  rw [halvesTrace_append, levelsAfter_append, halvesTrace_singleton]
  exact levelsAfter_half ..

theorem HalfLevels.of_kept {p : Params} {number : Byte} {place : Place} {l m : Levels} (h : HalfLevels p number place l)
    (hkept : ∀ o ∈ passOutputs, m.get o = l.get o) : HalfLevels p number place m :=
  ⟨(hkept _ (by cases place <;> decide)).trans h.anode, (hkept _ (by cases place <;> decide)).trans h.otherAnode,
    (hkept _ (by decide)).trans h.oeS, (hkept _ (by decide)).trans h.h1, (hkept _ (by decide)).trans h.h2,
    (hkept _ (by decide)).trans h.serS, (hkept _ (by decide)).trans h.clkS, (hkept _ (by decide)).trans h.clrS⟩

/-- Of a trace whose outputs are no serial lines of a register, no event writes one. -/
theorem not_writesLines_of_writes {r : Reg} {os : List Out} {a : List Event} (ha : ∀ o u, .w o u ∈ a → o ∈ os)
    (hos : ∀ o ∈ os, o ∉ [clrOf r, serOf r, clkOf r]) : ∀ e ∈ a, ¬writesLines r e := by
  intro e he hw
  have ⟨o, u, heq, _⟩ := hw
  subst heq
  exact hos o (ha o u he) (writesLines_w.1 hw)

/-- With the SEG clock line at 0 before its halves, a command leaves in the SEG register the pattern of its last half
(60_exceptions.md R175, log 11). -/
theorem Grew.extS_of_halves {p : Params} {number : Byte} {lead tail : List Event} {done : List Place} {place : Place}
    {s t : State} (h : Grew (lead ++ halvesTrace p number (done ++ [place]) ++ tail) s t)
    (hclk : (levelsAfter s.sig lead).get .clkS = some false) (htail : ∀ e ∈ tail, ¬writesLines .seg e) :
    t.extS = extAfterFrame s.cfg.latchMode (sentPattern p number place) s.extS.latch := by
  have hsplit : lead ++ halvesTrace p number (done ++ [place]) ++ tail =
      (lead ++ halvesTrace p number done ++ halfSetup p number place) ++ frameTrace .seg (sentPattern p number place) ++
        ([.w .oeS false, .d 1, .w .oeS true] ++ tail) := by
    simp [halvesTrace, halfTrace, halfLead_eq]
  rw [hsplit] at h
  refine h.ext_of_last_frame (r := .seg) ?_ fun e he => ?_
  · rw [levelsAfter_append, levelsAfter_append]
    exact (levelsAfter_halfSetup_clkS ..).trans (levelsAfter_halves_clkS hclk ..)
  · obtain he | he := List.mem_append.1 he
    · exact not_writesLines_of_writes (os := [.oeS]) (by simp +contextual) (by decide) e he
    · exact htail e he

/-! ## MUXPASS -/

/-- Settles O28: the events of a completed MUXPASS are those of one pass. -/
theorem muxpassShowsBothDigits : Obligations.MuxpassShowsBothDigits := by
  intro number s hinit
  obtain ⟨t, hexec, hc⟩ := exec_completes (i := .muxpass number) rfl (by simp) hinit
  exact ⟨t, hexec, hc.shows, hc.pc⟩

/-- Settles O29: the levels and the SEG register are those its tens half leaves; a half writes neither OE_B nor a BIN
line. -/
theorem muxpassFrame : Obligations.MuxpassFrame := by
  intro number s hinit
  obtain ⟨t, hexec, hc⟩ := exec_completes (i := .muxpass number) rfl (by simp) hinit
  have hgrew : Grew (halvesTrace s.cfg number ([.ones] ++ [.tens])) s t := passTrace_eq_halves s.cfg number ▸ hc.grew
  have hsig : t.sig = levelsAfter s.sig (halvesTrace s.cfg number ([.ones] ++ [.tens])) :=
    passTrace_eq_halves s.cfg number ▸ hc.sig
  have hlevels : HalfLevels s.cfg number .tens t.sig := hsig ▸ levelsAfter_last_half ..
  have hpoints : commandPoints (.muxpass number) s = 73 + 2 * hundredsCount number := by
    rw [commandPoints, commandTrace, passTrace_length]
    omega
  refine ⟨t, hexec, hlevels.otherAnode, hlevels.anode, hlevels.oeS, hlevels.h1, hlevels.h2, hlevels.serS, hlevels.clkS,
    hlevels.clrS, hc.phase, fun o ho => ?_, hc.keepsControl (by simp) (by simp), ?_, fun hclk => ?_,
    hpoints ▸ hc.passed (by simp)⟩
  · rw [hsig]
    exact levelsAfter_get_of_not_written _ _ _ fun q u hmem heq => ho (heq ▸ halvesTrace_writes hmem)
  · exact hgrew.ext_of_not_writesLines (r := .bin)
      (not_writesLines_of_writes (fun _ _ => halvesTrace_writes) (by decide))
  · exact Grew.extS_of_halves (lead := []) (done := [.ones]) (tail := []) (by simpa using hgrew) hclk (by simp)

/-! ## The dwell cycle -/

/-- DWELL's trace, and CYCLE's after its text: the binary load and what is shown (43_display_multiplexer.md R124). -/
def dwellTrace (p : Params) (number : Byte) (n : Nat) : List Event := binLoadTrace number ++ shownTrace p number n

theorem dwellTrace_eq_halves (p : Params) (number : Byte) (n : Nat) :
    dwellTrace p number n = binLoadTrace number ++ halvesTrace p number (passPlaces n) ++ releaseTrace p := by
  rw [dwellTrace, shownTrace_eq_halves, List.append_assoc]

theorem dwellTrace_length (p : Params) (number : Byte) (n : Nat) :
    (dwellTrace p number n).length = 30 + n * (72 + 2 * hundredsCount number) + p.binOeRelease.toNat := by
  rw [dwellTrace, List.length_append, binLoadTrace_length, shownTrace_length]
  omega

/-- After its sample point a dwell cycle writes what a pass writes, and OE_B. -/
theorem shownTrace_writes {p : Params} {number : Byte} {n : Nat} {o : Out} {level : Bool}
    (h : .w o level ∈ shownTrace p number n) : o ∈ .oeB :: passOutputs := by
  rw [shownTrace_eq_halves] at h
  obtain h | h := List.mem_append.1 h
  · exact List.mem_cons_of_mem _ (halvesTrace_writes h)
  · exact releaseTrace_writes h ▸ List.mem_cons_self

/-- Once BIN is loaded, OE_B is at 0. -/
theorem levelsAfter_binLoad_oeB (l : Levels) (number : Byte) :
    (levelsAfter l (binLoadTrace number)).get .oeB = some false := by
  simp [binLoadTrace, levelsAfter_append]

theorem levelsAfter_halves_oeB (l : Levels) (p : Params) (number : Byte) (places : List Place) :
    (levelsAfter l (halvesTrace p number places)).get .oeB = l.get .oeB :=
  levelsAfter_get_of_not_written _ _ _ fun _ _ hmem heq => absurd (heq ▸ halvesTrace_writes hmem) (by decide)

/-- OE_B is left at 1 if it is released, else at 0 (43_display_multiplexer.md R128). -/
theorem levelsAfter_dwell_oeB (l : Levels) (p : Params) (number : Byte) (n : Nat) :
    (levelsAfter l (dwellTrace p number n)).get .oeB = some p.binOeRelease := by
  rw [dwellTrace_eq_halves, levelsAfter_append, levelsAfter_append]
  cases hrelease : p.binOeRelease with
  | true => simp [releaseTrace, hrelease]
  | false => simp [releaseTrace, hrelease, levelsAfter_halves_oeB, levelsAfter_binLoad_oeB]

/-- After the frame to BIN a dwell cycle writes no serial line of BIN. -/
theorem levelsAfter_dwell_line (l : Levels) (p : Params) (number : Byte) (n : Nat) {o : Out}
    (ho : o ∈ [clrOf .bin, serOf .bin, clkOf .bin]) :
    (levelsAfter l (dwellTrace p number n)).get o = (levelsAfter l (frameTrace .bin number)).get o := by
  rw [dwellTrace, binLoadTrace, List.append_assoc, levelsAfter_append]
  refine levelsAfter_get_of_not_written _ _ _ fun q u hmem heq => ?_
  subst heq
  have hapart : ∀ x ∈ [clrOf .bin, serOf .bin, clkOf .bin], x ∉ Out.oeB :: passOutputs := by decide
  obtain hmem | hmem := List.mem_append.1 hmem
  · obtain ⟨rfl, -⟩ : q = .oeB ∧ u = false := by simpa using hmem
    exact hapart _ ho List.mem_cons_self
  · exact hapart q ho (shownTrace_writes hmem)

/-- The halves of n + 1 passes end in a tens half. -/
theorem passPlaces_succ (n : Nat) : passPlaces (n + 1) = (passPlaces n ++ [.ones]) ++ [.tens] := by
  simp [passPlaces, List.replicate_succ']

/-- With at least one pass, the levels are those of its last tens half: the release writes OE_B alone. -/
theorem levelsAfter_dwell_shown (l : Levels) (p : Params) (number : Byte) {n : Nat} (hn : 1 ≤ n) :
    HalfLevels p number .tens (levelsAfter l (dwellTrace p number n)) := by
  obtain ⟨m, rfl⟩ := Nat.exists_eq_add_of_le' hn
  rw [dwellTrace_eq_halves, passPlaces_succ, levelsAfter_append, levelsAfter_append]
  have hlast := levelsAfter_last_half (levelsAfter l (binLoadTrace number)) p number (passPlaces m ++ [.ones]) .tens
  refine hlast.of_kept fun o ho => levelsAfter_get_of_not_written _ _ _ fun q u hmem heq => ?_
  rw [← heq, releaseTrace_writes hmem] at ho
  exact absurd ho (by decide)

theorem shownTrace_zero (p : Params) (number : Byte) : shownTrace p number 0 = releaseTrace p := by
  rw [shownTrace_eq_halves]
  rfl

/-- With no pass, a dwell cycle writes OE_B and the BIN register's lines alone (43_display_multiplexer.md R127). -/
theorem dwellTrace_zero_writes {p : Params} {number : Byte} {o : Out} {level : Bool}
    (h : .w o level ∈ dwellTrace p number 0) : o ∈ [Out.oeB, .clrB, .serB, .clkB] := by
  rw [dwellTrace, shownTrace_zero] at h
  obtain h | h := List.mem_append.1 h
  · exact binLoadTrace_writes h
  · exact releaseTrace_writes h ▸ List.mem_cons_self

/-- What a dwell cycle of n passes leaves of the signals and the registers (43_display_multiplexer.md R127, R128). -/
structure DwellCycleLeaves (number : Byte) (n : Nat) (s t : State) : Prop where
  serB : t.sig.serB = some false
  clkB : t.sig.clkB = some false
  clrB : t.sig.clrB = some true
  oeB : t.sig.oeB = some s.cfg.binOeRelease
  extB : s.sig.clkB = some false → extOut s.cfg.latchMode t.extB = frameOutputs s.cfg.latchMode number
  shown : 1 ≤ n → HalfLevels s.cfg number .tens t.sig
  extS : 1 ≤ n → s.sig.clkS = some false →
    t.extS = extAfterFrame s.cfg.latchMode (sentPattern s.cfg number .tens) s.extS.latch
  kept : n = 0 → KeepsOutputs [.serB, .clkB, .clrB, .oeB] s t
  extSKept : n = 0 → t.extS = s.extS

section cycle
variable {first : List Event} {number : Byte} {n : Nat} {s t : State}

/-- With the BIN clock line at 0 before, BIN carries the number: after its frame no line of BIN is written. -/
theorem Grew.extB_of_dwell (h : Grew (first ++ dwellTrace s.cfg number n) s t)
    (hclk : (levelsAfter s.sig first).get .clkB = some false) :
    extOut s.cfg.latchMode t.extB = frameOutputs s.cfg.latchMode number := by
  have hsplit : first ++ dwellTrace s.cfg number n =
      first ++ frameTrace .bin number ++ (.w .oeB false :: shownTrace s.cfg number n) := by
    simp [dwellTrace, binLoadTrace]
  rw [hsplit] at h
  have hext := h.ext_of_last_frame (r := .bin) hclk <|
    not_writesLines_of_writes (os := .oeB :: passOutputs) (fun o u hmem => ?_) (by decide)
  · exact (congrArg (extOut s.cfg.latchMode) hext).trans (extOut_extAfterFrame ..)
  · obtain heq | hmem := List.mem_cons.1 hmem
    · cases heq
      exact List.mem_cons_self
    · exact shownTrace_writes hmem

/-- With at least one pass and the SEG clock line at 0 before, SEG holds the tens digit's pattern: the binary load
leaves that line, and the last half of the passes is a tens half. -/
theorem Grew.extS_of_dwell (h : Grew (first ++ dwellTrace s.cfg number n) s t) (hn : 1 ≤ n)
    (hclk : (levelsAfter s.sig first).get .clkS = some false) :
    t.extS = extAfterFrame s.cfg.latchMode (sentPattern s.cfg number .tens) s.extS.latch := by
  obtain ⟨m, rfl⟩ := Nat.exists_eq_add_of_le' hn
  rw [dwellTrace_eq_halves, passPlaces_succ, ← List.append_assoc, ← List.append_assoc] at h
  refine h.extS_of_halves ?_ ?_
  · rw [levelsAfter_append]
    refine (levelsAfter_get_of_not_written _ .clkS _ fun o u hmem heq => ?_).trans hclk
    exact absurd (heq ▸ binLoadTrace_writes hmem) (by decide)
  · exact not_writesLines_of_writes (os := [.oeB]) (fun o u hmem => by simp [releaseTrace_writes hmem]) (by decide)

/-- The dwell cycle of DWELL and of CYCLE; `first` is CYCLE's text, which writes nothing. -/
theorem dwellCycleLeaves (hgrew : Grew (first ++ dwellTrace s.cfg number n) s t)
    (hsig : t.sig = levelsAfter s.sig (dwellTrace s.cfg number n)) (hfirst : ∀ o u, .w o u ∉ first) :
    DwellCycleLeaves number n s t := by
  have hkept (o : Out) : (levelsAfter s.sig first).get o = s.sig.get o :=
    levelsAfter_get_of_not_written _ _ _ fun q u hmem => absurd hmem (hfirst q u)
  have hline {o : Out} (ho : o ∈ [clrOf .bin, serOf .bin, clkOf .bin]) :
      t.sig.get o = (levelsAfter s.sig (frameTrace .bin number)).get o := by
    rw [hsig, levelsAfter_dwell_line _ _ _ _ ho]
  refine ⟨?_, ?_, ?_, ?_, fun hclk => hgrew.extB_of_dwell ((hkept _).trans hclk), fun hn => ?_,
    fun hn hclk => hgrew.extS_of_dwell hn ((hkept _).trans hclk), fun hn o ho => ?_, fun hn => ?_⟩
  · exact (hline (o := serOf .bin) (by simp)).trans (levelsAfter_frame_ser ..)
  · exact (hline (o := clkOf .bin) (by simp)).trans (levelsAfter_frame_clk ..)
  · exact (hline (o := clrOf .bin) (by simp)).trans (levelsAfter_frame_clr ..)
  · rw [hsig]
    exact levelsAfter_dwell_oeB ..
  · exact hsig ▸ levelsAfter_dwell_shown _ _ _ hn
  · subst hn
    rw [hsig]
    refine levelsAfter_get_of_not_written _ _ _ fun q u hmem heq => ho ?_
    have hsub : [Out.oeB, .clrB, .serB, .clkB] ⊆ [Out.serB, .clkB, .clrB, .oeB] := by decide
    exact hsub (heq ▸ dwellTrace_zero_writes hmem)
  · subst hn
    refine hgrew.ext_of_not_writesLines (r := .seg) <|
      not_writesLines_of_writes (os := [.oeB, .clrB, .serB, .clkB]) (fun o u hmem => ?_) (by decide)
    exact dwellTrace_zero_writes ((List.mem_append.1 hmem).resolve_left (hfirst o u))

end cycle

/-! ## DWELL and CYCLE -/

/-- A dwell cycle in two parts: up to its sample of `dwell`, and with the passes sampled (43_display_multiplexer.md
R125). -/
theorem dwellCycle_sampled (number : Byte) (s : State) :
    ∃ u t, dwellCycle number s = .ok t ∧ Appended (binLoadTrace number) (irqsTaken 31 s) s u ∧
      u.dwell = dwellAt 31 s ∧ u.cfg = s.cfg ∧ Grew (shownTrace s.cfg number (dwellAt 31 s)) u t ∧ t.cfg = u.cfg ∧
      t.pc = s.pc := by
  have hb := plain_binShow number
  have hkeeps := after_keepsControl hb s
  have hpassed := (after_envPassed hb s).trans (envPoint_envPassed _) hkeeps
  have happended := (after_appended hb s).trans (envPoint_appended _) hkeeps.cfg
  have hirqs := irqsTaken_add 30 1 s (after (binShowMicros number) s) (by simp [eventsOf_binShow, binLoadTrace_length])
    hkeeps.irqEnabled
  rw [eventsOf_binShow, binLoadTrace_length] at hpassed happended
  rw [← hirqs, List.append_nil] at happended
  have hshown := after_grew (plain_shown s.cfg number (dwellAt 31 s)).no_ack (envPoint (after (binShowMicros number) s))
  rw [eventsOf_shown] at hshown
  refine ⟨_, _, ?_, happended, hpassed.dwell, by simp, hshown, by simp, by simp⟩
  rw [dwellCycle_eq, show (envPoint (after (binShowMicros number) s)).dwell = dwellAt 31 s from hpassed.dwell]

/-- Settles O31: `early` ends with the sample's own interleaving point, so the sample reads `dwell` with the steps of
`early` added; the steps of `late` are added to what it read. -/
theorem dwellShowsTheSampledPasses : Obligations.DwellShowsTheSampledPasses := by
  intro number s hinit
  obtain ⟨u, t, hrun, happended, hsample, hcfg, hgrew, hcfg', hpc⟩ := dwellCycle_sampled number s
  obtain ⟨early, htrace, hmain, hacks, -⟩ := happended.trace
  obtain ⟨late, htrace', hmain', -, hdwell⟩ := hgrew.trans (complete_grew t) hcfg'
  refine ⟨complete t, early, late, ?_, by rw [htrace', htrace], hmain, hacks, ?_, ?_, by simp [hpc]⟩
  · simp [exec, execDwell, requireInit, hinit, hrun, Progress.finish]
  · rw [hmain', hacks, List.append_nil]
    rfl
  · rw [hdwell, hcfg, hsample, hacks, bumps_add]
    rfl

/-- Settles O32: the levels and the registers are those a dwell cycle leaves; the rest is what a completed command
keeps. -/
theorem dwellFrame : Obligations.DwellFrame := by
  intro number s hinit
  obtain ⟨t, hexec, hc⟩ := exec_completes (i := .dwell number) rfl (by simp) hinit
  have hleaves : DwellCycleLeaves number (dwellAt 31 s) s t := dwellCycleLeaves (first := []) hc.grew hc.sig (by simp)
  have hpoints : commandPoints (.dwell number) s =
      32 + dwellAt 31 s * (72 + 2 * hundredsCount number) + s.cfg.binOeRelease.toNat := by
    have hlen := dwellTrace_length s.cfg number (dwellAt 31 s)
    rw [dwellTrace] at hlen
    rw [commandPoints, commandTrace, hlen]
    omega
  refine ⟨t, hexec, hleaves.serB, hleaves.clkB, hleaves.clrB, hleaves.oeB, hc.keepsControl (by simp) (by simp),
    hleaves.extB, fun hn => ?_, fun hn => ⟨hleaves.kept hn, ?_, hleaves.extSKept hn⟩, hpoints ▸ hc.passed (by simp)⟩
  · have hlevels := hleaves.shown hn
    exact ⟨hlevels.otherAnode, hlevels.anode, hlevels.oeS, hlevels.h1, hlevels.h2, hlevels.serS, hlevels.clkS,
      hlevels.clrS, hc.phase.trans (if_neg (Nat.ne_of_gt hn)), hleaves.extS hn⟩
  · exact hc.phase.trans (if_pos hn)

/-- Settles O34: after its text, which writes nothing, CYCLE is the dwell cycle of the counter. -/
theorem cycleFrame : Obligations.CycleFrame := by
  intro s hinit
  obtain ⟨t, hexec, hc⟩ := exec_completes (i := .cycle) rfl (by simp) hinit
  have hleaves : DwellCycleLeaves s.counter (dwellAt 32 s) s t :=
    dwellCycleLeaves (first := [.e (fmt3 s.counter)]) hc.grew hc.sig (by simp)
  have hpoints : commandPoints .cycle s =
      33 + dwellAt 32 s * (72 + 2 * hundredsCount s.counter) + s.cfg.binOeRelease.toNat := by
    have hlen := dwellTrace_length s.cfg s.counter (dwellAt 32 s)
    rw [dwellTrace] at hlen
    rw [commandPoints, commandTrace, List.length_cons, hlen]
    omega
  refine ⟨t, hexec, hleaves.serB, hleaves.clkB, hleaves.clrB, hleaves.oeB, hc.initialised, hc.irqEnabled, hc.fault,
    hc.cfg, hc.stream, hleaves.extB, fun hn => ?_, fun hn => ⟨hleaves.kept hn, ?_, hleaves.extSKept hn⟩,
    hpoints ▸ hc.passed (by simp)⟩
  · have hlevels := hleaves.shown hn
    exact ⟨hlevels.otherAnode, hlevels.anode, hlevels.oeS, hlevels.h1, hlevels.h2, hlevels.serS, hlevels.clkS,
      hlevels.clrS, hc.phase.trans (if_neg (Nat.ne_of_gt hn)), hleaves.extS hn⟩
  · exact hc.phase.trans (if_pos hn)

end Sys2Proof.Machine
end

section
/-! PROOFS. What the registers show while MUXPASS, DWELL and CYCLE run (43_display_multiplexer.md R122, R129), and
`dwell` over the interrupt steps (70_reset_and_hazards.md R196). -/

namespace Sys2Proof.Machine

open Sys2Proof

/-! ## What is shown meanwhile -/

/-- Settles O43: the segments are shown in a flash alone, where the half's own anode is asserted, and the last frame to
SEG before it was the pattern of that half's digit. -/
theorem flashShowsTheAssertedDigit : Obligations.FlashShowsTheAssertedDigit := by
  intro i s t new before value place hv hrest hclk hexec hnew hb hshown hon
  obtain ⟨rfl, -⟩ | ⟨hmain, -⟩ := exec_appends hexec hnew
  · obtain rfl := List.prefix_nil.1 hb
    exact absurd hshown hrest.2
  · rw [← levelsAfter_mainEvents] at hshown hon
    obtain ⟨start, x, rest, hbefore, hwait, hidle⟩ :=
      shown_in_flash hv hrest.2 (hmain ▸ mainEvents_prefix hb) hshown
    have hplace : x = place := by
      obtain ⟨-, hoff⟩ := levelsAfter_flash_anodes (levelsAfter s.sig start) s.cfg value x hwait
      rw [hbefore, levelsAfter_append, anodeAsserted_iff] at hon
      cases x <;> cases place <;> simp_all [otherPlace]
    subst hplace
    rw [halfLead_eq, List.append_assoc, ← List.append_assoc, ← List.append_assoc] at hbefore
    have hext := emit_ext_of_last_frame (r := .seg) (s := s.quiet) rfl hbefore ?_ ?_
    · have hread : (Outside.readAll s.cfg.latchMode s.outside before).extS = (emit before s.quiet).ext .seg :=
        (congrArg Outside.extS (emit_outside before s.quiet)).symm
      rw [hread, hext]
      exact extOut_extAfterFrame ..
    · rw [levelsAfter_append]
      exact (levelsAfter_halfSetup_clkS ..).trans (hidle hclk)
    · refine not_writesLines_of_writes (os := [.oeS]) (fun o u hmem => ?_) (by decide)
      obtain heq | hmem := List.mem_cons.1 hmem
      · cases heq
        exact List.mem_cons_self
      · exact absurd (hwait _ hmem) nofun

/-- The trace of a DWELL or CYCLE: a text at most, the binary load, the halves of the passes, the release. -/
theorem commandTrace_of_dwell {i : Instr} (h : (∃ n, i = .dwell n) ∨ i = .cycle) (s : State) :
    ∃ first number n, (∀ o u, .w o u ∉ first) ∧ commandTrace i s =
      first ++ binLoadTrace number ++ halvesTrace s.cfg number (passPlaces n) ++ releaseTrace s.cfg := by
  obtain ⟨number, rfl⟩ | rfl := h
  · exact ⟨[], number, dwellAt 31 s, by simp, dwellTrace_eq_halves ..⟩
  · refine ⟨[.e (fmt3 s.counter)], s.counter, dwellAt 32 s, by simp, ?_⟩
    rw [commandTrace, ← dwellTrace, dwellTrace_eq_halves]
    rfl

/-- Settles O48: the segments are dark until BIN is loaded and shown and after the passes, and the passes do not write
OE_B. -/
theorem binaryShownWheneverADigitIs : Obligations.BinaryShownWheneverADigitIs := by
  intro i s t new before hi hdark hexec hnew hb hshown
  have hs : Dark s.sig := fun h => by cases hdark.symm.trans h
  obtain ⟨rfl, -⟩ | ⟨hmain, -⟩ := exec_appends hexec hnew
  · obtain rfl := List.prefix_nil.1 hb
    exact absurd hshown hs
  · obtain ⟨first, number, n, hfirst, htrace⟩ := commandTrace_of_dwell hi s
    have hb' := hmain.trans htrace ▸ mainEvents_prefix hb
    have hload : .w .oeS false ∉ first ++ binLoadTrace number := fun h =>
      absurd (binLoadTrace_writes ((List.mem_append.1 h).resolve_left (hfirst _ _))) (by decide)
    rw [← levelsAfter_mainEvents] at hshown ⊢
    obtain hin | ⟨c, hbefore, hc⟩ := prefix_append_cases hb'
    · obtain hin | ⟨c, hbefore, hc⟩ := prefix_append_cases hin
      · exact absurd hshown (hs.after fun h => hload (hin.subset h))
      · rw [hbefore, levelsAfter_append, levelsAfter_append]
        refine (levelsAfter_get_of_not_written _ .oeB _ fun o u hmem heq => ?_).trans (levelsAfter_binLoad_oeB ..)
        exact absurd (heq ▸ halvesTrace_writes (hc.subset hmem)) (by decide)
    · rw [hbefore, levelsAfter_append, levelsAfter_append] at hshown
      refine absurd hshown (((hs.after hload).after_halves _ _ _).after fun h => ?_)
      exact absurd (releaseTrace_writes (hc.subset h)) (by decide)

theorem not_mem_binLoadTrace_oeB_true (number : Byte) : .w .oeB true ∉ binLoadTrace number := by
  intro h
  obtain h | h := List.mem_append.1 h
  · exact absurd (frameTrace_writes h) (by decide)
  · simp at h

/-- The release is one event, or there is none. -/
theorem eq_releaseTrace_of_prefix {p : Params} {c : List Event} (h : c <+: releaseTrace p) (hc : c ≠ []) :
    p.binOeRelease = true ∧ c = releaseTrace p := by
  unfold releaseTrace at h ⊢
  split at h
  · next hrelease =>
    obtain rfl | ⟨d, rfl, hd⟩ := List.prefix_cons_iff.1 h
    · exact absurd rfl hc
    · rw [if_pos hrelease, List.prefix_nil.1 hd]
      exact ⟨hrelease, rfl⟩
  · exact absurd (List.prefix_nil.1 h) hc

/-- Settles O49: until the release OE_B is written to 0 alone, and nothing follows the release. -/
theorem binaryStaysShownUntilTheRelease : Obligations.BinaryStaysShownUntilTheRelease := by
  intro i s t new before hi hexec hnew hb hmem
  refine ⟨fun hno => levelsAfter_get_of_written hmem hno, fun hreleased => ?_⟩
  obtain ⟨rfl, -⟩ | ⟨hmain, -⟩ := exec_appends hexec hnew
  · obtain rfl := List.prefix_nil.1 hb
    cases hmem
  · obtain ⟨first, number, n, hfirst, htrace⟩ := commandTrace_of_dwell hi s
    have hmain' := hmain.trans htrace
    have hwritten : .w .oeB true ∈ mainEvents before := by simp [mainEvents, hreleased, Event.isAck]
    have hnone : .w .oeB true ∉ first ++ binLoadTrace number ++ halvesTrace s.cfg number (passPlaces n) := by
      simp only [List.mem_append, not_or]
      exact ⟨⟨hfirst _ _, not_mem_binLoadTrace_oeB_true number⟩, fun h => absurd (halvesTrace_writes h) (by decide)⟩
    obtain hin | ⟨c, hbefore, hc⟩ := prefix_append_cases (hmain' ▸ mainEvents_prefix hb)
    · exact absurd (hin.subset hwritten) hnone
    · have hne : c ≠ [] := by
        rintro rfl
        exact hnone (by simpa [hbefore] using hwritten)
      obtain ⟨hrelease, hall⟩ := eq_releaseTrace_of_prefix hc hne
      exact ⟨hrelease, by rw [hbefore, hall, hmain']⟩

/-! ## `dwell` over the interrupt steps -/

theorem bumps_succ (w : DwellWidth) (m d : Nat) : bumps w (m + 1) d = bumpDwell w (bumps w m d) := bumps_add w m 1 d

/-- m interrupt steps from power-on add 100 m to the 100 of power-on, modulo the width. -/
theorem bumps_dwellInit (w : DwellWidth) (m : Nat) : bumps w m dwellInit = 100 * (1 + m) % 2 ^ dwellBits w := by
  induction m with
  | zero => cases w <;> rfl
  | succ m ih =>
    have hsum : 100 * (1 + m) + 100 = 100 * (1 + (m + 1)) := by omega
    rw [bumps_succ, ih, bumpDwell, dwellInc, Nat.mod_add_mod, hsum]

/-- Settles O39: 100 (1 + m) is a multiple of 256 first at m = 63, and of 65536 first at m = 16383. -/
theorem dwellGrowsByHundredsAndWraps : Obligations.DwellGrowsByHundredsAndWraps := by
  have h8 (m : Nat) : bumps .w8 m dwellInit = 100 * (1 + m) % 256 := bumps_dwellInit .w8 m
  have h16 (m : Nat) : bumps .w16 m dwellInit = 100 * (1 + m) % 65536 := bumps_dwellInit .w16 m
  refine ⟨bumps_dwellInit, h8 63, fun m hm => ?_, h16 16383, fun m hm => ?_⟩
  · rw [h8]
    omega
  · rw [h16]
    omega

end Sys2Proof.Machine
end

section
/-! PROOFS. CYCLE: its text, its dwell cycle and its count (44_coordinator.md R131 to R134). -/

namespace Sys2Proof.Machine

open Sys2Proof

/-! ## The count -/

theorem Completed.cycle_counter {s t : State} (h : Completed .cycle s t) :
    t.counter.toNat = (s.counter.toNat + 1) % 256 := by
  rw [h.counter, if_pos rfl, BitVec.toNat_add]
  rfl

/-- A command that records no fault is followed by the rest. -/
theorem execAll_cons {i : Instr} {s t : State} (h : exec i s = .next t) (hf : t.fault = none) (rest : List Instr) :
    execAll (i :: rest) s = execAll rest t := by
  rw [execAll, h]
  exact if_pos hf

/-- Settles O35, by induction on k: after INIT a CYCLE completes, and leaves a state from which the next does. -/
theorem cyclesCountModulo256 : Obligations.CyclesCountModulo256 := by
  intro k
  induction k with
  | zero =>
    intro s _ _
    exact ⟨s, rfl, (Nat.mod_eq_of_lt s.counter.isLt).symm, rfl⟩
  | succ k ih =>
    intro s hinit hfault
    obtain ⟨u, hexec, hc⟩ := exec_completes (i := .cycle) rfl (by simp) hinit
    have hu : u.fault = none := hc.fault.trans hfault
    obtain ⟨t, hrest, hcounter, hpc⟩ := ih u hc.initialised hu
    refine ⟨t, ?_, ?_, ?_⟩
    · rw [List.replicate_succ, execAll_cons hexec hu, hrest]
    · rw [hcounter, hc.cycle_counter]
      omega
    · rw [hpc, hc.pc]
      omega

/-! ## One text for each count -/

@[simp] theorem textCount_nil : textCount [] = 0 := rfl

@[simp] theorem textCount_cons (e : Event) (l : List Event) :
    textCount (e :: l) = textCount l + if e.isText then 1 else 0 := List.countP_cons

@[simp] theorem textCount_append (a b : List Event) : textCount (a ++ b) = textCount a + textCount b :=
  List.countP_append

/-- No acknowledge is a text, so texts may be counted on the main agent's events. -/
theorem textCount_mainEvents (l : List Event) : textCount (mainEvents l) = textCount l := by
  induction l with
  | nil => rfl
  | cons e rest ih => cases e <;> simpa [mainEvents, Event.isAck, Event.isText] using ih

theorem textCount_eq_zero {l : List Event} (h : ∀ e ∈ l, e.isText = false) : textCount l = 0 :=
  List.countP_eq_zero.2 fun e he => by simp [h e he]

@[simp] theorem textCount_frameTrace (r : Reg) (v : Byte) : textCount (frameTrace r v) = 0 := rfl

@[simp] theorem textCount_displayTrace (p : Params) (number : Byte) (place : Place) :
    textCount (displayTrace p number place) = 0 := by
  unfold displayTrace
  split <;> split <;> simp [Event.isText]

@[simp] theorem textCount_passTrace (p : Params) (number : Byte) : textCount (passTrace p number) = 0 := by
  simp [passTrace, Event.isText]

@[simp] theorem textCount_passes (p : Params) (number : Byte) (n : Nat) :
    textCount (List.replicate n (passTrace p number)).flatten = 0 := by
  induction n with
  | zero => rfl
  | succ n ih => simp [List.replicate_succ, ih]

@[simp] theorem textCount_binLoadTrace (number : Byte) : textCount (binLoadTrace number) = 0 := rfl

@[simp] theorem textCount_shownTrace (p : Params) (number : Byte) (n : Nat) :
    textCount (shownTrace p number n) = 0 := by
  unfold shownTrace
  split <;> simp [Event.isText]

/-- CYCLE emits one text, and no other command emits any (44_coordinator.md R131). -/
theorem textCount_commandTrace (i : Instr) (s : State) :
    textCount (commandTrace i s) = if i = .cycle then 1 else 0 := by
  cases i with
  | cycle => simp [commandTrace, Event.isText]
  | init => rfl
  | shiftout | dispint | muxpass | dwell => simp [commandTrace]
  | pinset sig | pinclr sig => exact textCount_eq_zero (by simp [commandTrace, Event.isText])
  | delay n => rfl

theorem Grew.texts {main : List Event} {s t : State} (h : Grew main s t) :
    textCount t.trace = textCount s.trace + textCount main := by
  obtain ⟨new, htrace, rfl, -⟩ := h
  rw [htrace, textCount_append, textCount_mainEvents]

/-- A command that completes counts up once for each text it emits. -/
theorem Completed.counter_eq_add_texts {i : Instr} {s t : State} (h : Completed i s t) :
    t.counter = s.counter + BitVec.ofNat 8 (textCount (commandTrace i s)) := by
  rw [h.counter, textCount_commandTrace]
  split
  · rfl
  · exact (BitVec.add_zero _).symm

theorem Completed.counterCountsTexts {i : Instr} {s t : State} (h : Completed i s t) (hs : CounterCountsTexts s) :
    CounterCountsTexts t := by
  unfold CounterCountsTexts at *
  rw [h.counter_eq_add_texts, h.grew.texts, BitVec.ofNat_add, ← hs]

/-- Settles O56: a fault emits nothing and keeps the counter, and a command that completes counts the texts it emits. -/
theorem stepKeepsCounterCountingTexts : Obligations.StepKeepsCounterCountingTexts := by
  intro s t hs hstep
  obtain ⟨-, -, ⟨k, rfl⟩ | ⟨i, hc⟩⟩ := step_inversion hstep
  · exact hs
  · exact hc.counterCountsTexts hs

/-! ## What CYCLE shows -/

theorem digitChar_toNat {d : Nat} (h : d ≤ 9) : (digitChar d).toNat = 0x30 + d := by
  rw [digitChar, BitVec.toNat_ofNat]
  omega

/-- The text CYCLE emits is the counter's (44_coordinator.md R133). -/
theorem isCounterText_fmt3 (v : Byte) : IsCounterText v (fmt3 v) := by
  have hv := v.isLt
  refine ⟨_, _, _, rfl, ?_, ?_, digitChar_toNat (by omega)⟩
  · by_cases h : v.toNat < 100
    · rw [if_pos h, if_neg (by omega)]
      rfl
    · rw [if_neg h, if_pos (by omega), digitChar_toNat (by omega)]
  · by_cases h : v.toNat < 10
    · rw [if_pos h, if_neg (by omega)]
      rfl
    · rw [if_neg h, if_pos (by omega), digitChar_toNat (by omega)]

/-- A sample is the same, counted from a later point. -/
theorem dwellAt_add {m : Nat} {s t : State} (h : EnvPassed m s t) (hk : KeepsControl s t) (n : Nat) :
    dwellAt (m + n) s = dwellAt n t := by
  have hirqs := irqsTaken_add m n s t h.env hk.irqEnabled
  unfold irqsTaken at hirqs
  rw [dwellAt, dwellAt, hirqs, bumps_add, ← h.dwell, hk.cfg]

/-- CYCLE's body in two parts: its text and its dwell cycle's up to the sample of `dwell`, and the passes sampled with
the count (44_coordinator.md R131, 43_display_multiplexer.md R125). -/
theorem cycleBody_sampled (s : State) :
    ∃ u t, cycleBody s = .ok t ∧
      Appended ([.e (fmt3 s.counter)] ++ binLoadTrace s.counter) (irqsTaken 32 s) s u ∧ u.dwell = dwellAt 32 s ∧
      u.cfg = s.cfg ∧ Grew (shownTrace s.cfg s.counter (dwellAt 32 s)) u t ∧ t.cfg = u.cfg := by
  have htext : Plain [.ev (.e (fmt3 s.counter))] := by simp [Event.isAck]
  have hkeeps := after_keepsControl htext s
  have hpassed := after_envPassed htext s
  have happended := after_appended htext s
  obtain ⟨u, t, hrun, hload, hsample, hcfg, hgrew, hcfg', -⟩ :=
    dwellCycle_sampled s.counter (after [.ev (.e (fmt3 s.counter))] s)
  have hsampled : dwellAt 31 (after [.ev (.e (fmt3 s.counter))] s) = dwellAt 32 s :=
    (dwellAt_add hpassed hkeeps 31).symm
  have hirqs : irqsTaken 32 s = irqsTaken 1 s + irqsTaken 31 (after [.ev (.e (fmt3 s.counter))] s) :=
    irqsTaken_add 1 31 s _ hpassed.env hkeeps.irqEnabled
  rw [hkeeps.cfg, hsampled] at hgrew
  refine ⟨u, { t with counter := t.counter + 1#8 }, ?_, ?_, ?_, hcfg.trans hkeeps.cfg, ?_, hcfg'⟩
  · rw [cycleBody, play_noRaise htext.noRaise, Progress.andThen, hrun]
    rfl
  · exact hirqs ▸ happended.trans hload hkeeps.cfg
  · exact hsample.trans hsampled
  · have hcount : Grew [] t { t with counter := t.counter + 1#8 } := .of_same rfl rfl rfl
    simpa using hgrew.trans hcount hcfg'

/-- Settles O33: `early` ends with the sample's own interleaving point, as in DWELL; the counter and `pc` are those of a
CYCLE that completes. -/
theorem cycleShowsTheCounterAndCountsUp : Obligations.CycleShowsTheCounterAndCountsUp := by
  intro s hinit
  obtain ⟨u, t, hrun, happended, hsample, hcfg, hgrew, hcfg'⟩ := cycleBody_sampled s
  have hexec : exec .cycle s = .next (complete t) := by
    simp [exec, execCycle, requireInit, hinit, hrun, Progress.finish]
  obtain ⟨v, hexec', hc⟩ := exec_completes (i := .cycle) rfl (by simp) hinit
  obtain rfl : complete t = v := by rw [hexec] at hexec'; injection hexec'
  obtain ⟨early, htrace, hmain, hacks, -⟩ := happended.trace
  obtain ⟨late, htrace', hmain', -, hdwell⟩ := hgrew.trans (complete_grew t) hcfg'
  refine ⟨complete t, early, late, fmt3 s.counter, hexec, isCounterText_fmt3 s.counter, by rw [htrace', htrace], ?_,
    hacks, ?_, ?_, hc.cycle_counter, hc.pc⟩
  · rw [hmain, binLoadTrace, List.append_assoc]
  · rw [hmain', hacks, List.append_nil]
    rfl
  · rw [hdwell, hcfg, hsample, hacks, bumps_add]
    rfl

end Sys2Proof.Machine
end

section
/-! PROOFS. INIT (45_primitives.md R140 to R145): what it refuses, what it shows and leaves, and the silence before it
completes. -/

namespace Sys2Proof.Machine

open Sys2Proof

/-! ## What INIT refuses -/

/-- A second INIT raises ReInit before it looks at the pin map (60_exceptions.md R159). -/
theorem exec_init_again {s : State} (hinit : s.initialised = true) : exec .init s = .next (raiseFault .reInit s) :=
  if_pos hinit

/-- Settles O14: ReInit is the first of INIT's checks. -/
theorem secondInitIsReInit : Obligations.SecondInitIsReInit := fun _ hinit => exec_init_again hinit

/-- No two signals of a list on one pin have places that come before i and j in lexicographic order. -/
def NoClashBefore (m : PinMap) (l : List Signal) (i j : Nat) : Prop :=
  ∀ (i' j' : Nat) (x' y' : Signal), i' < j' → l[i']? = some x' → l[j']? = some y' → pinOf m x' = pinOf m y' →
    i < i' ∨ (i = i' ∧ j ≤ j')

theorem NoClashBefore.tail {m : PinMap} {x : Signal} {rest : List Signal} {i j : Nat}
    (h : NoClashBefore m (x :: rest) (i + 1) (j + 1)) : NoClashBefore m rest i j := by
  intro i' j' x' y' hlt hx hy hpin
  have := h (i' + 1) (j' + 1) x' y' (by omega) hx hy hpin
  omega

/-- A clash with the head of the list: it comes no earlier either. -/
theorem NoClashBefore.head {m : PinMap} {x y : Signal} {rest : List Signal} {i j k : Nat}
    (h : NoClashBefore m (x :: rest) i j) (hy : rest[k]? = some y) (hpin : pinOf m x = pinOf m y) :
    i = 0 ∧ j ≤ k + 1 := by
  have := h 0 (k + 1) x y (Nat.succ_pos k) rfl hy hpin
  omega

/-- The search tries the clashes with the head first. -/
theorem find?_orderedPairs_cons (m : PinMap) (x : Signal) (rest : List Signal) :
    (orderedPairs (x :: rest)).find? (fun p => pinOf m p.1 == pinOf m p.2) =
      ((rest.find? fun y => pinOf m x == pinOf m y).map (x, ·)).or
        ((orderedPairs rest).find? fun p => pinOf m p.1 == pinOf m p.2) := by
  rw [orderedPairs, List.find?_append, List.find?_map]
  rfl

/-- The search through the ordered pairs finds the clash that no other precedes. -/
theorem find?_orderedPairs {m : PinMap} {l : List Signal} {i j : Nat} {x y : Signal} (hlt : i < j)
    (hx : l[i]? = some x) (hy : l[j]? = some y) (hpin : pinOf m x = pinOf m y) (hleast : NoClashBefore m l i j) :
    (orderedPairs l).find? (fun p => pinOf m p.1 == pinOf m p.2) = some (x, y) := by
  induction l generalizing i j with
  | nil => simp at hx
  | cons head rest ih =>
    obtain ⟨j, rfl⟩ := Nat.exists_eq_add_one_of_ne_zero (Nat.ne_zero_of_lt hlt)
    rw [List.getElem?_cons_succ] at hy
    rw [find?_orderedPairs_cons]
    cases i with
    | zero =>
      obtain rfl : head = x := Option.some.inj hx
      obtain ⟨hj, hyj⟩ := List.getElem?_eq_some_iff.1 hy
      have hfirst : rest.find? (fun z => pinOf m head == pinOf m z) = some y := by
        refine List.find?_eq_some_iff_getElem.2 ⟨beq_iff_eq.2 hpin, j, hj, hyj, fun k hk => ?_⟩
        by_contra hclash
        have := (hleast.head (List.getElem?_eq_getElem (hk.trans hj)) (by simpa using hclash)).2
        omega
      rw [hfirst]
      rfl
    | succ i =>
      have hnone : rest.find? (fun z => pinOf m head == pinOf m z) = none := by
        refine List.find?_eq_none.2 fun z hz hclash => ?_
        obtain ⟨k, hk⟩ := List.mem_iff_getElem?.1 hz
        exact absurd (hleast.head hk (beq_iff_eq.1 hclash)).1 (Nat.succ_ne_zero i)
      rw [hnone]
      exact ih (Nat.lt_of_succ_lt_succ hlt) hx hy hleast.tail

theorem exec_init_clash {s : State} {x y : Signal} (hinit : s.initialised = false)
    (hclash : firstClash s.cfg.pinMap = some (x, y)) : exec .init s = .next (raiseFault (.configError x y) s) := by
  simp only [exec, execInit, hinit, hclash, Bool.false_eq_true, if_false]

/-- Settles O15: the pairs are searched in the order of the ids, so the least clash is the first that is found. -/
theorem initReportsTheLeastPinClash : Obligations.InitReportsTheLeastPinClash := by
  intro s i j x y hinit hlt hx hy hpin hleast
  exact exec_init_clash hinit (find?_orderedPairs hlt hx hy hpin hleast)

/-! ## What INIT does -/

/-- A pin map with no two signals on one pin has no clash: the pairs searched are of different signals. -/
theorem firstClash_of_injective {m : PinMap} (hinj : ∀ x y : Signal, pinOf m x = pinOf m y → x = y) :
    firstClash m = none := by
  have hdistinct : ∀ p ∈ orderedPairs allSignals, p.1 ≠ p.2 := by decide
  exact List.find?_eq_none.2 fun p hp hclash => hdistinct p hp (hinj _ _ (beq_iff_eq.1 hclash))

theorem exec_init {s : State} (hinit : s.initialised = false) (hclash : firstClash s.cfg.pinMap = none) :
    exec .init s = .next (complete (after (initMicros s.cfg) s)) := by
  have hraise : NoRaise (initMicros s.cfg) := by simp [NoRaise, initMicros, allOutputs]
  simp only [exec, execInit, hinit, hclash, Bool.false_eq_true, if_false, play_noRaise hraise, Progress.finish]

theorem plain_initTrace (p : Params) : Plain ((initTrace p).map .ev) :=
  plain_map_ev (by simp [initTrace, allOutputs, Event.isAck])

/-- INIT's list: its events, then the enables (45_primitives.md R144). -/
theorem after_initMicros (p : Params) (s : State) :
    after (initMicros p) s = { after ((initTrace p).map .ev) s with irqEnabled := true, initialised := true } := by
  have hlist : initMicros p = (initTrace p).map .ev ++ [.irqOn, .initDone] := rfl
  rw [hlist, after_append]
  rfl

/-- The levels INIT drives do not depend on those before (45_primitives.md R143). -/
theorem levelsAfter_init (l : Levels) (p : Params) :
    levelsAfter l (initTrace p) =
      { serB := some false, clkB := some false, clrB := some true, oeB := some true,
        serS := some false, clkS := some false, clrS := some true, oeS := some true,
        anOnes := some (!p.anodeOn), anTens := some (!p.anodeOn), h1 := some false, h2 := some false } := rfl

/-- Events that neither clear a register nor raise its clock line leave its contents (60_exceptions.md R173). -/
theorem after_ext_of_no_edge {r : Reg} {ms : List Micro} (hclr : .w (clrOf r) false ∉ eventsOf ms)
    (hclk : .w (clkOf r) true ∉ eventsOf ms) (s : State) : (after ms s).ext r = s.ext r := by
  induction ms generalizing s with
  | nil => rfl
  | cons m rest ih =>
    cases m with
    | ev e =>
      simp only [eventsOf, List.mem_cons, not_or] at hclr hclk
      rw [after, ih hclr.2 hclk.2]
      cases e with
      | w o v =>
        rw [recordEvent_w, drive_ext, envPoint_ext]
        refine extWrite_idle _ _ _ _ _ (fun ho => ?_) (fun ho => ?_)
        · subst ho; simpa using hclr.1
        · subst ho; simpa using hclk.1
      | d | e | cfg | ien | a => cases r <;> simp [recordEvent, State.ext]
    | phase | irqOn | initDone | countUp | raise => exact (ih hclr hclk _).trans (by cases r <;> rfl)

/-- INIT writes the clear lines to 1 and the clock lines to 0 (45_primitives.md R143): neither register changes. -/
theorem after_init_ext (p : Params) (s : State) (r : Reg) : (after (initMicros p) s).ext r = s.ext r := by
  refine after_ext_of_no_edge ?_ ?_ s <;> rw [eventsOf_init] <;> cases r <;>
    simp [initTrace, allOutputs, initLevel, clrOf, clkOf]

/-- With no interrupt step in it, a stretch of the run appends the main agent's events and nothing else. -/
theorem Appended.trace_eq {main : List Event} {s t : State} (h : Appended main 0 s t) : t.trace = s.trace ++ main := by
  obtain ⟨new, htrace, hmain, hacks, -⟩ := h.trace
  have hall : mainEvents new = new :=
    List.filter_eq_self.2 fun e he => by simpa using List.countP_eq_zero.1 hacks e he
  rw [htrace, ← hmain, hall]

/-- Before the interrupt is enabled its agent takes no step (60_exceptions.md R161). -/
theorem irqsTaken_disabled {s : State} (h : s.irqEnabled = false) (n : Nat) : irqsTaken n s = 0 := by
  rw [irqsTaken, h]
  rfl

/-- The state at INIT's end, before its last interleaving point: no interrupt step has fallen yet (45_primitives.md
R145). -/
theorem after_init_silent {s : State} (hirq : s.irqEnabled = false) :
    (after (initMicros s.cfg) s).trace = s.trace ++ initTrace s.cfg ∧ (after (initMicros s.cfg) s).dwell = s.dwell ∧
      (after (initMicros s.cfg) s).irqEnabled = true := by
  have hplain := plain_initTrace s.cfg
  have happended := after_appended hplain s
  have hdwell := after_dwell hplain s
  rw [irqsTaken_disabled hirq] at happended hdwell
  have htrace := happended.trace_eq
  rw [eventsOf_map_ev] at htrace
  rw [after_initMicros]
  exact ⟨htrace, hdwell, rfl⟩

/-- INIT begun before INIT on a pin map without a clash completes: each of its faults needs one of the premises to
fail. -/
theorem init_completes {s t : State} (hinit : s.initialised = false) (hclash : firstClash s.cfg.pinMap = none)
    (hexec : exec .init s = .next t) : Completed .init s t := by
  obtain ⟨k, -, ⟨-, hill⟩ | ⟨-, hnot, -⟩ | ⟨-, -, hdone⟩ | ⟨p, -, -, -, hp⟩⟩ | hc := exec_inversion hexec
  · exact absurd rfl hill
  · exact absurd rfl hnot
  · simp [hinit] at hdone
  · simp [hclash] at hp
  · exact hc

/-- Settles O19: the interrupt is enabled after INIT's last event, so its list appends its events alone, and the
interrupt steps that fall at the command's end follow them. -/
theorem initConfiguresDrivesAndEnables : Obligations.InitConfiguresDrivesAndEnables := by
  intro s hinit hirq hinj
  have hclash := firstClash_of_injective hinj
  have hexec := exec_init hinit hclash
  have hc := init_completes hinit hclash hexec
  obtain ⟨htrace, hdwell, henabled⟩ := after_init_silent hirq
  obtain ⟨acks, hgrown, hmain, hacks, -⟩ := (complete_appended (after (initMicros s.cfg) s)).trace
  have hext (r : Reg) : (complete (after (initMicros s.cfg) s)).ext r = s.ext r := by
    rw [complete_ext, after_init_ext]
  have hirqs : irqsTaken 1 (after (initMicros s.cfg) s) = irqsIn ((s.env.drop 26).take 1) := by
    rw [irqsTaken, if_pos henabled, after_env]
    rfl
  have hbumped := (complete_envPassed (after (initMicros s.cfg) s)).dwell
  rw [← irqsTaken, hirqs, hdwell, after_cfg] at hbumped
  refine ⟨_, acks, hexec, by rw [hgrown, htrace]; rfl, hmain, hacks.trans hirqs, hbumped, hc.sig, hc.initialised,
    hc.irqEnabled, hc.pc, hc.fault, hc.counter, hc.phase, hc.cfg, hc.stream, hc.env, hc.btn, hext .bin, hext .seg⟩

/-! ## Before INIT completes -/

/-- Settles O58: a fault writes nothing but its record, and a command that completes leaves INIT done. -/
theorem stepKeepsSilenceUntilInit : Obligations.StepKeepsSilenceUntilInit := by
  intro s t hs hstep
  obtain ⟨-, -, ⟨k, rfl⟩ | ⟨i, hc⟩⟩ := step_inversion hstep
  · exact hs
  · intro hinit
    simp [hc.initialised] at hinit

end Sys2Proof.Machine
end

section
/-! PROOFS. PINSET, PINCLR and DELAY (45_primitives.md R146 to R148): one event, and what it does to the outputs and the
external registers (60_exceptions.md R173). -/

namespace Sys2Proof.Machine

open Sys2Proof

/-! ## One write and a register -/

/-- A line set has no effect on a register but by a shift edge: its clock line from 0, with its clear line at 1. -/
theorem extWrite_set_no_edge {before : Levels} {r : Reg} {o : Out} (mode : LatchMode) (seen : List Event) (x : ExtReg)
    (h : o ≠ clkOf r ∨ before.get o ≠ some false ∨ before.get (clrOf r) ≠ some true) :
    extWrite mode before seen r o true x = x := by
  unfold extWrite
  refine (if_neg (by simp)).trans (if_neg ?_)
  rintro ⟨rfl, -, hclk, hclr⟩
  simp [hclk, hclr] at h

/-- A line cleared has no effect on a register but by its clear line, which empties the stages. -/
theorem extWrite_clear (mode : LatchMode) (before : Levels) (seen : List Event) (r : Reg) (o : Out) (x : ExtReg) :
    extWrite mode before seen r o false x = if o = clrOf r then { x with sr := 0#8 } else x := by
  simp [extWrite]

theorem serialBit_of_driven {before : Levels} {r : Reg} {bit : Bool} (h : before.get (serOf r) = some bit)
    (seen : List Event) : serialBit before seen r = bit := by
  rw [serialBit, h]

/-- A shift edge as 60_exceptions.md R173 words it. -/
theorem shiftedIn_shifted {mode : LatchMode} {ser : Option Bool} {bit : Bool} (h : ∀ b, ser = some b → bit = b)
    (x : ExtReg) : ShiftedIn mode ser x (shifted mode x bit) := by
  refine ⟨fun k hk => ?_, fun b hb => ?_, rfl⟩
  · rw [shifted_sr, getLsbD_shiftIn _ _ (by omega)]
    simp
  · rw [shifted_sr, getLsbD_shiftIn _ _ (by omega), if_pos rfl, h b hb]

/-! ## PINSET and PINCLR -/

/-- What a command that drives one output and completes has done (45_primitives.md R146, R147). -/
structure DroveOne (o : Out) (v : Bool) (s t : State) : Prop where
  shows : Shows [.w o v] s t
  level : t.sig.get o = some v
  outputs : KeepsOutputs [o] s t
  control : KeepsControl s t
  phase : t.phase = s.phase
  passed : EnvPassed 2 s t
  pc : t.pc = s.pc + 1
  ext : ∃ seen, ∀ r, t.ext r = extWrite s.cfg.latchMode s.sig seen r o v (s.ext r)

/-- A pin command of an output drives it once and completes. -/
theorem pinWrite_drives (i : Instr) {sig : BitVec 4} {o : Out} (v : Bool) {s : State} (ho : outOfField sig = some o)
    (hinit : s.initialised = true) : ∃ t, pinWrite i sig v s = .next t ∧ DroveOne o v s t := by
  have hplain : Plain [.ev (.w o v)] := by simp [Event.isAck]
  obtain ⟨t, hexec, hpc, hkeeps, hpassed, happended, hsig, rfl⟩ := requireInit_plain i hplain hinit
  have hlevels : (complete (after [.ev (.w o v)] s)).sig = s.sig.set o v := hsig
  refine ⟨_, (pinWrite_of_output i v s ho).trans hexec, happended.shows, ?_, fun p hp => ?_, hkeeps, ?_, hpassed, hpc,
    (envPoint s).log, fun r => ?_⟩
  · rw [hlevels, Levels.get_set_same]
  · rw [hlevels, Levels.get_set_other _ _ (List.ne_of_not_mem_cons hp)]
  · rw [complete_phase, after_phase]
    rfl
  · simp [complete_ext, after, recordEvent_w, drive_ext]

/-- Settles O36: the level written decides which of the two effects of 60_exceptions.md R173 the write can have. -/
theorem pinCommandsDriveOneOutput : Obligations.PinCommandsDriveOneOutput := by
  intro sig s hlegal hinit
  obtain ⟨o, ho⟩ := outOfField_some (decide_eq_true hlegal)
  obtain ⟨t, hset, ht⟩ := pinWrite_drives (.pinset sig) true ho hinit
  obtain ⟨u, hclear, hu⟩ := pinWrite_drives (.pinclr sig) false ho hinit
  obtain ⟨seen, htext⟩ := ht.ext
  obtain ⟨seen', huext⟩ := hu.ext
  refine ⟨o, ho,
    ⟨t, hset, ht.shows, ht.level, ht.outputs, ht.control, ht.phase, ht.passed, ht.pc, ?_, fun r h => ?_⟩,
    ⟨u, hclear, hu.shows, hu.level, hu.outputs, hu.control, hu.phase, hu.passed, hu.pc, fun r => ?_⟩⟩
  · rintro r rfl hclk hclr
    rw [htext, extWrite_clk_rising _ _ _ hclk hclr]
    exact shiftedIn_shifted (fun bit hbit => serialBit_of_driven hbit seen) _
  · rw [htext, extWrite_set_no_edge _ _ _ h]
  · rw [huext, extWrite_clear]

/-! ## DELAY -/

/-- Settles O37: DELAY's list is its one wait, which is no write. -/
theorem delayShowsOneWait : Obligations.DelayShowsOneWait := by
  intro n s hinit
  have hplain : Plain [.ev (.d n.toNat)] := by simp [Event.isAck]
  obtain ⟨t, hexec, hpc, hkeeps, hpassed, happended, hsig, rfl⟩ := requireInit_plain (.delay n) hplain hinit
  have hext (r : Reg) : (complete (after [.ev (.d n.toNat)] s)).ext r = s.ext r := by
    rw [complete_ext, after_ext_of_not_writesLines]
    rintro e he ⟨o, v, rfl, -⟩
    simp [eventsOf] at he
  refine ⟨_, hexec, happended.shows, hsig, hkeeps, ?_, hext .bin, hext .seg, hpassed, hpc⟩
  rw [complete_phase, after_phase]
  rfl

end Sys2Proof.Machine
end

section
/-! PROOFS. Faults and stops (60_exceptions.md R155 to R158, 70_reset_and_hazards.md R189), and the interrupt agent
(60_exceptions.md R161 to R165, 70_reset_and_hazards.md R196). -/

namespace Sys2Proof.Machine

open Sys2Proof

/-! ## `dwell` and the acknowledges -/

/-- `dwell` counts the acknowledges of the trace where it is what that many interrupt steps make of DWELL_INIT. -/
theorem dwellCountsAcks_iff (s : State) :
    DwellCountsAcks s ↔ s.dwell = bumps s.cfg.dwellWidth (ackCount s.trace) dwellInit := by
  rw [bumps_dwellInit]
  rfl

/-- Settles O54: a step adds to `dwell` once for each acknowledge it appends. -/
theorem stepKeepsDwellCountingAcknowledges : Obligations.StepKeepsDwellCountingAcknowledges := by
  intro s t hs hstep
  obtain ⟨main, new, htrace, -, -, hdwell⟩ := step_grew hstep
  rw [dwellCountsAcks_iff] at hs ⊢
  calc t.dwell
    _ = bumps s.cfg.dwellWidth (ackCount new) (bumps s.cfg.dwellWidth (ackCount s.trace) dwellInit) := hs ▸ hdwell
    _ = bumps s.cfg.dwellWidth (ackCount s.trace + ackCount new) dwellInit := (bumps_add ..).symm
    _ = bumps t.cfg.dwellWidth (ackCount t.trace) dwellInit := by
      rw [step_cfg hstep, htrace, ackCount, ackCount, ackCount, List.countP_append]

/-! ## Which fault a command raises -/

/-- Command `i`, begun in `s`, meets the condition of fault `k` (60_exceptions.md R155). Nothing of it is the
environment's. -/
def Raises (i : Instr) (s : State) (k : FaultKind) : Prop :=
  (k = .illegalCommand (encode i) ∧ ¬i.WellFormed) ∨
    (k = .notInitialised (encode i) ∧ i ≠ .init ∧ i.WellFormed ∧ s.initialised = false) ∨
    (k = .reInit ∧ i = .init ∧ s.initialised = true) ∨
    (∃ p, k = .configError p.1 p.2 ∧ i = .init ∧ s.initialised = false ∧ firstClash s.cfg.pinMap = some p)

theorem Faulted.raises {i : Instr} {s t : State} (h : Faulted i s t) : ∃ k, t = raiseFault k s ∧ Raises i s k :=
  h.raised

/-- Only a pin command can be illegal, and then it names no output (30_encoding.md R81). -/
theorem exec_illegal {i : Instr} (h : ¬i.WellFormed) (s : State) :
    exec i s = .next (raiseFault (.illegalCommand (encode i)) s) := by
  cases i with
  | pinset sig => exact pinWrite_of_no_output _ true s (Nat.lt_of_not_le fun hle => h (sigLegal_iff.2 hle))
  | pinclr sig => exact pinWrite_of_no_output _ false s (Nat.lt_of_not_le fun hle => h (sigLegal_iff.2 hle))
  | init | shiftout | dispint | muxpass | dwell | cycle | delay => exact absurd rfl h

/-- A command that meets a fault's condition raises that fault: the conditions say all that a fault depends on. -/
theorem Raises.exec_eq {i : Instr} {s : State} {k : FaultKind} (h : Raises i s k) :
    exec i s = .next (raiseFault k s) := by
  obtain ⟨rfl, hill⟩ | ⟨rfl, hn, hwf, hinit⟩ | ⟨rfl, rfl, hinit⟩ | ⟨p, rfl, rfl, hinit, hclash⟩ := h
  · exact exec_illegal hill s
  · exact commandBeforeInitIsNotInitialised i s hwf hn hinit
  · exact exec_init_again hinit
  · exact exec_init_clash hinit hclash

theorem raises_env {i : Instr} {s : State} {k : FaultKind} (env : List (List EnvAct)) :
    Raises i { s with env := env } k ↔ Raises i s k := Iff.rfl

/-- The clash INIT reports is of two different signals on one pin (45_primitives.md R141). -/
theorem firstClash_eq_some {m : PinMap} {p : Signal × Signal} (h : firstClash m = some p) :
    p.1 ≠ p.2 ∧ pinOf m p.1 = pinOf m p.2 := by
  have hdistinct : ∀ p ∈ orderedPairs allSignals, p.1 ≠ p.2 := by decide
  exact ⟨hdistinct p (List.mem_of_find?_eq_some h), by simpa using List.find?_some h⟩

/-- Settles O16: a command that completes leaves the fault record, and one that does not raises the fault it meets the
condition of. -/
theorem faultsArePreciseAndNamed : Obligations.FaultsArePreciseAndNamed := by
  intro i s t hnone hexec hfault
  obtain hf | hc := exec_inversion hexec
  · obtain ⟨k, ht, hwhy⟩ := hf.raises
    refine ⟨k, ht, hwhy.imp_right (Or.imp_right (Or.imp_right ?_))⟩
    rintro ⟨p, hk, hi, hinit, hclash⟩
    exact ⟨p.1, p.2, hk, hi, hinit, firstClash_eq_some hclash⟩
  · exact absurd (hc.fault.trans hnone) hfault

/-- Settles O9: of the commands, and of the words that are none, each has a next state. -/
theorem stepStopsOnlyAtAFaultOrTheEnd : Obligations.StepStopsOnlyAtAFaultOrTheEnd := by
  refine ⟨fun s r hfault => ?_, fun s hfault hend => ?_, fun s hfault hlt => ?_⟩
  · simp only [step, hfault]
  · simp only [step, hfault, fetch, List.getElem?_eq_none hend]
  · have hword := List.getElem?_eq_getElem hlt
    cases hdecode : decode s.stream[s.pc] with
    | error e => exact ⟨_, stepOnAnIllegalWordRecordsTheFault s _ e hfault hword hdecode⟩
    | ok i =>
      obtain ⟨t, hexec, -⟩ := exec_cases i s
      exact ⟨t, (stepExecutesTheFetchedCommand s _ i hfault hword hdecode).trans hexec⟩

/-! ## Interrupt steps at one point -/

/-- k interrupt steps while the interrupt is enabled (60_exceptions.md R163, R164). -/
theorem envActs_irqs_enabled (k : Nat) {s : State} (h : s.irqEnabled = true) :
    envActs (List.replicate k .irq) s =
      { s with dwell := bumps s.cfg.dwellWidth k s.dwell, log := List.replicate k .a ++ s.log } := by
  induction k generalizing s with
  | zero => rfl
  | succ k ih =>
    rw [List.replicate_succ, envActs, envAct, ih (by simp [h]), irqStep_enabled h, List.replicate_succ']
    simp [bumps]

/-- k interrupt steps while the interrupt is not enabled (60_exceptions.md R161). -/
theorem envActs_irqs_disabled (k : Nat) {s : State} (h : s.irqEnabled = false) :
    envActs (List.replicate k .irq) s = s := by
  induction k with
  | zero => rfl
  | succ k ih => rw [List.replicate_succ, envActs, envAct, irqStep_disabled h, ih]

theorem bumps_succ_eq (w : DwellWidth) (k d : Nat) :
    bumps w (k + 1) d = (d + 100 * (k + 1)) % 2 ^ dwellBits w := by
  induction k with
  | zero => rfl
  | succ k ih =>
    have hsum : d + 100 * (k + 1) + 100 = d + 100 * (k + 1 + 1) := by omega
    rw [bumps_succ, ih, bumpDwell, dwellInc, Nat.mod_add_mod, hsum]

/-- k additions of 100; with none, `dwell` is not even reduced to its width. -/
theorem bumps_eq (w : DwellWidth) (k d : Nat) :
    bumps w k d = if k = 0 then d else (d + 100 * k) % 2 ^ dwellBits w := by
  cases k with
  | zero => rfl
  | succ k => rw [bumps_succ_eq, if_neg (Nat.succ_ne_zero k)]

/-- Settles O38: the point takes the steps its entry of `env` holds, each of them or none. -/
theorem interruptStepsAddToDwellAlone : Obligations.InterruptStepsAddToDwellAlone := by
  intro k s rest henv
  have hpoint : envPoint s = envActs (List.replicate k .irq) { s with env := rest } := by rw [envPoint, henv]
  refine ⟨fun henabled => ?_, fun hdisabled => ?_⟩
  · rw [hpoint, envActs_irqs_enabled (s := { s with env := rest }) k henabled, bumps_eq]
  · exact hpoint.trans (envActs_irqs_disabled k hdisabled)

/-! ## Where interrupt steps fall -/

/-- Data lines once driven stay driven, so that no edge takes in a free bit (log 9). -/
theorem dataDrivenAtClocks_of_driven {r : Reg} {l : Levels} (h : l.get (serOf r) ≠ none) (a : List Event) :
    DataDrivenAtClocks r l a := by
  induction a generalizing l with
  | nil => trivial
  | cons e rest ih => exact ⟨fun _ => h, ih (levelsAfter_get_ne_none (.inl h))⟩

/-- With its data line driven, a register is what the main agent's events make of it. -/
theorem Grew.ext_of_driven {r : Reg} {main : List Event} {s t : State} (h : Grew main s t)
    (hser : s.sig.get (serOf r) ≠ none) : t.ext r = (emit main s.quiet).ext r := by
  obtain ⟨new, rfl, hext⟩ := h.ext_eq_emit
  rw [hext]
  exact emit_ext_mainEvents rfl rfl rfl (dataDrivenAtClocks_of_driven hser _)

theorem Grew.mainEvents_trace {main : List Event} {s t : State} (h : Grew main s t) :
    mainEvents t.trace = mainEvents s.trace ++ main := by
  obtain ⟨new, htrace, hmain, -⟩ := h
  rw [htrace, mainEvents_append, hmain]

/-- The main agent reads nothing of the environment but the sample (43_display_multiplexer.md R125). -/
theorem commandTrace_of_passesSampled {i : Instr} {s : State} {env : List (List EnvAct)}
    (h : passesSampled i { s with env := env } = passesSampled i s) :
    commandTrace i { s with env := env } = commandTrace i s := by
  cases i with
  | dwell number => exact congrArg (fun n => binLoadTrace number ++ shownTrace s.cfg number n) h
  | cycle =>
    exact congrArg (fun n => .e (fmt3 s.counter) :: (binLoadTrace s.counter ++ shownTrace s.cfg s.counter n)) h
  | init | shiftout | dispint | muxpass | pinset | pinclr | delay => rfl

theorem commandPhase_of_passesSampled {i : Instr} {s : State} {env : List (List EnvAct)}
    (h : passesSampled i { s with env := env } = passesSampled i s) :
    commandPhase i { s with env := env } = commandPhase i s := by
  cases i with
  | dwell number => exact congrArg (fun n => if n = 0 then s.phase else .tensActive) h
  | cycle => exact congrArg (fun n => if n = 0 then s.phase else .tensActive) h
  | init | shiftout | dispint | muxpass | pinset | pinclr | delay => rfl

/-- A command that completes raises no fault: the one moves `pc`, the other keeps it. -/
theorem Completed.not_raises {i : Instr} {s t : State} {k : FaultKind} (hc : Completed i s t)
    (hexec : exec i s = .next t) : ¬Raises i s k := by
  intro hwhy
  obtain rfl : raiseFault k s = t := Host.Outcome.next.inj (hwhy.exec_eq.symm.trans hexec)
  exact Nat.succ_ne_self _ hc.pc.symm

/-- Settles O40: a fault's condition says nothing of the environment; of two runs that complete with the same sample, the
main agent's events are the same, and all that is compared follows from these. -/
theorem interruptPlaceMattersOnlyToTheSample : Obligations.InterruptPlaceMattersOnlyToTheSample := by
  intro i s env hsample
  obtain ⟨t, ht, hf | hct⟩ := exec_cases i s
  · obtain ⟨k, rfl, hwhy⟩ := hf.raises
    exact ⟨_, _, ht, ((raises_env env).2 hwhy).exec_eq, rfl, rfl, rfl, rfl, rfl, rfl, rfl, rfl, rfl, rfl,
      fun _ => ⟨rfl, rfl⟩⟩
  · obtain ⟨u, hu, hf | hcu⟩ := exec_cases i { s with env := env }
    · obtain ⟨k, -, hwhy⟩ := hf.raises
      exact absurd ((raises_env env).1 hwhy) (hct.not_raises ht)
    · have htrace := commandTrace_of_passesSampled hsample
      have hphase := commandPhase_of_passesSampled hsample
      have hsig := hcu.sig
      have hgrew := hcu.grew
      rw [htrace] at hsig hgrew
      refine ⟨t, u, ht, hu, hct.sig.trans hsig.symm, hct.counter.trans hcu.counter.symm,
        hct.phase.trans (hcu.phase.trans hphase).symm, hct.initialised.trans hcu.initialised.symm,
        hct.irqEnabled.trans hcu.irqEnabled.symm, hct.fault.trans hcu.fault.symm, hct.pc.trans hcu.pc.symm,
        hct.cfg.trans hcu.cfg.symm, hct.stream.trans hcu.stream.symm,
        hct.grew.mainEvents_trace.trans hgrew.mainEvents_trace.symm, fun hdriven => ?_⟩
      have hext (r : Reg) : t.ext r = u.ext r :=
        (hct.grew.ext_of_driven (hdriven r)).trans (hgrew.ext_of_driven (hdriven r)).symm
      exact ⟨hext .bin, hext .seg⟩

end Sys2Proof.Machine
end

section
/-! PROOFS. The registers' outputs and what they light (60_exceptions.md R174 to R176). -/

namespace Sys2Proof.Machine

open Sys2Proof

theorem shownOutputs_enabled {s : State} {r : Reg} (h : s.sig.get (oeOf r) = some false) :
    shownOutputs s r = some (extOut s.cfg.latchMode (s.ext r)) := if_pos h

theorem shownOutputs_disabled {s : State} {r : Reg} (h : s.sig.get (oeOf r) ≠ some false) :
    shownOutputs s r = none := if_neg h

theorem extOut_eq (mode : LatchMode) (x : ExtReg) : extOut mode x = if mode = .lagged then x.latch else x.sr := by
  cases mode <;> rfl

theorem binaryLit_iff (s : State) (led : Nat) :
    binaryLit s led = true ↔
      s.sig.oeB = some false ∧
        ∃ k, k < 8 ∧ s.cfg.binWiring[k]? = some led ∧ (extOut s.cfg.latchMode s.extB).getLsbD k = true := by
  by_cases hoe : s.sig.oeB = some false
  · have hshown : shownOutputs s .bin = some (extOut s.cfg.latchMode s.extB) := shownOutputs_enabled hoe
    simp only [binaryLit, hshown, hoe, wiredTo]
    simp
  · have hdark : shownOutputs s .bin = none := shownOutputs_disabled hoe
    simp only [binaryLit, hdark, hoe, false_and, Bool.false_eq_true]

theorem indicatorOn_iff (s : State) (o : Out) : indicatorOn s o = true ↔ s.sig.get o = some true := beq_iff_eq

/-- Settles O45: the definitions of what is shown and lit, as equivalences. -/
theorem outputsShownAndWhatTheyLight : Obligations.OutputsShownAndWhatTheyLight := fun s =>
  ⟨fun _ hoe => (shownOutputs_enabled hoe).trans (congrArg some (extOut_eq ..)), fun _ => shownOutputs_disabled,
    binaryLit_iff s, segmentLit_iff s, indicatorOn_iff s .h1, indicatorOn_iff s .h2⟩

/-- Output k of a register is at 1 where a 1 of the value reaches it. -/
theorem frameOutputs_eq_true (mode : LatchMode) (v : Byte) {k : Nat} (hk : k < 8) :
    (frameOutputs mode v).getLsbD k = true ↔
      mode = .lagged ∧ v.getLsbD (7 - k) = true ∨ mode = .direct ∧ 1 ≤ k ∧ v.getLsbD (8 - k) = true := by
  cases mode with
  | lagged =>
    rw [frameOutputs, getLsbD_reverse8 _ hk]
    simp
  | direct =>
    rw [frameOutputs, BitVec.getLsbD_shiftLeft]
    cases k with
    | zero => simp
    | succ k =>
      rw [Nat.add_sub_cancel, getLsbD_reverse8 _ (Nat.lt_of_succ_lt hk), Nat.succ_sub_succ 7 k]
      simp [hk]

/-- Settles O46: SHIFTOUT leaves OE_B, and BIN's outputs carry the frame's. -/
theorem binaryLedsShowTheShiftedValue : Obligations.BinaryLedsShowTheShiftedValue := by
  intro value led s hinit hclk
  obtain ⟨t, hexec, -, -, -, hothers, hkeeps, -⟩ := shiftoutFrame .bin value s hinit
  obtain ⟨u, hexec', -, hout⟩ := shiftoutOverwritesTheRegister .bin value s hinit hclk
  obtain rfl : t = u := Host.Outcome.next.inj (hexec.symm.trans hexec')
  refine ⟨t, hexec, ?_⟩
  have hoe : t.sig.oeB = s.sig.oeB := hothers .oeB (by decide)
  have houtB : extOut t.cfg.latchMode t.extB = frameOutputs s.cfg.latchMode value := hout
  rw [binaryLit_iff, hoe, houtB, hkeeps.cfg]
  refine and_congr_right' (exists_congr fun k => and_congr_right fun hk => and_congr_right' ?_)
  exact frameOutputs_eq_true _ value hk

end Sys2Proof.Machine
end

section
/-! PROOFS. The hazards of the multiplexer's commands (70_reset_and_hazards.md): registers loaded while their outputs are
dark (R190, R198), and the delay units waited (R200). -/

namespace Sys2Proof.Machine

open Sys2Proof

/-! ## Loading a register in the dark -/

/-- A trace from levels `l` writes the serial lines of `r` only at points where OE_r is at 1
(70_reset_and_hazards.md R190, R198). -/
def LoadedDark (r : Reg) (l : Levels) (trace : List Event) : Prop :=
  ∀ before e, before ++ [e] <+: trace → writesLines r e → (levelsAfter l before).get (oeOf r) = some true

/-- An event of a trace of two parts stands in the first part or in the second. -/
theorem concat_prefix_append_cases {before a b : List Event} {e : Event} (h : before ++ [e] <+: a ++ b) :
    before ++ [e] <+: a ∨ ∃ c, before = a ++ c ∧ c ++ [e] <+: b := by
  obtain hin | ⟨c, heq, hc⟩ := prefix_append_cases h
  · exact .inl hin
  · obtain rfl | ⟨d, x, rfl⟩ := c.eq_nil_or_concat'
    · exact .inl (by rw [heq, List.append_nil])
    · rw [← List.append_assoc] at heq
      obtain ⟨rfl, hx⟩ := List.append_inj' heq rfl
      cases hx
      exact .inr ⟨d, rfl, hc⟩

theorem LoadedDark.append {r : Reg} {l : Levels} {a b : List Event} (ha : LoadedDark r l a)
    (hb : LoadedDark r (levelsAfter l a) b) : LoadedDark r l (a ++ b) := by
  intro before e hbefore hw
  obtain hin | ⟨c, rfl, hc⟩ := concat_prefix_append_cases hbefore
  · exact ha before e hin hw
  · rw [levelsAfter_append]
    exact hb c e hc hw

/-- An output that no event of a trace writes keeps its level. -/
theorem levelsAfter_get_of_no_write {l : Levels} {o : Out} {a : List Event} (h : ∀ u, .w o u ∉ a) :
    (levelsAfter l a).get o = l.get o :=
  levelsAfter_get_of_not_written _ _ _ fun _ u hmem heq => h u (heq ▸ hmem)

/-- A trace that begins dark and leaves the output-enable alone stays dark. -/
theorem LoadedDark.of_enable_not_written {r : Reg} {l : Levels} {a : List Event} (hl : l.get (oeOf r) = some true)
    (ha : ∀ u, .w (oeOf r) u ∉ a) : LoadedDark r l a := by
  intro before e hbefore _
  rw [levelsAfter_get_of_no_write fun u hmem => ha u (hbefore.subset (List.mem_append_left _ hmem)), hl]

theorem LoadedDark.of_no_line {r : Reg} {l : Levels} {a : List Event} (ha : ∀ e ∈ a, ¬writesLines r e) :
    LoadedDark r l a :=
  fun _ e hbefore hw => absurd hw (ha e (hbefore.subset (by simp)))

/-- The interrupt agent's events write no line and change no level. -/
theorem LoadedDark.of_mainEvents {r : Reg} {l : Levels} {trace : List Event} (h : LoadedDark r l (mainEvents trace)) :
    LoadedDark r l trace := by
  intro before e hbefore hw
  have hmain : mainEvents [e] = [e] := by
    obtain ⟨o, v, rfl, -⟩ := hw
    rfl
  have hpre := mainEvents_prefix hbefore
  rw [mainEvents_append, hmain] at hpre
  rw [← levelsAfter_mainEvents]
  exact h _ e hpre hw

/-! ## The SEG register -/

/-- A half loads SEG before its flash, which writes no serial line (43_display_multiplexer.md R117, R118). -/
theorem loadedDark_half {l : Levels} (hl : l.get .oeS = some true) (p : Params) (number : Byte) (place : Place) :
    LoadedDark .seg l (halfTrace p number place) := by
  refine LoadedDark.append (.of_enable_not_written hl fun u h => ?_) (.of_no_line ?_)
  · exact absurd (halfLead_writes h) (by decide)
  · exact not_writesLines_of_writes (os := [.oeS]) (by simp +contextual) (by decide)

theorem loadedDark_halves {l : Levels} (hl : l.get .oeS = some true) (p : Params) (number : Byte)
    (places : List Place) : LoadedDark .seg l (halvesTrace p number places) := by
  induction places generalizing l with
  | nil => exact .of_no_line nofun
  | cons place rest ih =>
    rw [halvesTrace_cons]
    exact (loadedDark_half hl p number place).append (ih (levelsAfter_half ..).oeS)

theorem loadedDark_seg_command {i : Instr} {s : State} {v : Byte} (hv : valueShown i s = some v)
    (hs : s.sig.get .oeS = some true) : LoadedDark .seg s.sig (commandTrace i s) := by
  obtain ⟨lead, places, tail, htrace, hwrites⟩ := commandTrace_of_valueShown hv
  have hlead : ∀ u, .w .oeS u ∉ lead := fun u h => absurd (hwrites _ _ (List.mem_append_left _ h)) (by decide)
  have hdark : (levelsAfter s.sig lead).get .oeS = some true := (levelsAfter_get_of_no_write hlead).trans hs
  have htail : ∀ e ∈ tail, ¬writesLines .seg e :=
    not_writesLines_of_writes (fun o u h => hwrites o u (List.mem_append_right _ h)) (by decide)
  rw [htrace]
  exact ((LoadedDark.of_enable_not_written hs hlead).append (loadedDark_halves hdark _ _ _)).append (.of_no_line htail)

/-! ## The BIN register -/

theorem muxpass_or_dwell_of_valueShown {i : Instr} {s : State} {v : Byte} (h : valueShown i s = some v) :
    i = .muxpass v ∨ (∃ n, i = .dwell n) ∨ i = .cycle := by
  cases i with
  | muxpass number => exact .inl (congrArg _ (Option.some.inj h))
  | dwell number => exact .inr (.inl ⟨number, rfl⟩)
  | cycle => exact .inr (.inr rfl)
  | init | shiftout | dispint | pinset | pinclr | delay => cases h

theorem commandTrace_muxpass (number : Byte) (s : State) :
    commandTrace (.muxpass number) s = halvesTrace s.cfg number [.ones, .tens] := passTrace_eq_halves ..

theorem halvesTrace_no_binLine (p : Params) (number : Byte) (places : List Place) :
    ∀ e ∈ halvesTrace p number places, ¬writesLines .bin e :=
  not_writesLines_of_writes (fun _ _ => halvesTrace_writes) (by decide)

/-- The frame of the binary load comes before OE_B is written (43_display_multiplexer.md R124). -/
theorem loadedDark_binLoad {l : Levels} (hl : l.get .oeB = some true) (number : Byte) :
    LoadedDark .bin l (binLoadTrace number) := by
  refine LoadedDark.append (.of_enable_not_written hl fun u h => ?_) (.of_no_line ?_)
  · exact absurd (frameTrace_writes h) (by decide)
  · exact not_writesLines_of_writes (os := [.oeB]) (by simp +contextual) (by decide)

theorem loadedDark_bin_command {i : Instr} {s : State} {v : Byte} (hv : valueShown i s = some v)
    (hs : s.sig.get .oeB = some true) : LoadedDark .bin s.sig (commandTrace i s) := by
  obtain rfl | hi := muxpass_or_dwell_of_valueShown hv
  · rw [commandTrace_muxpass]
    exact .of_no_line (halvesTrace_no_binLine _ _ _)
  · obtain ⟨first, number, n, hfirst, htrace⟩ := commandTrace_of_dwell hi s
    have hdark : (levelsAfter s.sig first).get .oeB = some true :=
      (levelsAfter_get_of_no_write (hfirst _)).trans hs
    have hload := (LoadedDark.of_enable_not_written hs (hfirst _)).append (loadedDark_binLoad hdark number)
    have hrelease : ∀ e ∈ releaseTrace s.cfg, ¬writesLines .bin e :=
      not_writesLines_of_writes (os := [.oeB]) (fun _ _ h => by simp [releaseTrace_writes h]) (by decide)
    rw [htrace]
    exact (hload.append (.of_no_line (halvesTrace_no_binLine _ _ _))).append (.of_no_line hrelease)

/-- With BIN_OE_RELEASE a command begun with OE_B at 1 ends with it at 1: MUXPASS does not write it, a dwell cycle
releases it. -/
theorem levelsAfter_command_oeB {i : Instr} {s : State} {v : Byte} (hv : valueShown i s = some v)
    (hrelease : s.cfg.binOeRelease = true) (hs : s.sig.get .oeB = some true) :
    (levelsAfter s.sig (commandTrace i s)).get .oeB = some true := by
  obtain rfl | hi := muxpass_or_dwell_of_valueShown hv
  · rw [commandTrace_muxpass, levelsAfter_halves_oeB, hs]
  · obtain ⟨first, number, n, -, htrace⟩ := commandTrace_of_dwell hi s
    rw [htrace, levelsAfter_append]
    simp [releaseTrace, hrelease]

/-- Settles O44: a half loads SEG before its flash writes OE_S to 0, and the flash ends with OE_S at 1; the binary load
writes OE_B to 0 after its frame, and no line of BIN is written after it. -/
theorem registersLoadInTheDark : Obligations.RegistersLoadInTheDark := by
  intro i s t new hshown hs hexec hnew
  obtain ⟨v, hv⟩ := Option.isSome_iff_exists.1 hshown
  obtain ⟨rfl, k, rfl⟩ | ⟨hmain, hc⟩ := exec_appends hexec hnew
  · have hnone (r : Reg) : LoadedDark r s.sig [] := .of_no_line nofun
    exact ⟨hnone .seg, fun _ hoe => ⟨hoe, hnone .bin⟩⟩
  · have hseg : LoadedDark .seg s.sig new := .of_mainEvents (hmain ▸ loadedDark_seg_command hv hs)
    refine ⟨hseg, fun hrelease hoe => ⟨?_, ?_⟩⟩
    · rw [hc.sig]
      exact levelsAfter_command_oeB hv hrelease hoe
    · have hbin : LoadedDark .bin s.sig new := .of_mainEvents (hmain ▸ loadedDark_bin_command hv hoe)
      exact hbin

/-! ## The delay units of a trace -/

@[simp] theorem delayUnits_nil : delayUnits [] = 0 := rfl

@[simp] theorem delayUnits_d (n : Nat) (rest : List Event) : delayUnits (.d n :: rest) = n + delayUnits rest := rfl

@[simp] theorem delayUnits_w (o : Out) (v : Bool) (rest : List Event) :
    delayUnits (.w o v :: rest) = delayUnits rest := rfl

@[simp] theorem delayUnits_e (text : List Byte) (rest : List Event) :
    delayUnits (.e text :: rest) = delayUnits rest := rfl

@[simp] theorem delayUnits_append (a b : List Event) : delayUnits (a ++ b) = delayUnits a + delayUnits b := by
  induction a with
  | nil => exact (Nat.zero_add _).symm
  | cons e rest ih =>
    cases e with
    | d n => rw [List.cons_append, delayUnits_d, delayUnits_d, ih, Nat.add_assoc]
    | w | e | cfg | ien | a => exact ih

/-- No acknowledge waits, so delay units may be counted on the main agent's events. -/
theorem delayUnits_mainEvents (l : List Event) : delayUnits (mainEvents l) = delayUnits l := by
  induction l with
  | nil => rfl
  | cons e rest ih =>
    cases e with
    | d n => exact congrArg (n + ·) ih
    | w | e | cfg | ien | a => exact ih

@[simp] theorem delayUnits_frameTrace (r : Reg) (v : Byte) : delayUnits (frameTrace r v) = 0 := rfl

@[simp] theorem delayUnits_displayTrace (p : Params) (number : Byte) (place : Place) :
    delayUnits (displayTrace p number place) = 0 := by
  unfold displayTrace
  split <;> split <;> simp

/-- Each flash of a pass waits one unit (43_display_multiplexer.md R118). -/
@[simp] theorem delayUnits_passTrace (p : Params) (number : Byte) : delayUnits (passTrace p number) = 2 := by
  simp [passTrace]

@[simp] theorem delayUnits_passes (p : Params) (number : Byte) (n : Nat) :
    delayUnits (List.replicate n (passTrace p number)).flatten = 2 * n := by
  induction n with
  | zero => rfl
  | succ n ih =>
    rw [List.replicate_succ, List.flatten_cons, delayUnits_append, delayUnits_passTrace, ih]
    omega

@[simp] theorem delayUnits_binLoadTrace (number : Byte) : delayUnits (binLoadTrace number) = 0 := rfl

@[simp] theorem delayUnits_shownTrace (p : Params) (number : Byte) (n : Nat) :
    delayUnits (shownTrace p number n) = 2 * n := by
  unfold shownTrace
  split <;> simp

theorem delayUnits_commandTrace {i : Instr} {s : State} {v : Byte} (hv : valueShown i s = some v) :
    delayUnits (commandTrace i s) = if i = .muxpass v then 2 else 2 * passesSampled i s := by
  obtain rfl | ⟨number, rfl⟩ | rfl := muxpass_or_dwell_of_valueShown hv
  · simp [commandTrace]
  · simp [commandTrace, passesSampled]
  · simp [commandTrace, passesSampled]

/-- Settles O50: after INIT the command completes, and the main agent's events alone wait. -/
theorem multiplexerWaitsTwoUnitsAPass : Obligations.MultiplexerWaitsTwoUnitsAPass := by
  intro i s t new v hv hinit hexec hnew
  obtain ⟨hwf, hninit⟩ : i.WellFormed ∧ i ≠ .init := by
    obtain rfl | ⟨number, rfl⟩ | rfl := muxpass_or_dwell_of_valueShown hv <;> exact ⟨rfl, by simp⟩
  obtain ⟨u, hu, hc⟩ := exec_completes hwf hninit hinit
  obtain rfl : u = t := Host.Outcome.next.inj (hu.symm.trans hexec)
  obtain ⟨grown, hgrown, hmain⟩ := hc.shows
  obtain rfl := List.append_cancel_left (hnew.symm.trans hgrown)
  rw [← delayUnits_mainEvents, hmain, delayUnits_commandTrace hv]

end Sys2Proof.Machine
end
